-- ==== Sys2Proof/Word.lean ====
section
/-! DEFINITION. The parameters of `00_scope.md` R5 that fix a width or a size, by name, and the word
types of the block (R7): bytes, the `LEN_W` bit offsets held by `pc`, `ie_off`, `buf_len` and `err_off`,
and decoder identifiers. -/

namespace Sys2Proof

/-- `LEN_W` (R5, D3). The spec lets a model take any value from 17 up and this one takes the default
(log entry 7). -/
@[simp] abbrev Config.lenW : Nat := 17

/-- `DEC_ID_W` (R5, D22). -/
@[simp] abbrev Config.decIdW : Nat := 8

/-- `NUM_VERSIONS` (R5): the banks of the registry. -/
@[simp] abbrev Config.numVersions : Nat := 3

/-- `REG_SIZE` (R5): the entries of a bank. -/
@[simp] abbrev Config.regSize : Nat := 256

/-- `NUM_CTX` (R5, D26): a block has one decode context, and a State is the state of one block. -/
abbrev Config.numCtx : Nat := 1

/-- A byte, bit 7 the most significant (R7). -/
abbrev Byte := BitVec 8

/-- A byte offset into BUF (R5, R12). -/
abbrev Off := BitVec Config.lenW

/-- An offset fits `LEN_W` bits, with the power evaluated. -/
theorem Off.toNat_lt (x : Off) : x.toNat < 131072 := x.isLt

/-- A decoder identifier, 0 being the null decoder (R5, R17). -/
abbrev DecId := BitVec Config.decIdW

/-- The single bit of a register field, from a flag held as a Bool. -/
abbrev bit (b : Bool) : BitVec 1 := BitVec.ofBool b

end Sys2Proof
end

