-- ==== Sys2Proof/Config.lean ====
section
/-! DEFINITION. What is fixed for one block: the parameters of `00_scope.md` R5 at the spec's defaults,
the data exchanged on the leaf decoder port (`30_encoding.md` R73), and the free values: the OPEN
parameters `INIT_REGISTRY` and `Leaf`, and the contents of BUF cells nobody has written. A free value
has no body, so nothing can be proved about which value it is. -/

namespace Sys2Proof

/-- The parameters of R5 that a claim may quantify over. The document fixes `extMarker` and
`extStride`; the masks (D4), `v0SndcpBytes` (D5) and `bcdOther` (D20) are the spec's decisions. -/
structure Params where
  ptMask : Byte
  v0SndcpMask : Byte
  v1SeqMask : Byte
  v2TeidMask : Byte
  v0SndcpBytes : Nat
  extMarker : Byte
  extStride : Nat
  /-- `BCD_OTHER`: the character of nibble 0xC, 0xD, 0xE or a non-final 0xF, or none for Invalid. -/
  bcdOther : BitVec 4 → Option Byte

/-- The defaults of R5. -/
def Config.params : Params where
  ptMask := 0x10
  v0SndcpMask := 0x01
  v1SeqMask := 0x02
  v2TeidMask := 0x08
  v0SndcpBytes := 0
  extMarker := 0x02
  extStride := 4
  bcdOther := fun _ => none

/-- `BUF_CELLS` (R5, R16). -/
def Config.bufCells : Nat := 2 ^ Config.lenW

/-- `DEC_IMSI`, the decoder id of the reference IMSI decoder (R5, D24). -/
def Config.decImsi : DecId := 1

/-- `F_IMSI`, the BODY field the reference IMSI decoder writes (R19, R145). -/
def Config.fImsi : Byte := 0x02

/-- Reason codes of R169: a bounds violation. -/
def Config.reasonBounds : Byte := 0x01
/-- R169: a BCD codec reject. -/
def Config.reasonBcd : Byte := 0x02
/-- R133: a leaf decoder's byte count outside `1 .. rem`. -/
def Config.reasonCount : Byte := 0xFE
/-- R73: the reserved answer kind. -/
def Config.reasonReserved : Byte := 0xFF

/-- One field of the BODY store (R19): `present`, `len`, `data`. Its capacity is OPEN (D29). -/
structure Field where
  present : Bool
  len : Nat
  data : List Byte
  deriving DecidableEq, Repr, Inhabited

/-- The absent field of the empty Message (R27). -/
def Field.absent : Field := { present := false, len := 0, data := [] }

/-- The BODY store (R19): the variant tag, and the fields that are not absent, by rising field id. -/
structure Body where
  variant : BitVec 2
  fields : List (Nat × Field)
  deriving DecidableEq, Repr, Inhabited

/-- The answer of a leaf decoder as it stands on the port, format LEAFRSP (R73). -/
structure LeafRsp where
  kind : BitVec 2
  n : Off
  reason : Byte
  deriving DecidableEq, Repr, Inhabited

/-- `INIT_REGISTRY` (R5, D23) is OPEN: for each version and tag, no decoder, or the decoder id that is
one more than the value given (ids are 1 .. 255). Free value, log entry 5. -/
opaque Config.initRegistryOpen : Fin Config.numVersions → Byte → Option (Fin (2 ^ Config.decIdW - 1))

/-- The behaviour of every leaf decoder but the reference one (R137, D22) is OPEN: decoder id, version,
sub-buffer, bytes remaining and BODY give the answer and the fields the decoder writes, first write
first. Free value, log entry 6. -/
opaque Config.leafOpen :
  DecId → BitVec 2 → List Byte → Nat → Body → LeafRsp × List (Byte × Field)

/-- What a BUF cell holds that nobody has written since the last reset (R26, U10): free, one value per
reset and address, so that reading it twice gives the same byte (R44). Log entry 4. -/
opaque Config.unwrittenByte : Nat → Nat → Byte

/-- `INIT_REGISTRY` with its one fixed entry, (1, 0x02) -> `DEC_IMSI` (R201, D23). -/
def Config.initRegistry (v : Fin Config.numVersions) (t : Byte) : Option DecId :=
  if v = 1 ∧ t = 0x02 then some Config.decImsi
  else (Config.initRegistryOpen v t).map fun d => BitVec.ofNat Config.decIdW (d.val + 1)

end Sys2Proof
end

