-- ==== Sys2Proof/Syntax.lean ====
section
/-! DEFINITION. The operations of the block, `30_encoding.md` R76: one constructor per mnemonic of
`spec/opcode_table.json` (the three rows of CMD.ILLEGAL and the two of HDR.UNSUP are ranges of one
operand, log entry 13). A constructor carries what its word holds: the bits of a byte, or the bytes of
the sub-buffer a primitive is called on, together with the operands of the call that are not on the
wire (expected tag, TV length, capacity). -/

namespace Sys2Proof

/-- An operation of the block with its operands. -/
inductive Instr where
  /-- INIT (R201). -/
  | initCmd
  /-- REGISTER (R202); its operands are sampled from CMD_ARG when it executes. -/
  | registerCmd
  /-- DECODE (R203). -/
  | decodeCmd
  /-- CMD.ILLEGAL (R206): `op` in 0, 4 .. 15. -/
  | cmdIllegal (op : BitVec 4)
  /-- HDR.FLAGS (R100): byte 0 of the buffer. -/
  | hdrFlags (b : Byte)
  /-- HDR.UNSUP (R101): byte 0 as version (3 .. 7) and the five bits below it. -/
  | hdrUnsup (version : BitVec 3) (low : BitVec 5)
  /-- HDR.V0 (R102): bits 4:0 of byte 0, whose bits 7:5 are 0. -/
  | hdrV0 (low : BitVec 5)
  /-- HDR.V1 (R103): bits 4:0 of byte 0, whose bits 7:5 are 1. -/
  | hdrV1 (low : BitVec 5)
  /-- HDR.V1.EXT (R104): the marker byte, register `last`. -/
  | hdrV1Ext (marker : Byte)
  /-- HDR.V2 (R105): bits 4:0 of byte 0, whose bits 7:5 are 2. -/
  | hdrV2 (low : BitVec 5)
  /-- HDR.END (R106): the flags register as version and the five bits below it. -/
  | hdrEnd (version : BitVec 3) (low : BitVec 5)
  /-- IE.FETCH (R131): the byte at the cursor. -/
  | ieFetch (tag : Byte)
  /-- IE.CALL (R132). -/
  | ieCall (tag : Byte)
  /-- IE.SKIP01 (R138): the tag's bits 6:0, its bit 7 being 1. -/
  | ieSkip01 (low : BitVec 7)
  /-- IE.SKIP2 (R139). -/
  | ieSkip2 (tag : Byte)
  /-- IE.STOP (R140): the tag's bits 6:0, its bit 7 being 0. -/
  | ieStop (low : BitVec 7)
  /-- RD.U8 (R160). -/
  | rdU8 (v : BitVec 8)
  /-- RD.BE16 (R161). -/
  | rdBe16 (v : BitVec 16)
  /-- RD.BE32 (R162). -/
  | rdBe32 (v : BitVec 32)
  /-- RD.BE64 (R163). -/
  | rdBe64 (v : BitVec 64)
  /-- TV (R164): the sub-buffer, the expected tag `T`, the value length `N`. -/
  | tv (sub : List Byte) (expected : Byte) (n : BitVec 16)
  /-- TLV01 (R165): the sub-buffer and the expected tag. -/
  | tlv01 (sub : List Byte) (expected : Byte)
  /-- TLV2 (R166): the sub-buffer and the expected tag. -/
  | tlv2 (sub : List Byte) (expected : Byte)
  /-- SKIP01 (R167). -/
  | skip01 (sub : List Byte)
  /-- SKIP2 (R168). -/
  | skip2 (sub : List Byte)
  /-- BCD.DEC (R180): the input bytes and the capacity of the destination. -/
  | bcdDec (src : List Byte) (cap : Nat)
  /-- PLMN.LAC (R184): the bytes available. -/
  | plmnLac (src : List Byte)
  /-- LEAF.IMSI (R145): the sub-buffer at the tag byte. -/
  | leafImsi (sub : List Byte)
  deriving DecidableEq, Repr

end Sys2Proof
end

