-- ==== Sys2Proof/WellFormed.lean ====
section
/-! DEFINITION. Which operations the encodings of `30_encoding.md` can spell. -/

namespace Sys2Proof

/-- A sub-buffer lies inside `[pc, buf_len)`, so it has fewer than `BUF_CELLS` bytes (R16, R45). -/
def fitsBuffer (l : List Byte) : Bool := l.length < Config.bufCells

/-- The operand restrictions of the encodings: CMD.ILLEGAL is `op` 0 or 4 .. 15 (R71), HDR.FLAGS stands
for versions 0 .. 2 and HDR.UNSUP for 3 .. 7 (R61, R101), HDR.END sees a version 0 .. 2 (R106), and a
byte string comes from the buffer (R45). -/
def Instr.wf : Instr → Bool
  | .initCmd => true
  | .registerCmd => true
  | .decodeCmd => true
  | .cmdIllegal op => op != 1 && op != 2 && op != 3
  | .hdrFlags b => b.toNat < 0x60
  | .hdrUnsup v _ => 3 ≤ v.toNat
  | .hdrV0 _ => true
  | .hdrV1 _ => true
  | .hdrV1Ext _ => true
  | .hdrV2 _ => true
  | .hdrEnd v _ => v.toNat ≤ 2
  | .ieFetch _ => true
  | .ieCall _ => true
  | .ieSkip01 _ => true
  | .ieSkip2 _ => true
  | .ieStop _ => true
  | .rdU8 _ => true
  | .rdBe16 _ => true
  | .rdBe32 _ => true
  | .rdBe64 _ => true
  | .tv sub _ _ => fitsBuffer sub
  | .tlv01 sub _ => fitsBuffer sub
  | .tlv2 sub _ => fitsBuffer sub
  | .skip01 sub => fitsBuffer sub
  | .skip2 sub => fitsBuffer sub
  | .bcdDec src _ => fitsBuffer src
  | .plmnLac src => fitsBuffer src
  | .leafImsi sub => fitsBuffer sub

end Sys2Proof
end

