-- ==== Sys2Proof/Decode.lean ====
section
/-! DEFINITION. The decoder and the encoder of the operation map (`30_encoding.md` R61 to R76).

The rows of the operation table overlap as bit patterns: which one a byte stands for is decided by the
unit that reads it (the table's `select` column: the CMD register, the sequencer's state, the caller of
a primitive). The decoder takes that unit as an argument, `Sel`. It is total: a word that the unit's
rows do not match is rejected by name. -/

namespace Sys2Proof

/-- The unit that reads a word, with the operands of the call that are not on the wire. -/
inductive Sel where
  /-- A host write to CMD (R71). -/
  | cmd
  /-- The header states of `10_state.md` R15. -/
  | hFlags | h0 | h1 | h1Ext | h2 | hEnd
  /-- `B_FETCH` and `B_CALL`. -/
  | bFetch | bCall
  /-- `B_FALLBACK` with `ver` 0 or 1, and with `ver` = 2 (R136). -/
  | fallback01 | fallback2
  /-- The primitive field readers. -/
  | rdU8 | rdBe16 | rdBe32 | rdBe64
  /-- The frame primitives, with the expected tag and the TV length. -/
  | tv (expected : Byte) (n : BitVec 16) | tlv01 (expected : Byte) | tlv2 (expected : Byte)
  | skip01 | skip2
  /-- The codec, with the capacity of the destination, and the composite. -/
  | bcdDec (cap : Nat) | plmnLac
  /-- A leaf port request with `dec_id` = `DEC_IMSI`. -/
  | leafImsi
  deriving DecidableEq, Repr

/-- A word as it reaches a decoder: a value written to CMD, or bytes in buffer order. -/
inductive RawWord where
  | cmd (w : BitVec 32)
  | bytes (l : List Byte)
  deriving DecidableEq, Repr

/-- Why a unit rejects a word. -/
inductive Reject where
  /-- A CMD value given to a byte unit, or bytes given to the command unit. -/
  | wrongPort
  /-- Not the number of bytes the unit reads. -/
  | wrongLength
  /-- The fixed bits of the unit's rows do not match. -/
  | wrongPattern
  deriving DecidableEq, Repr

/-- The decoder's answer. -/
inductive Decoded where
  | ok (i : Instr)
  | reject (why : Reject)
  deriving DecidableEq, Repr

/-- The big-endian value of a byte string, first byte most significant (R41, R75). -/
def beNat (l : List Byte) : Nat := l.foldl (fun acc b => acc * 256 + b.toNat) 0

/-- The `n` bytes of a value, most significant first (R41). -/
def beBytes : Nat → Nat → List Byte
  | 0, _ => []
  | n + 1, v => beBytes n (v / 256) ++ [BitVec.ofNat 8 v]

/-- Bits 7:5 of byte 0, the version (R61). -/
def versionBits (b : Byte) : BitVec 3 := b.extractLsb' 5 3

/-- Bits 4:0 of byte 0 (R61). -/
def lowBits (b : Byte) : BitVec 5 := b.extractLsb' 0 5

/-- Byte 0 from its version field and the five bits below it (R61). -/
def headerByte (v : BitVec 3) (low : BitVec 5) : Byte := v ++ low

/-- A tag from its class bit (R68) and the seven bits below it. -/
def tagByte (tlvClass : Bool) (low : BitVec 7) : Byte := bit tlvClass ++ low

/-- Bit 7 of a tag: TLV-class in versions 0 and 1 (R68). -/
def tlvClass (t : Byte) : Bool := t.msb

/-- A value written to CMD: `op` = 3:0 selects the command, 31:4 are ignored (R71). -/
def decodeCmdWord (w : BitVec 32) : Instr :=
  let op := w.extractLsb' 0 4
  if op = 1 then .initCmd
  else if op = 2 then .registerCmd
  else if op = 3 then .decodeCmd
  else .cmdIllegal op

/-- The units that read one byte. In `H_FLAGS` the rows of HDR.UNSUP (011xxxxx, 1xxxxxxx) are more
specific than the row of HDR.FLAGS (log entry 15). -/
def decodeByte (c : Sel) (b : Byte) : Decoded :=
  match c with
  | .hFlags => if 3 ≤ (versionBits b).toNat then .ok (.hdrUnsup (versionBits b) (lowBits b))
      else .ok (.hdrFlags b)
  | .h0 => if versionBits b = 0 then .ok (.hdrV0 (lowBits b)) else .reject .wrongPattern
  | .h1 => if versionBits b = 1 then .ok (.hdrV1 (lowBits b)) else .reject .wrongPattern
  | .h1Ext => .ok (.hdrV1Ext b)
  | .h2 => if versionBits b = 2 then .ok (.hdrV2 (lowBits b)) else .reject .wrongPattern
  | .hEnd => if (versionBits b).toNat ≤ 2 then .ok (.hdrEnd (versionBits b) (lowBits b))
      else .reject .wrongPattern
  | .bFetch => .ok (.ieFetch b)
  | .bCall => .ok (.ieCall b)
  | .fallback01 => if tlvClass b then .ok (.ieSkip01 (b.extractLsb' 0 7))
      else .ok (.ieStop (b.extractLsb' 0 7))
  | .fallback2 => .ok (.ieSkip2 b)
  | .rdU8 => .ok (.rdU8 b)
  | _ => .reject .wrongLength

/-- A unit that reads exactly one byte. -/
def decodeOne (c : Sel) (l : List Byte) : Decoded :=
  match l with
  | [b] => decodeByte c b
  | _ => .reject .wrongLength

/-- A byte string that lies in the buffer, else rejected. -/
def decodeSub (sub : List Byte) (i : Instr) : Decoded :=
  if fitsBuffer sub then .ok i else .reject .wrongLength

/-- The units that read bytes of the buffer: one byte, a big-endian field, or the sub-buffer a
primitive is called on. -/
def decodeBytes (c : Sel) (l : List Byte) : Decoded :=
  match c with
  | .cmd => .reject .wrongPort
  | .rdBe16 => if l.length = 2 then .ok (.rdBe16 (BitVec.ofNat 16 (beNat l)))
      else .reject .wrongLength
  | .rdBe32 => if l.length = 4 then .ok (.rdBe32 (BitVec.ofNat 32 (beNat l)))
      else .reject .wrongLength
  | .rdBe64 => if l.length = 8 then .ok (.rdBe64 (BitVec.ofNat 64 (beNat l)))
      else .reject .wrongLength
  | .tv expected n => decodeSub l (.tv l expected n)
  | .tlv01 expected => decodeSub l (.tlv01 l expected)
  | .tlv2 expected => decodeSub l (.tlv2 l expected)
  | .skip01 => decodeSub l (.skip01 l)
  | .skip2 => decodeSub l (.skip2 l)
  | .bcdDec cap => decodeSub l (.bcdDec l cap)
  | .plmnLac => decodeSub l (.plmnLac l)
  | .leafImsi => decodeSub l (.leafImsi l)
  | .hFlags => decodeOne .hFlags l
  | .h0 => decodeOne .h0 l
  | .h1 => decodeOne .h1 l
  | .h1Ext => decodeOne .h1Ext l
  | .h2 => decodeOne .h2 l
  | .hEnd => decodeOne .hEnd l
  | .bFetch => decodeOne .bFetch l
  | .bCall => decodeOne .bCall l
  | .fallback01 => decodeOne .fallback01 l
  | .fallback2 => decodeOne .fallback2 l
  | .rdU8 => decodeOne .rdU8 l

/-- The decoder: total, by unit. -/
def decode (c : Sel) (w : RawWord) : Decoded :=
  match w with
  | .cmd v => if c = .cmd then .ok (decodeCmdWord v) else .reject .wrongPort
  | .bytes l => decodeBytes c l

/-- The unit that reads an operation's word. -/
def selOf : Instr → Sel
  | .initCmd => .cmd
  | .registerCmd => .cmd
  | .decodeCmd => .cmd
  | .cmdIllegal _ => .cmd
  | .hdrFlags _ => .hFlags
  | .hdrUnsup _ _ => .hFlags
  | .hdrV0 _ => .h0
  | .hdrV1 _ => .h1
  | .hdrV1Ext _ => .h1Ext
  | .hdrV2 _ => .h2
  | .hdrEnd _ _ => .hEnd
  | .ieFetch _ => .bFetch
  | .ieCall _ => .bCall
  | .ieSkip01 _ => .fallback01
  | .ieSkip2 _ => .fallback2
  | .ieStop _ => .fallback01
  | .rdU8 _ => .rdU8
  | .rdBe16 _ => .rdBe16
  | .rdBe32 _ => .rdBe32
  | .rdBe64 _ => .rdBe64
  | .tv _ expected n => .tv expected n
  | .tlv01 _ expected => .tlv01 expected
  | .tlv2 _ expected => .tlv2 expected
  | .skip01 _ => .skip01
  | .skip2 _ => .skip2
  | .bcdDec _ cap => .bcdDec cap
  | .plmnLac _ => .plmnLac
  | .leafImsi _ => .leafImsi

/-- The word of an operation, from the layouts of R61 to R72: `op` in CMD[3:0], the version in bits
7:5, the class bit in bit 7, fields big-endian, a byte string as it stands. Ignored bits are 0. -/
def encode : Instr → RawWord
  | .initCmd => .cmd 0x1
  | .registerCmd => .cmd 0x2
  | .decodeCmd => .cmd 0x3
  | .cmdIllegal op => .cmd (op.setWidth 32)
  | .hdrFlags b => .bytes [b]
  | .hdrUnsup v low => .bytes [headerByte v low]
  | .hdrV0 low => .bytes [headerByte 0 low]
  | .hdrV1 low => .bytes [headerByte 1 low]
  | .hdrV1Ext marker => .bytes [marker]
  | .hdrV2 low => .bytes [headerByte 2 low]
  | .hdrEnd v low => .bytes [headerByte v low]
  | .ieFetch t => .bytes [t]
  | .ieCall t => .bytes [t]
  | .ieSkip01 low => .bytes [tagByte true low]
  | .ieSkip2 t => .bytes [t]
  | .ieStop low => .bytes [tagByte false low]
  | .rdU8 v => .bytes (beBytes 1 v.toNat)
  | .rdBe16 v => .bytes (beBytes 2 v.toNat)
  | .rdBe32 v => .bytes (beBytes 4 v.toNat)
  | .rdBe64 v => .bytes (beBytes 8 v.toNat)
  | .tv sub _ _ => .bytes sub
  | .tlv01 sub _ => .bytes sub
  | .tlv2 sub _ => .bytes sub
  | .skip01 sub => .bytes sub
  | .skip2 sub => .bytes sub
  | .bcdDec src _ => .bytes src
  | .plmnLac src => .bytes src
  | .leafImsi sub => .bytes sub

/-! ### Words numbered as the operation table numbers them -/

/-- The longest fixed layout, HDR0 (R62): what a table word is padded to with bytes of zero. -/
def longestFixed : Nat := 20

/-- The `n` bytes of `w`, bits 7:0 first. -/
def leBytes : Nat → Nat → List Byte
  | 0, _ => []
  | n + 1, w => BitVec.ofNat 8 w :: leBytes n (w / 256)

/-- The unit whose row is the most specific match of a table word of `nbits` bits, the last listed
where two match equally many fixed bits (log entry 12). -/
def tableSel (nbits w : Nat) : Option Sel :=
  if nbits = 32 then some .cmd
  else if nbits = 8 then
    let b : Byte := BitVec.ofNat 8 w
    if b = 0x02 then some .leafImsi
    else if versionBits b = 0 then some .h0
    else if versionBits b = 1 then some .h1
    else if versionBits b = 2 then some .h2
    else if versionBits b = 3 then some .hFlags
    else some .fallback01
  else if nbits = 16 then some .rdBe16
  else if nbits = 24 then some .skip01
  else if nbits = 40 then some .plmnLac
  else if nbits = 64 then some .rdBe64
  else none

/-- The table word as it reaches that unit: a CMD value, one byte, a field, or a sub-buffer padded
with bytes of zero. -/
def tableWord (c : Sel) (nbits w : Nat) : RawWord :=
  match c with
  | .cmd => .cmd (BitVec.ofNat 32 w)
  | .leafImsi => .bytes (leBytes longestFixed (w % 2 ^ nbits))
  | .skip01 => .bytes (leBytes longestFixed (w % 2 ^ nbits))
  | .plmnLac => .bytes (leBytes longestFixed (w % 2 ^ nbits))
  | _ => .bytes (leBytes (nbits / 8) w)

/-- What the decoder reads from the table word `w` of `nbits` bits. -/
def decodeTableWord (nbits w : Nat) : Option Instr :=
  match tableSel nbits w with
  | none => none
  | some c =>
    match decode c (tableWord c nbits w) with
    | .ok i => some i
    | .reject _ => none

end Sys2Proof
end

