-- ==== Sys2Proof/Machine/State.lean ====
section
/-! DEFINITION. The state of one GFP block (`10_state.md` R10 to R24), the inputs at its pins, the ways
a step can stop, and the state after reset (R26, R27). Plain data throughout. -/

namespace Sys2Proof.Machine

/-- The sequencer's state `st` (R15). -/
inductive St where
  | idle | hFlags | h0 | h1 | h1Ext | h2 | hEnd | bFetch | bCall | bFallback | done
  deriving DecidableEq, Repr

/-- One registry entry (R17). -/
structure RegEntry where
  valid : Bool
  decId : DecId
  deriving DecidableEq, Repr

/-- The entry of an unregistered tag (R26). -/
def RegEntry.empty : RegEntry := { valid := false, decId := 0 }

/-- The Message header registers (R18). -/
structure Msg where
  version : BitVec 2
  flags : Byte
  msgType : Byte
  msgLen : BitVec 16
  seq : BitVec 16
  seqValid : Bool
  teid : BitVec 32
  teidValid : Bool
  sndcp : Bool
  tid : BitVec 64
  tidValid : Bool
  ieOff : Off
  deriving DecidableEq, Repr

/-- The header part of the empty Message (R27). -/
def Msg.empty : Msg :=
  { version := 0, flags := 0, msgType := 0, msgLen := 0, seq := 0, seqValid := false, teid := 0,
    teidValid := false, sndcp := false, tid := 0, tidValid := false, ieOff := 0 }

/-- The body part of the empty Message (R27). -/
def emptyBody : Body := { variant := 0, fields := [] }

/-- `result` (R20, R74). -/
inductive Result where
  | none | success | headerError | bodyIncomplete
  deriving DecidableEq, Repr

/-- `err_code` (R22, R74). Code 7 does not exist. -/
inductive ErrCode where
  | none | unsupportedVersion | notGtp | truncated | lengthMismatch | ieDecodeError | bodyIncomplete
  deriving DecidableEq, Repr

/-- `err_phase` (R22): 0 header, 1 body. -/
inductive Phase where
  | header | body
  deriving DecidableEq, Repr

/-- The error registers (R22). -/
structure ErrRegs where
  code : ErrCode
  phase : Phase
  ver : BitVec 3
  tag : Byte
  reason : Byte
  off : Off
  deriving DecidableEq, Repr

/-- The error registers as reset and an accepted DECODE leave them (R26, R203). -/
def ErrRegs.clear : ErrRegs :=
  { code := .none, phase := .header, ver := 0, tag := 0, reason := 0, off := 0 }

/-- `cmd_result` (R21, R74). -/
inductive CmdResult where
  | none | initOk | initFail | added | replaced | error | decodeStarted | refused
  deriving DecidableEq, Repr

/-- CMD_ARG (R23, R72): the bits that exist. -/
structure CmdArg where
  version : BitVec 2
  tag : Byte
  decId : DecId
  deriving DecidableEq, Repr

/-- The request held on the leaf decoder port while `st` = B_CALL (R24 (2), R73). -/
structure LeafReq where
  decId : DecId
  ver : BitVec 2
  tag : Byte
  pc : Off
  rem : Off
  deriving DecidableEq, Repr

/-- The answer of a frame primitive (R169). A skip gives no parts, TV a value, TLV01 a length and a
value, TLV2 all three. -/
inductive FrameAns where
  | matched (n : Nat) (length : Option (BitVec 16)) (inst : Option Byte) (value : List Byte)
  | notMatched
  | malformed (reason : Byte)
  deriving DecidableEq, Repr

/-- The answer of the BCD codec (R180): on a reject nothing is delivered (R183). -/
inductive BcdAns where
  | ok (consumed count : Nat) (digits : List Byte)
  | reject
  deriving DecidableEq, Repr

/-- The answer of the MCC/MNC/LAC composite (R184). -/
inductive PlmnAns where
  | ok (consumed : Nat) (mcc mnc : List Byte) (lac : BitVec 16)
  | malformed (reason : Byte)
  deriving DecidableEq, Repr

/-- The answer lines of the units a leaf decoder calls. The model's own (log entry 8). -/
inductive UnitAns where
  | none
  | field (v : BitVec 64)
  | frame (a : FrameAns)
  | bcd (a : BcdAns)
  | plmn (a : PlmnAns)
  | leaf (a : LeafRsp)
  deriving DecidableEq, Repr

/-- A call a leaf decoder makes while its invocation is outstanding (R48, R146). `o` is an offset into
its sub-buffer `BUF[pc .. buf_len)`. The codec takes its number of bytes `n` (R180) and the composite
the bytes `avail` the caller has (R184), all other calls what is left of the sub-buffer
(log entry 8). -/
inductive UnitCall where
  | rdU8 (o : Off)
  | rdBe16 (o : Off)
  | rdBe32 (o : Off)
  | rdBe64 (o : Off)
  | tv (o : Off) (expected : Byte) (n : BitVec 16)
  | tlv01 (o : Off) (expected : Byte)
  | tlv2 (o : Off) (expected : Byte)
  | skip01 (o : Off)
  | skip2 (o : Off)
  | bcdDec (o : Off) (n cap : Nat)
  | plmnLac (o : Off) (avail : Nat)
  | leafImsi
  deriving DecidableEq, Repr

/-- A host access (R23, R200, R204, R205): a 32-bit access to the register window below 0x20000, a byte
access to the BUF window, or a read of a BODY field through the window whose place is OPEN (D29). -/
inductive HostAccess where
  | regWrite (off : Off) (v : BitVec 32)
  | regRead (off : Off)
  | bufWrite (a : Off) (v : Byte)
  | bufRead (a : Off)
  | bodyRead (f : Byte)
  deriving DecidableEq, Repr

/-- What happens at the block's pins next (log entry 1). -/
inductive Input where
  /-- A clock edge with no host access: the parser takes its step. -/
  | clk
  /-- A host access, served at a step boundary (R265). -/
  | host (a : HostAccess)
  /-- A rising edge of `clk` with `rst` = 1, and the host access made at it, if any (R250). -/
  | rst (a : Option HostAccess)
  /-- A leaf decoder calls one of the block's units (R48). -/
  | unitCall (c : UnitCall)
  /-- The leaf decoder's answer strobe (R251, log entry 10). -/
  | leafAnswer
  deriving DecidableEq, Repr

/-- Why a run can stop with a fault. -/
inductive Fault where
  /-- A rule read BUF outside `[0, buf_len)`, starting at this offset: R46 leaves such a read undefined
  and says that no rule makes one. Raised by `readBuf` and by IE.FETCH beyond the end of the buffer, in
  states no run reaches (`Safety.lean`, log entry 20). Safe: the model stops. -/
  | undefinedRead (a : Nat)
  deriving DecidableEq, Repr

/-- Why a step can be refused. -/
inductive Refusal where
  /-- An instruction without a meaning. Raised by an arm of `exec` only; no arm does. Safe. -/
  | notModelled (mnemonic : String)
  /-- The unit that the sequencer selects rejects the word it is given: a header state whose flags
  register holds another version. Raised by `runWord`, in states no run reaches (log entry 20).
  Safe: the model stops. -/
  | noSuchWord (why : Reject)
  deriving DecidableEq, Repr

/-- The state of the block, and the model's own fields at the end. -/
structure State where
  /-- BUF (R16): the cells written since the last reset, by rising address. -/
  buf : List Host.Cell
  bufLen : Off
  /-- REG (R17): the entries other than `RegEntry.empty`, by rising `256 * version + tag`. -/
  reg : List (Nat × RegEntry)
  ver : BitVec 3
  flags : Byte
  tag : Byte
  lenfld : BitVec 16
  last : Byte
  word : BitVec 32
  pc : Off
  ieOff : Off
  st : St
  msg : Msg
  body : Body
  msgValid : Bool
  result : Result
  err : ErrRegs
  cmdResult : CmdResult
  cmdArg : CmdArg
  initDone : Bool
  viol : Bool
  /-- The outstanding leaf invocation (R24 (2)). -/
  leafReq : Option LeafReq
  /-- Model's own: the number of reset edges, which names the unspecified contents of BUF. -/
  epoch : Nat
  /-- Model's own: what happens next at the pins, oldest first. -/
  inputs : List Input
  /-- Model's own: what the last host read returned. -/
  rdata : BitVec 32
  /-- Model's own: what the last host read of BODY returned. -/
  bodyData : Field
  /-- Model's own: the answer lines of the units a leaf decoder calls. -/
  ans : UnitAns
  deriving DecidableEq, Repr

/-- The state after reset (R26, R250). -/
def State.reset : State :=
  { buf := [], bufLen := 0, reg := [], ver := 0, flags := 0, tag := 0, lenfld := 0, last := 0,
    word := 0, pc := 0, ieOff := 0, st := .idle, msg := Msg.empty, body := emptyBody,
    msgValid := false, result := .none, err := ErrRegs.clear, cmdResult := .none,
    cmdArg := { version := 0, tag := 0, decId := 0 }, initDone := false, viol := false,
    leafReq := none, epoch := 0, inputs := [], rdata := 0, bodyData := Field.absent, ans := .none }

/-- The outcome of an operation. -/
abbrev Out := Host.Outcome State Fault Refusal

end Sys2Proof.Machine
end

