-- ==== Sys2Proof/Machine/Flags.lean ====
section
/-! DEFINITION. The flags of the block, `10_state.md` R14: read-only views of byte 0, tested with the
masks of `00_scope.md` R5. There are no arithmetic condition codes. -/

namespace Sys2Proof.Machine

/-- A flag of byte 0: `(b & MASK) != 0` (R75). -/
def flagSet (mask b : Byte) : Bool := b &&& mask != 0

/-- Protocol type = GTP (versions 0, 1). -/
def ptSet (p : Params) (b : Byte) : Bool := flagSet p.ptMask b

/-- SNDCP N-PDU indicator (version 0). -/
def sndcpSet (p : Params) (b : Byte) : Bool := flagSet p.v0SndcpMask b

/-- Sequence number present (version 1). -/
def seqSet (p : Params) (b : Byte) : Bool := flagSet p.v1SeqMask b

/-- Tunnel endpoint id present (version 2). -/
def teidSet (p : Params) (b : Byte) : Bool := flagSet p.v2TeidMask b

end Sys2Proof.Machine
end

