-- ==== Sys2Proof/Machine/Operands.lean ====
section
/-! DEFINITION. Operand assembly, `30_encoding.md` R75: every operand form of the block, from bytes. -/

namespace Sys2Proof.Machine

/-- A 16-bit field from its two bytes (R161). -/
def be16 (hi lo : Byte) : BitVec 16 := BitVec.ofNat 16 (hi.toNat * 256 + lo.toNat)

/-- The v2 authoritative `teid`: the secondary field W shifted right by 8, zero-extended (R75, R105). -/
def teidOfWord (w : BitVec 32) : BitVec 32 := w >>> 8

/-- First BCD digit of a byte, `b[3:0]` (R42). -/
def lowNibble (b : Byte) : BitVec 4 := b.extractLsb' 0 4

/-- Second BCD digit of a byte, `b[7:4]` (R42). -/
def highNibble (b : Byte) : BitVec 4 := b.extractLsb' 4 4

/-- The frame size of TV (R65). -/
abbrev tvSize (n : Nat) : Nat := 1 + n

/-- The frame size of TLV01 (R66). -/
abbrev tlv01Size (len : Nat) : Nat := 3 + len

/-- The frame size of TLV2 (R67). -/
abbrev tlv2Size (len : Nat) : Nat := 4 + len

/-- `idx` = `pc - ie_off`, the body-relative cursor (R75). -/
def bodyIdx (s : State) : Off := BitVec.ofNat Config.lenW (s.pc.toNat - s.ieOff.toNat)

/-- `rem` = `buf_len - pc`, the bytes from the cursor to the end (R8). -/
def remBytes (s : State) : Nat := s.bufLen.toNat - s.pc.toNat

/-- The operands of REGISTER in a value written to CMD_ARG (R72); its other bits do not exist. -/
def cmdArgOf (w : BitVec 32) : CmdArg :=
  { version := w.extractLsb' 0 2, tag := w.extractLsb' 8 8, decId := w.extractLsb' 16 8 }

/-- The meaning of a leaf decoder's answer (R73): kind 3 is Malformed with reason 0xFF. -/
inductive LeafAns where
  | matched (n : Nat)
  | notMatched
  | malformed (reason : Byte)
  deriving DecidableEq, Repr

/-- Decoding of format LEAFRSP (R73). -/
def leafAnsOf (r : LeafRsp) : LeafAns :=
  if r.kind = 0 then .notMatched
  else if r.kind = 1 then .matched r.n.toNat
  else if r.kind = 2 then .malformed r.reason
  else .malformed Config.reasonReserved

/-- Encoding of an answer in format LEAFRSP (R73); ignored fields are 0. -/
def leafRspOf : LeafAns → LeafRsp
  | .notMatched => { kind := 0, n := 0, reason := 0 }
  | .matched n => { kind := 1, n := BitVec.ofNat Config.lenW n, reason := 0 }
  | .malformed r => { kind := 2, n := 0, reason := r }

end Sys2Proof.Machine
end

