-- ==== Sys2Proof/Machine/Ops.lean ====
section
/-! DEFINITION. The shared operations: sparse stores in canonical form, BUF, REG and BODY accesses, the
cursor, the guard `need`, the error entry `raise` (the block's one way of taking an exception,
`60_exceptions.md` R231) and the normal completion `finishSuccess` (R232). The block has no return from
an exception (R233): an accepted DECODE is what clears the error registers (`startDecode`). -/

namespace Sys2Proof.Machine

/-! ### Sparse stores -/

/-- The value listed at a key. -/
def cellFind {α : Type} : List (Nat × α) → Nat → Option α
  | [], _ => none
  | (k, v) :: r, a => if k = a then some v else cellFind r a

/-- Write at a key; with `drop` the key is left unlisted, because the value is what an unlisted key
reads as. -/
def cellPut {α : Type} (drop : Bool) : List (Nat × α) → Nat → α → List (Nat × α)
  | [], a, v => if drop then [] else [(a, v)]
  | (k, w) :: r, a, v =>
    if a < k then (if drop then (k, w) :: r else (a, v) :: (k, w) :: r)
    else if a = k then (if drop then r else (a, v) :: r)
    else (k, w) :: cellPut drop r a v

/-- Canonical form: keys strictly rising from `lo`, below `bound`, no default listed. -/
def cellsWf {α : Type} (bound : Nat) (isDefault : α → Bool) : Nat → List (Nat × α) → Bool
  | _, [] => true
  | lo, (k, v) :: r =>
    decide (lo ≤ k) && decide (k < bound) && !isDefault v && cellsWf bound isDefault (k + 1) r

/-! ### BUF (R16, R40, R44 to R46) -/

/-- The canonical form of BUF. An unlisted cell has no value (R26), so no byte is a default. -/
def Memory.wf (m : List Host.Cell) : Bool := cellsWf Config.bufCells (fun _ => false) 0 m

/-- `BUF[a]`; a cell nobody has written since the last reset holds a free value (U10, log entry 4). -/
def bufByte (s : State) (a : Nat) : Byte :=
  (cellFind s.buf a).getD (Config.unwrittenByte s.epoch a)

/-- `BUF[a .. a + n)`. -/
def bufBytes (s : State) (a n : Nat) : List Byte := (List.range n).map fun i => bufByte s (a + i)

/-- The sub-buffer `BUF[a .. buf_len)` (R45). -/
def subBuf (s : State) (a : Nat) : List Byte := bufBytes s a (s.bufLen.toNat - a)

/-- `MemRead(a, n)`: the big-endian value of `n` bytes, defined only inside `[0, buf_len)` (R8, R46). -/
def memRead (s : State) (a n : Nat) : Option Nat :=
  if a + n ≤ s.bufLen.toNat then some (beNat (bufBytes s a n)) else none

/-- A host write of one byte, `MemWrite(a, 1, v)` (R8). -/
def bufPut (a : Off) (v : Byte) (s : State) : State :=
  { s with buf := cellPut false s.buf a.toNat v }

/-! ### REG (R17) -/

/-- The place of `REG[v][t]` in the store. -/
def regKey (v : Nat) (t : Byte) : Nat := Config.regSize * v + t.toNat

/-- An entry that REG does not list: not valid, or with the null decoder id (R17). -/
def entryUnlisted (e : RegEntry) : Bool := !e.valid || e.decId == 0

/-- The canonical form of REG: 768 entries at most, the empty entry not listed, and a listed entry
valid with a decoder id that is not 0 (R17). -/
def Registry.wf (r : List (Nat × RegEntry)) : Bool :=
  cellsWf (Config.numVersions * Config.regSize) entryUnlisted 0 r

/-- `REG[v][t]`. -/
def regGet (s : State) (v : Nat) (t : Byte) : RegEntry :=
  (cellFind s.reg (regKey v t)).getD RegEntry.empty

/-- `REG[v][t] <- e`. -/
def regPut (v : Nat) (t : Byte) (e : RegEntry) (s : State) : State :=
  { s with reg := cellPut (e == RegEntry.empty) s.reg (regKey v t) e }

/-- The entry INIT writes for a place of the store (R201). -/
def initEntry (k : Nat) : Option (Nat × RegEntry) :=
  if h : k / Config.regSize < Config.numVersions then
    (Config.initRegistry ⟨k / Config.regSize, h⟩ (BitVec.ofNat 8 k)).map fun d => (k, { valid := true, decId := d })
  else none

/-- The registry INIT builds: all 768 entries from `INIT_REGISTRY` (R201). -/
@[irreducible] def initRegistryCells : List (Nat × RegEntry) := (List.range (Config.numVersions * Config.regSize)).filterMap initEntry

/-! ### BODY (R19) -/

/-- A field that BODY does not list (R27). -/
def fieldUnlisted (f : Field) : Bool := f == Field.absent

/-- The canonical form of BODY: field ids below 256, absent fields not listed. -/
def bodyWf (b : Body) : Bool := cellsWf 256 fieldUnlisted 0 b.fields

/-- `BODY.field[f]`. -/
def bodyGet (b : Body) (f : Byte) : Field := (cellFind b.fields f.toNat).getD Field.absent

/-- A leaf decoder's write of one field. -/
def bodyPut (b : Body) (f : Byte) (v : Field) : Body :=
  { b with fields := cellPut (v == Field.absent) b.fields f.toNat v }

/-- The fields a leaf decoder writes, first write first. -/
def bodyPutAll (b : Body) (ws : List (Byte × Field)) : Body :=
  ws.foldl (fun b w => bodyPut b w.1 w.2) b

/-- A leaf decoder's writes to BODY (R19, R132). -/
def writeFields (ws : List (Byte × Field)) (s : State) : State :=
  { s with body := bodyPutAll s.body ws }

/-! ### The sequencer -/

/-- `run` = BUSY (R20): `st` is a header or body state. -/
def busy (s : State) : Bool := s.st != .idle && s.st != .done

/-- `run` as STATUS reports it (R20). -/
def runBits (s : State) : BitVec 2 :=
  match s.st with
  | .idle => 0
  | .done => 2
  | _ => 1

/-- The level output `done` (R208). -/
def doneOut (s : State) : Bool := s.st == .done

/-- `pc <- pc + w` (R12). -/
def advance (w : Nat) (s : State) : State := { s with pc := BitVec.ofNat Config.lenW (s.pc.toNat + w) }

/-- `st <- x`. -/
def goto (x : St) (s : State) : State := { s with st := x }

/-! ### Error entry and completion (R220 to R233) -/

/-- The decode errors with the information the raising rule names (R220 to R226). -/
inductive DecodeError where
  | unsupportedVersion (version : BitVec 3)
  | notGtp
  | truncated (off : Off)
  | lengthMismatch
  | truncatedIe (tag : Byte) (idx : Off)
  | ieDecodeError (tag : Byte) (idx : Off) (reason : Byte)
  | bodyIncomplete (tag : Byte) (idx : Off)
  deriving DecidableEq, Repr

/-- `err_code` of an error (R74, R220). -/
def errCodeOf : DecodeError → ErrCode
  | .unsupportedVersion _ => .unsupportedVersion
  | .notGtp => .notGtp
  | .truncated _ => .truncated
  | .lengthMismatch => .lengthMismatch
  | .truncatedIe _ _ => .truncated
  | .ieDecodeError _ _ _ => .ieDecodeError
  | .bodyIncomplete _ _ => .bodyIncomplete

/-- The phase an error belongs to (R220). -/
def errPhaseOf : DecodeError → Phase
  | .unsupportedVersion _ => .header
  | .notGtp => .header
  | .truncated _ => .header
  | .lengthMismatch => .header
  | .truncatedIe _ _ => .body
  | .ieDecodeError _ _ _ => .body
  | .bodyIncomplete _ _ => .body

/-- `err_tag`: the tag of a body-phase error, else 0 (R22). -/
def errTagOf : DecodeError → Byte
  | .truncatedIe t _ => t
  | .ieDecodeError t _ _ => t
  | .bodyIncomplete t _ => t
  | _ => 0

/-- `err_reason`: the reason of an IeDecodeError, else 0 (R22). -/
def errReasonOf : DecodeError → Byte
  | .ieDecodeError _ _ r => r
  | _ => 0

/-- `err_off`: 0 for the two errors of byte 0 (R221, R222), the field's absolute offset for a header
Truncated (R223), 4 for LengthMismatch (R224), `idx` in the body (R223, R225, R226). -/
def errOffOf : DecodeError → Off
  | .unsupportedVersion _ => 0
  | .notGtp => 0
  | .truncated off => off
  | .lengthMismatch => 4
  | .truncatedIe _ idx => idx
  | .ieDecodeError _ idx _ => idx
  | .bodyIncomplete _ idx => idx

/-- `err_ver`: the version of byte 0 where it is not supported (R221), else `ver` (R231). -/
def errVerOf (e : DecodeError) (ver : BitVec 3) : BitVec 3 :=
  match e with
  | .unsupportedVersion v => v
  | _ => ver

/-- The coarse status of a failed decode, by phase (R227). -/
def resultOfPhase : Phase → Result
  | .header => .headerError
  | .body => .bodyIncomplete

/-- `raise E`, the one error entry (R231): the error registers, the empty Message, `msg_valid` 0, the
coarse status, DONE, the working registers as they are. The outstanding leaf invocation, if any, has
been answered. A rule raises in the state its step began with: nothing else of the step is done (R8). -/
def raise (e : DecodeError) (s : State) : State :=
  { s with
    err := { code := errCodeOf e, phase := errPhaseOf e, ver := errVerOf e s.ver, tag := errTagOf e,
             reason := errReasonOf e, off := errOffOf e }
    msg := Msg.empty
    body := emptyBody
    msgValid := false
    result := resultOfPhase (errPhaseOf e)
    leafReq := none
    st := .done }

/-- `finish Success` (R232). -/
def finishSuccess (s : State) : State := { s with result := .success, msgValid := true, st := .done }

/-- The start of an accepted DECODE (R203): the empty Message, cleared error registers, working
registers 0, `H_FLAGS`. -/
def startDecode (s : State) : State :=
  { s with
    cmdResult := .decodeStarted
    msg := Msg.empty
    body := emptyBody
    msgValid := false
    err := ErrRegs.clear
    result := .none
    ver := 0
    flags := 0
    tag := 0
    lenfld := 0
    last := 0
    word := 0
    pc := 0
    ieOff := 0
    leafReq := none
    st := .hFlags }

/-! ### Guarded reads -/

/-- `need(w)` (R8): raise Truncated(pc) if `w` bytes do not fit, else go on. `s₀` is the state the step
began with, `s` the one its lines have reached (log entry 3). -/
def need (s₀ : State) (w : Nat) (s : State) (k : State → Out) : Out :=
  if s.bufLen.toNat < s.pc.toNat + w then .next (raise (.truncated s.pc) s₀) else k s

/-- Go on with `MemRead(a, n)`; a read outside `[0, buf_len)` is undefined (R46). -/
def readBuf (a n : Nat) (s : State) (k : Nat → Out) : Out :=
  match memRead s a n with
  | some v => k v
  | none => .fault (.undefinedRead a)

/-- `need(n); v <- MemRead(pc, n); pc <- pc + n`: one line of the header rules (R109). -/
def takeField (s₀ : State) (n : Nat) (s : State) (k : Nat → State → Out) : Out :=
  need s₀ n s fun s => readBuf s.pc.toNat n s fun v => k v (advance n s)

/-- `need(n); pc <- pc + n`: a field that is consumed and not stored. -/
def skipField (s₀ : State) (n : Nat) (s : State) (k : State → Out) : Out :=
  need s₀ n s fun s => k (advance n s)

end Sys2Proof.Machine
end

