-- ==== Sys2Proof/Machine/Header.lean ====
section
/-! DEFINITION. The header state machine, `41_header_fsm.md` R100 to R106. Each meaning is written over
the parameters of R5 and instantiated at their defaults. A rule that raises does
nothing else of its step (R8), so each takes the state `s₀` its step began with (log entry 3). -/

namespace Sys2Proof.Machine

/-- The register writes of HDR.FLAGS: `flags`, `ver`, `last`, `pc` (R100). -/
def latchByte0 (b : Byte) (s : State) : State :=
  { s with flags := b, ver := versionBits b, last := b, pc := 1 }

/-- The state HDR.FLAGS dispatches to, if the version is supported (R100). -/
def headerStateOf (v : BitVec 3) : Option St :=
  if v = 0 then some .h0 else if v = 1 then some .h1 else if v = 2 then some .h2 else none

/-- HDR.FLAGS (R100). -/
def execHdrFlags (b : Byte) (s : State) : Out :=
  need s 1 s fun s =>
    match headerStateOf (versionBits b) with
    | some x => .next (goto x (latchByte0 b s))
    | none => .next (raise (.unsupportedVersion (versionBits b)) s)

/-- HDR.UNSUP (R101). No byte after byte 0 is needed, and its bits 4:0 play no part. -/
def execHdrUnsup (v : BitVec 3) (_low : BitVec 5) (s : State) : Out :=
  .next (raise (.unsupportedVersion v) s)

/-- A write of header registers of the Message (R18). -/
def putMsg (f : Msg → Msg) (s : State) : State := { s with msg := f s.msg }

/-- `lenfld <- l` and `MSG.msg_len <- l` (R102, R103, R105). -/
def latchMsgLen (l : BitVec 16) (s : State) : State :=
  putMsg (fun m => { m with msgLen := l }) { s with lenfld := l }

/-- `word <- w` (R103, R105). -/
def latchWord (w : BitVec 32) (s : State) : State := { s with word := w }

/-- `last <- b` (R103, R104). -/
def latchLast (b : Byte) (s : State) : State := { s with last := b }

/-- The lines of HDR.V0 after the protocol-type test (R102). -/
def headerV0Fields (p : Params) (flags : Byte) (s₀ s : State) : Out :=
  takeField s₀ 1 s fun t s =>
  takeField s₀ 2 (putMsg (fun m => { m with msgType := BitVec.ofNat 8 t }) s) fun l s =>
  takeField s₀ 2 (latchMsgLen (BitVec.ofNat 16 l) s) fun q s =>
  skipField s₀ 2 (putMsg (fun m => { m with seq := BitVec.ofNat 16 q, seqValid := true }) s) fun s =>
  skipField s₀ (if sndcpSet p flags then p.v0SndcpBytes else 0)
    (putMsg (fun m => { m with sndcp := sndcpSet p flags }) s) fun s =>
  skipField s₀ 4 s fun s =>
  takeField s₀ 8 s fun i s =>
  .next (goto .hEnd (putMsg (fun m => { m with tid := BitVec.ofNat 64 i, tidValid := true }) s))

/-- HDR.V0 over the parameters (R102). -/
def headerV0 (p : Params) (flags : Byte) (s : State) : Out :=
  if ptSet p flags then headerV0Fields p flags s s else .next (raise .notGtp s)

/-- HDR.V0 (R102). -/
def execHdrV0 (low : BitVec 5) (s : State) : Out :=
  headerV0 Config.params (headerByte 0 low) s

/-- The reserved/N-PDU pair: the second byte is the first marker (R103). -/
def headerV1Pair (s₀ s : State) : Out :=
  need s₀ 2 s fun s => readBuf (s.pc.toNat + 1) 1 s fun m =>
  .next (goto .h1Ext (advance 2 (latchLast (BitVec.ofNat 8 m) s)))

/-- The conditional sequence number, then the pair (R103). -/
def headerV1Seq (p : Params) (flags : Byte) (s₀ s : State) : Out :=
  if seqSet p flags then
    takeField s₀ 2 s fun q s =>
      headerV1Pair s₀ (putMsg (fun m => { m with seq := BitVec.ofNat 16 q, seqValid := true }) s)
  else headerV1Pair s₀ s

/-- The lines of HDR.V1 after the protocol-type test (R103). -/
def headerV1Fields (p : Params) (flags : Byte) (s₀ s : State) : Out :=
  takeField s₀ 1 s fun t s =>
  takeField s₀ 2 (putMsg (fun m => { m with msgType := BitVec.ofNat 8 t }) s) fun l s =>
  takeField s₀ 4 (latchMsgLen (BitVec.ofNat 16 l) s) fun w s =>
  headerV1Seq p flags s₀ (latchWord (BitVec.ofNat 32 w)
    (putMsg (fun m => { m with teid := BitVec.ofNat 32 w, teidValid := true }) s))

/-- HDR.V1 over the parameters (R103). -/
def headerV1 (p : Params) (flags : Byte) (s : State) : Out :=
  if ptSet p flags then headerV1Fields p flags s s else .next (raise .notGtp s)

/-- HDR.V1 (R103). -/
def execHdrV1 (low : BitVec 5) (s : State) : Out :=
  headerV1 Config.params (headerByte 1 low) s

/-- One turn of the extension-header walk, over the parameters (R104). -/
def headerV1Ext (p : Params) (marker : Byte) (s : State) : Out :=
  if marker = p.extMarker then
    need s p.extStride s fun s => readBuf (s.pc.toNat + (p.extStride - 1)) 1 s fun m =>
    .next (goto .h1Ext (advance p.extStride (latchLast (BitVec.ofNat 8 m) s)))
  else .next (goto .hEnd s)

/-- HDR.V1.EXT (R104). -/
def execHdrV1Ext (marker : Byte) (s : State) : Out := headerV1Ext Config.params marker s

/-- The unconditional secondary field W, whose top 24 bits become `teid` (R105). -/
def headerV2Secondary (s₀ s : State) : Out :=
  takeField s₀ 4 s fun w s =>
  .next (goto .hEnd (latchWord (BitVec.ofNat 32 w)
    (putMsg (fun m => { m with teid := teidOfWord (BitVec.ofNat 32 w), teidValid := true }) s)))

/-- The conditional tunnel endpoint id, overwritten by what follows (R105). -/
def headerV2Teid (p : Params) (flags : Byte) (s₀ s : State) : Out :=
  if teidSet p flags then
    takeField s₀ 4 s fun w s =>
      headerV2Secondary s₀ (latchWord (BitVec.ofNat 32 w)
        (putMsg (fun m => { m with teid := BitVec.ofNat 32 w }) s))
  else headerV2Secondary s₀ s

/-- The strict framing check of version 2: `buf_len` = `pc + L` (R105, R224). -/
def headerV2Framed (p : Params) (flags : Byte) (l : Nat) (s₀ s : State) : Out :=
  if s.bufLen.toNat = s.pc.toNat + l then headerV2Teid p flags s₀ s
  else .next (raise .lengthMismatch s₀)

/-- HDR.V2 over the parameters: the framing check stands between the length field and the tunnel
endpoint id (R105). -/
def headerV2 (p : Params) (flags : Byte) (s₀ : State) : Out :=
  takeField s₀ 1 s₀ fun t s =>
  takeField s₀ 2 (putMsg (fun m => { m with msgType := BitVec.ofNat 8 t }) s) fun l s =>
  headerV2Framed p flags l s₀ (latchMsgLen (BitVec.ofNat 16 l) s)

/-- HDR.V2 (R105). -/
def execHdrV2 (low : BitVec 5) (s : State) : Out :=
  headerV2 Config.params (headerByte 2 low) s

/-- The register writes of HDR.END, from a byte 0 whose version is `v` (R106). -/
def fixHeader (v : BitVec 2) (flags : Byte) (s : State) : State :=
  { s with ieOff := s.pc, body.variant := v
           msg := { s.msg with ieOff := s.pc, version := v, flags := flags } }

/-- HDR.END (R106); its operand is the flags register, whose bits 7:5 are `ver` (log entry 19). -/
def execHdrEnd (v : BitVec 3) (low : BitVec 5) (s : State) : Out :=
  .next (goto .bFetch (fixHeader (v.setWidth 2) (headerByte v low) s))

end Sys2Proof.Machine
end

