-- ==== Sys2Proof/Machine/HostCmd.lean ====
section
/-! DEFINITION. The host commands, `45_host_commands.md` R200 to R206. Every command writes
`cmd_result`; a refused one changes nothing else. -/

namespace Sys2Proof.Machine

/-- `cmd_result <- r` and nothing else. -/
def reply (r : CmdResult) (s : State) : State := { s with cmdResult := r }

/-- The whole registry from `INIT_REGISTRY`, and `init_done` (R201). -/
def loadRegistry (s : State) : State := { s with reg := initRegistryCells, initDone := true }

/-- INIT (R201). -/
def execInit (s : State) : Out :=
  if busy s || s.initDone then .next (reply .initFail s)
  else .next (reply .initOk (loadRegistry s))

/-- The four causes of Error (R202, D18). -/
def registerRefused (s : State) : Bool :=
  busy s || !s.initDone || s.cmdArg.version == 3 || s.cmdArg.decId == 0

/-- REGISTER (R202), with the operands CMD_ARG holds now (R264). -/
def execRegister (s : State) : Out :=
  if registerRefused s then .next (reply .error s)
  else
    let v := s.cmdArg.version.toNat
    let t := s.cmdArg.tag
    .next (reply (if (regGet s v t).valid then .replaced else .added)
      (regPut v t { valid := true, decId := s.cmdArg.decId } s))

/-- DECODE (R203). -/
def execDecode (s : State) : Out :=
  if busy s || !s.initDone then .next (reply .refused s) else .next (startDecode s)

/-- CMD.ILLEGAL (R206): refused in any state, whatever the code. -/
def execCmdIllegal (_op : BitVec 4) (s : State) : Out := .next (reply .refused s)

end Sys2Proof.Machine
end

