-- ==== Sys2Proof/Machine/Frame.lean ====
section
/-! DEFINITION. The primitive field readers and the TV and TLV frame primitives,
`43_frame_primitives.md` R160 to R171: pure functions of a sub-buffer, whose length is `rem`. As
operations they deliver their answer on the block's answer lines (log entry 8). -/

namespace Sys2Proof.Machine

/-- Deliver an answer to the caller of a unit. -/
def answer (a : UnitAns) (s : State) : State := { s with ans := a }

/-! ### Field readers -/

/-- RD.U8 (R160). The caller's guard has put the byte in bounds. -/
def execRdU8 (v : BitVec 8) (s : State) : Out := .next (answer (.field (v.setWidth 64)) s)

/-- RD.BE16 (R161). -/
def execRdBe16 (v : BitVec 16) (s : State) : Out := .next (answer (.field (v.setWidth 64)) s)

/-- RD.BE32 (R162). -/
def execRdBe32 (v : BitVec 32) (s : State) : Out := .next (answer (.field (v.setWidth 64)) s)

/-- RD.BE64 (R163). -/
def execRdBe64 (v : BitVec 64) (s : State) : Out := .next (answer (.field v) s)

/-! ### Matching primitives -/

/-- The bounds failure of every primitive (R169). -/
def boundsFailure : FrameAns := .malformed Config.reasonBounds

/-- TV (R164), the tag before the bounds (R171). -/
def tvFrame (sub : List Byte) (expected : Byte) (n : Nat) : FrameAns :=
  match sub with
  | [] => boundsFailure
  | t :: rest =>
    if t ≠ expected then .notMatched
    else if sub.length < tvSize n then boundsFailure
    else .matched (tvSize n) none none (rest.take n)

/-- TLV01 (R165). -/
def tlv01Frame (sub : List Byte) (expected : Byte) : FrameAns :=
  match sub with
  | [] => boundsFailure
  | t :: rest =>
    if t ≠ expected then .notMatched
    else match rest with
      | hi :: lo :: value =>
        let len := be16 hi lo
        if sub.length < tlv01Size len.toNat then boundsFailure
        else .matched (tlv01Size len.toNat) (some len) none (value.take len.toNat)
      | _ => boundsFailure

/-- TLV2 (R166); the instance byte is delivered whole (D33). -/
def tlv2Frame (sub : List Byte) (expected : Byte) : FrameAns :=
  match sub with
  | [] => boundsFailure
  | t :: rest =>
    if t ≠ expected then .notMatched
    else match rest with
      | hi :: lo :: instAndValue =>
        let len := be16 hi lo
        if sub.length < tlv2Size len.toNat then boundsFailure
        else .matched (tlv2Size len.toNat) (some len) instAndValue.head?
          (instAndValue.tail.take len.toNat)
      | _ => boundsFailure

/-! ### Generic skips -/

/-- The length field of a frame, if it fits (R167, R168). -/
def lengthField : List Byte → Option (BitVec 16)
  | _ :: hi :: lo :: _ => some (be16 hi lo)
  | _ => none

/-- A generic skip with the frame size as a function of the length. -/
def skipFrame (size : Nat → Nat) (sub : List Byte) : FrameAns :=
  match lengthField sub with
  | none => boundsFailure
  | some len =>
    if sub.length < size len.toNat then boundsFailure
    else .matched (size len.toNat) none none []

/-- SKIP01 (R167). -/
def skip01Frame (sub : List Byte) : FrameAns := skipFrame tlv01Size sub

/-- SKIP2 (R168). -/
def skip2Frame (sub : List Byte) : FrameAns := skipFrame tlv2Size sub

/-- `lenfld <- L` of a generic skip at the cursor (R167, R168). -/
def latchLength (len : BitVec 16) (s : State) : State := { s with lenfld := len }

/-! ### The primitives as operations -/

/-- TV (R164). -/
def execTv (sub : List Byte) (expected : Byte) (n : BitVec 16) (s : State) : Out :=
  .next (answer (.frame (tvFrame sub expected n.toNat)) s)

/-- TLV01 (R165). -/
def execTlv01 (sub : List Byte) (expected : Byte) (s : State) : Out :=
  .next (answer (.frame (tlv01Frame sub expected)) s)

/-- TLV2 (R166). -/
def execTlv2 (sub : List Byte) (expected : Byte) (s : State) : Out :=
  .next (answer (.frame (tlv2Frame sub expected)) s)

/-- `lenfld <- L` of a skip called as an operation. While a leaf invocation is outstanding the caller is
a leaf decoder, for which the skip is a pure function (R48) and which writes no working register (R11);
else it is the parser (log entry 8). -/
def latchForParser (sub : List Byte) (s : State) : State :=
  { s with lenfld := if s.leafReq.isSome then s.lenfld else (lengthField sub).getD s.lenfld }

/-- SKIP01 (R167). -/
def execSkip01 (sub : List Byte) (s : State) : Out :=
  .next (answer (.frame (skip01Frame sub)) (latchForParser sub s))

/-- SKIP2 (R168). -/
def execSkip2 (sub : List Byte) (s : State) : Out :=
  .next (answer (.frame (skip2Frame sub)) (latchForParser sub s))

end Sys2Proof.Machine
end

