-- ==== Sys2Proof/Machine/Codec.lean ====
section
/-! DEFINITION. The BCD codec and the MCC/MNC/LAC composite, `44_bcd_codec.md` R180 to R186. -/

namespace Sys2Proof.Machine

/-- NibbleChar (R181): the character of a nibble, or none for Invalid. -/
def nibbleChar (p : Params) (nib : BitVec 4) : Option Byte :=
  if nib.toNat ≤ 9 then some (BitVec.ofNat 8 (0x30 + nib.toNat))
  else if nib = 0xA then some 0x2A
  else if nib = 0xB then some 0x23
  else p.bcdOther nib

/-- The nibbles of a byte string, low nibble first (R42, R180). -/
def nibbles (src : List Byte) : List (BitVec 4) :=
  src.flatMap fun b => [lowNibble b, highNibble b]

/-- The number of digits: one fewer where the last high nibble is the stop marker (R182). -/
def bcdCount (src : List Byte) : Nat :=
  match src.getLast? with
  | some b => if highNibble b = 0xF then 2 * src.length - 1 else 2 * src.length
  | none => 0

/-- The characters of nibbles, if none is Invalid. -/
def nibbleChars (p : Params) : List (BitVec 4) → Option (List Byte)
  | [] => some []
  | x :: r =>
    match nibbleChar p x, nibbleChars p r with
    | some c, some cs => some (c :: cs)
    | _, _ => none

/-- BcdDecode (R180, R183); `n` is the length of `src`. -/
def bcdDecode (p : Params) (src : List Byte) (cap : Nat) : BcdAns :=
  if src.length = 0 ∨ cap < 2 * src.length then .reject
  else
    match nibbleChars p ((nibbles src).take (bcdCount src)) with
    | some digits => .ok src.length (bcdCount src) digits
    | none => .reject

/-- PlmnLac on the five bytes of R70. -/
def plmnFive (p : Params) (b0 b1 b2 b3 b4 : Byte) : PlmnAns :=
  let flag := highNibble b1
  let mcc := [lowNibble b0, highNibble b0, lowNibble b1]
  let mnc := [lowNibble b2, highNibble b2] ++ if flag = 0xF then [] else [flag]
  match nibbleChars p mcc, nibbleChars p mnc with
  | some mcc, some mnc => .ok 5 mcc mnc (be16 b3 b4)
  | _, _ => .malformed Config.reasonBcd

/-- PlmnLac (R184); `avail` is the length of `src`. -/
def plmnLac (p : Params) (src : List Byte) : PlmnAns :=
  match src with
  | b0 :: b1 :: b2 :: b3 :: b4 :: _ => plmnFive p b0 b1 b2 b3 b4
  | _ => .malformed Config.reasonBounds

/-- BCD.DEC over the parameters (R180). -/
def runBcdDec (p : Params) (src : List Byte) (cap : Nat) (s : State) : Out :=
  .next (answer (.bcd (bcdDecode p src cap)) s)

/-- BCD.DEC (R180). -/
def execBcdDec (src : List Byte) (cap : Nat) (s : State) : Out := runBcdDec Config.params src cap s

/-- PLMN.LAC over the parameters (R184). -/
def runPlmnLac (p : Params) (src : List Byte) (s : State) : Out :=
  .next (answer (.plmn (plmnLac p src)) s)

/-- PLMN.LAC (R184). -/
def execPlmnLac (src : List Byte) (s : State) : Out := runPlmnLac Config.params src s

/-! ### The codec as a byte-serial unit (R185) -/

/-- What a byte-serial codec holds back until the reject conditions are known (R185): the characters
so far, or none once a nibble was Invalid. -/
structure BcdSerial where
  bytesIn : Nat
  held : Option (List Byte)
  deriving DecidableEq, Repr

/-- One input byte: up to two characters, low nibble first; `final` says it is the last byte, whose high
nibble may be the stop marker (R182, R185). -/
def bcdSerialStep (p : Params) (final : Bool) (b : Byte) (u : BcdSerial) : BcdSerial :=
  let here := if final && highNibble b == 0xF then [lowNibble b] else [lowNibble b, highNibble b]
  { bytesIn := u.bytesIn + 1
    held := match u.held, nibbleChars p here with
      | some cs, some new => some (cs ++ new)
      | _, _ => none }

/-- The whole string, one byte a step. -/
def bcdSerialRun (p : Params) : List Byte → BcdSerial → BcdSerial
  | [], u => u
  | b :: r, u => bcdSerialRun p r (bcdSerialStep p r.isEmpty b u)

/-- The byte-serial unit's answer: the characters are delivered only at the end (R185). -/
def bcdSerial (p : Params) (src : List Byte) (cap : Nat) : BcdAns :=
  if src.length = 0 ∨ cap < 2 * src.length then .reject
  else
    match bcdSerialRun p src { bytesIn := 0, held := some [] } with
    | { bytesIn := n, held := some cs } => .ok n cs.length cs
    | _ => .reject

/-! ### The reference encoder of the round-trip property (R186), not hardware -/

/-- The nibble of a digit character, `'0'` .. `'9'`, `'*'` or `'#'` (R186). -/
def nibbleOfChar (c : Byte) : BitVec 4 :=
  if c = 0x2A then 0xA else if c = 0x23 then 0xB else BitVec.ofNat 4 (c.toNat - 0x30)

/-- The reference encoder of R186: low nibble first, filler 0xF at the end of an odd string. -/
def bcdEncode : List Byte → List Byte
  | [] => []
  | [c] => [(0xF : BitVec 4) ++ nibbleOfChar c]
  | c :: d :: r => (nibbleOfChar d ++ nibbleOfChar c) :: bcdEncode r

end Sys2Proof.Machine
end

