-- ==== Sys2Proof/Machine/Leaf.lean ====
section
/-! DEFINITION. The leaf decoders as the parser sees them, `42_dispatch_loop.md` R137, R145, R146: one
total pure function, free but for the reference IMSI decoder. -/

namespace Sys2Proof.Machine

/-- The capacity of the IMSI field in characters (R145, D24). -/
def imsiCapacity : Nat := 16

/-- The number of BCD bytes of the IMSI IE (R145). -/
def imsiBytes : Nat := 8

/-- What a decoder makes of the value of a matched frame: the fields it writes, or the reason of a
Malformed answer. -/
inductive Interpreted where
  | writes (ws : List (Byte × Field))
  | malformed (reason : Byte)
  deriving DecidableEq, Repr

/-- A leaf decoder over the answer of a frame primitive (R146): NotMatched and Malformed pass through,
a matched frame is interpreted, its instance byte available where the form has one, and a failed
interpretation writes nothing. -/
def shaped (interpret : Option Byte → List Byte → Interpreted) : FrameAns → LeafRsp × List (Byte × Field)
  | .notMatched => (leafRspOf .notMatched, [])
  | .malformed x => (leafRspOf (.malformed x), [])
  | .matched n _ inst value =>
    match interpret inst value with
    | .writes ws => (leafRspOf (.matched n), ws)
    | .malformed x => (leafRspOf (.malformed x), [])

/-- A TV-shaped leaf decoder for tag `T` with value length `N` (R146). -/
def tvShaped (expected : Byte) (n : Nat) (interpret : List Byte → Interpreted) (sub : List Byte) :
    LeafRsp × List (Byte × Field) :=
  shaped (fun _ value => interpret value) (tvFrame sub expected n)

/-- A TLV-shaped leaf decoder for tag `T`: TLV2 in version 2, with the instance byte, else TLV01
(R146). -/
def tlvShaped (v : BitVec 2) (expected : Byte) (interpret : Option Byte → List Byte → Interpreted)
    (sub : List Byte) : LeafRsp × List (Byte × Field) :=
  shaped interpret (if v = 2 then tlv2Frame sub expected else tlv01Frame sub expected)

/-- The IMSI value: its digit string goes to `F_IMSI`, a codec reject is Malformed(0x02) (R145). -/
def imsiValue (p : Params) (value : List Byte) : Interpreted :=
  match bcdDecode p value imsiCapacity with
  | .reject => .malformed Config.reasonBcd
  | .ok _ count digits =>
    .writes [(Config.fImsi, { present := true, len := count, data := digits })]

/-- The reference IMSI decoder, TV with tag 0x02 and N = 8 (R145). -/
def leafImsi (p : Params) (sub : List Byte) : LeafRsp × List (Byte × Field) :=
  tvShaped 0x02 imsiBytes (imsiValue p) sub

/-- `Leaf(d, v, sub, rem, body)` (R137) over the parameters: the answer on the port and the fields
written. -/
def leafWith (p : Params) (d : DecId) (v : BitVec 2) (sub : List Byte) (rem : Nat) (body : Body) :
    LeafRsp × List (Byte × Field) :=
  if d = Config.decImsi then leafImsi p sub else Config.leafOpen d v sub rem body

/-- `Leaf` at the defaults of R5. -/
def leaf (d : DecId) (v : BitVec 2) (sub : List Byte) (rem : Nat) (body : Body) :
    LeafRsp × List (Byte × Field) :=
  leafWith Config.params d v sub rem body

/-- LEAF.IMSI over the parameters (R145): the BODY write, and the answer on the port. -/
def runLeafImsi (p : Params) (sub : List Byte) (s : State) : Out :=
  let r := leafImsi p sub
  .next (answer (.leaf r.1) (writeFields r.2 s))

/-- LEAF.IMSI (R145). -/
def execLeafImsi (sub : List Byte) (s : State) : Out := runLeafImsi Config.params sub s

end Sys2Proof.Machine
end

