-- ==== Sys2Proof/Machine/Loop.lean ====
section
/-! DEFINITION. The body dispatch loop, `42_dispatch_loop.md` R131 to R141. -/

namespace Sys2Proof.Machine

/-- The request of the leaf decoder port for a tag at the cursor (R73, R132). -/
def leafRequest (t : Byte) (s : State) : LeafReq :=
  { decId := (regGet s s.ver.toNat t).decId, ver := s.ver.setWidth 2, tag := t, pc := s.pc,
    rem := BitVec.ofNat Config.lenW (remBytes s) }

/-- `tag <- t` (R131). -/
def latchTag (t : Byte) (s : State) : State := { s with tag := t }

/-- A request put on the leaf decoder port (R24). -/
def postRequest (q : LeafReq) (s : State) : State := { s with leafReq := some q }

/-- The request taken off the port, its answer having come (R24, R132). -/
def dropRequest (s : State) : State := { s with leafReq := none }

/-- IE.FETCH (R131, R141): at the end of the body, success; else the tag is latched and looked up in
the bank of the detected version. A registered decoder's request is put on the port (R15, R24). -/
def execIeFetch (t : Byte) (s : State) : Out :=
  if s.pc = s.bufLen then .next (finishSuccess s)
  else if s.bufLen.toNat < s.pc.toNat then .fault (.undefinedRead s.pc.toNat)
  else if (regGet s s.ver.toNat t).valid then
    .next (goto .bCall (postRequest (leafRequest t s) (latchTag t s)))
  else .next (goto .bFallback (latchTag t s))

/-- What the parser does with the answer (R133, R134, R135). -/
def leafAnswered (t : Byte) (a : LeafAns) (s : State) : State :=
  match a with
  | .matched n =>
    if n = 0 ∨ remBytes s < n then raise (.ieDecodeError t (bodyIdx s) Config.reasonCount) s
    else goto .bFetch (advance n s)
  | .notMatched => goto .bFallback s
  | .malformed r => raise (.ieDecodeError t (bodyIdx s) r) s

/-- What the leaf decoder answers and writes, for a tag at the cursor (R132). -/
def leafOutcome (p : Params) (t : Byte) (s : State) : LeafRsp × List (Byte × Field) :=
  leafWith p (leafRequest t s).decId (leafRequest t s).ver (subBuf s s.pc.toNat) (remBytes s) s.body

/-- IE.CALL over the parameters (R132): request and answer in one step. The parser does not undo BODY
writes (R134). -/
def callLeaf (p : Params) (t : Byte) (s : State) : Out :=
  .next (leafAnswered t (leafAnsOf (leafOutcome p t s).1)
    (dropRequest (writeFields (leafOutcome p t s).2 s)))

/-- IE.CALL (R132). -/
def execIeCall (t : Byte) (s : State) : Out := callLeaf Config.params t s

/-- A generic skip of the frame at the cursor, with the frame size as a function of the length: the
primitive of R167 or R168 on the sub-buffer, of which the core reads the two length bytes only
(R266 (4)). Its only failure is Truncated (R138, R139). -/
def skipIe (size : Nat → Nat) (t : Byte) (s : State) : Out :=
  if remBytes s < 3 then .next (raise (.truncatedIe t (bodyIdx s)) s)
  else readBuf (s.pc.toNat + 1) 2 s fun l =>
    if remBytes s < size l then .next (raise (.truncatedIe t (bodyIdx s)) s)
    else .next (goto .bFetch (advance (size l) (latchLength (BitVec.ofNat 16 l) s)))

/-- IE.SKIP01 (R138). -/
def execIeSkip01 (low : BitVec 7) (s : State) : Out := skipIe tlv01Size (tagByte true low) s

/-- IE.SKIP2 (R139). -/
def execIeSkip2 (t : Byte) (s : State) : Out := skipIe tlv2Size t s

/-- IE.STOP (R140). -/
def execIeStop (low : BitVec 7) (s : State) : Out :=
  .next (raise (.bodyIncomplete (tagByte false low) (bodyIdx s)) s)

end Sys2Proof.Machine
end

