-- ==== Sys2Proof/Machine/Dispatch.lean ====
section
/-! DEFINITION. The meaning of every operation: one arm per constructor. -/

namespace Sys2Proof.Machine

def exec (i : Instr) (s : State) : Host.Outcome State Fault Refusal :=
  match i with
  | .initCmd => Sys2Proof.Machine.execInit s
  | .registerCmd => Sys2Proof.Machine.execRegister s
  | .decodeCmd => Sys2Proof.Machine.execDecode s
  | .cmdIllegal op => Sys2Proof.Machine.execCmdIllegal op s
  | .hdrFlags b => Sys2Proof.Machine.execHdrFlags b s
  | .hdrUnsup v low => Sys2Proof.Machine.execHdrUnsup v low s
  | .hdrV0 low => Sys2Proof.Machine.execHdrV0 low s
  | .hdrV1 low => Sys2Proof.Machine.execHdrV1 low s
  | .hdrV1Ext m => Sys2Proof.Machine.execHdrV1Ext m s
  | .hdrV2 low => Sys2Proof.Machine.execHdrV2 low s
  | .hdrEnd v low => Sys2Proof.Machine.execHdrEnd v low s
  | .ieFetch t => Sys2Proof.Machine.execIeFetch t s
  | .ieCall t => Sys2Proof.Machine.execIeCall t s
  | .ieSkip01 low => Sys2Proof.Machine.execIeSkip01 low s
  | .ieSkip2 t => Sys2Proof.Machine.execIeSkip2 t s
  | .ieStop low => Sys2Proof.Machine.execIeStop low s
  | .rdU8 v => Sys2Proof.Machine.execRdU8 v s
  | .rdBe16 v => Sys2Proof.Machine.execRdBe16 v s
  | .rdBe32 v => Sys2Proof.Machine.execRdBe32 v s
  | .rdBe64 v => Sys2Proof.Machine.execRdBe64 v s
  | .tv sub e n => Sys2Proof.Machine.execTv sub e n s
  | .tlv01 sub e => Sys2Proof.Machine.execTlv01 sub e s
  | .tlv2 sub e => Sys2Proof.Machine.execTlv2 sub e s
  | .skip01 sub => Sys2Proof.Machine.execSkip01 sub s
  | .skip2 sub => Sys2Proof.Machine.execSkip2 sub s
  | .bcdDec src cap => Sys2Proof.Machine.execBcdDec src cap s
  | .plmnLac src => Sys2Proof.Machine.execPlmnLac src s
  | .leafImsi sub => Sys2Proof.Machine.execLeafImsi sub s

end Sys2Proof.Machine
end

