-- ==== Sys2Proof/Machine/HostPort.lean ====
section
/-! DEFINITION. The host's register window and the accesses that are no commands,
`10_state.md` R20 to R23, `45_host_commands.md` R204, R205, R207, and reset,
`70_reset_and_hazards.md` R250, R251. -/

namespace Sys2Proof.Machine

/-! ### Codes (R74) -/

/-- `result`. -/
def resultCode : Result → BitVec 2
  | .none => 0
  | .success => 1
  | .headerError => 2
  | .bodyIncomplete => 3

/-- `err_code`. -/
def errCodeBits : ErrCode → BitVec 3
  | .none => 0
  | .unsupportedVersion => 1
  | .notGtp => 2
  | .truncated => 3
  | .lengthMismatch => 4
  | .ieDecodeError => 5
  | .bodyIncomplete => 6

/-- `err_phase`. -/
def phaseBit : Phase → BitVec 1
  | .header => 0
  | .body => 1

/-- `cmd_result`. -/
def cmdResultCode : CmdResult → BitVec 3
  | .none => 0
  | .initOk => 1
  | .initFail => 2
  | .added => 3
  | .replaced => 4
  | .error => 5
  | .decodeStarted => 6
  | .refused => 7

/-! ### Register images (R20, R23) -/

/-- A field at a bit position of a 32-bit register. -/
def place {w : Nat} (lo : Nat) (v : BitVec w) : BitVec 32 := v.setWidth 32 <<< lo

/-- STATUS (R20). -/
def statusImage (s : State) : BitVec 32 :=
  place 0 (runBits s) ||| place 2 (bit s.initDone) ||| place 3 (bit s.msgValid) |||
    place 4 (resultCode s.result) ||| place 6 (bit s.viol)

/-- CMD_ARG. -/
def cmdArgImage (a : CmdArg) : BitVec 32 :=
  place 0 a.version ||| place 8 a.tag ||| place 16 a.decId

/-- ERR (R22, R23). -/
def errImage (e : ErrRegs) : BitVec 32 :=
  place 0 (errCodeBits e.code) ||| place 3 (phaseBit e.phase) ||| place 4 e.ver |||
    place 8 e.tag ||| place 16 e.reason

/-- MSG_HDR. -/
def msgHdrImage (m : Msg) : BitVec 32 :=
  place 0 m.version ||| place 8 m.flags ||| place 16 m.msgType ||| place 24 (bit m.sndcp) |||
    place 25 (bit m.seqValid) ||| place 26 (bit m.teidValid) ||| place 27 (bit m.tidValid)

/-- MSG_LEN_SEQ. -/
def msgLenSeqImage (m : Msg) : BitVec 32 := place 0 m.msgLen ||| place 16 m.seq

/-- A read of the register window at a byte offset (R23): CMD and unlisted offsets read 0. -/
def regImage (s : State) (off : Off) : BitVec 32 :=
  if off = 0x00004 then cmdArgImage s.cmdArg
  else if off = 0x00008 then place 0 (cmdResultCode s.cmdResult)
  else if off = 0x0000C then statusImage s
  else if off = 0x00010 then place 0 s.bufLen
  else if off = 0x00014 then errImage s.err
  else if off = 0x00018 then place 0 s.err.off
  else if off = 0x00020 then msgHdrImage s.msg
  else if off = 0x00024 then msgLenSeqImage s.msg
  else if off = 0x00028 then s.msg.teid
  else if off = 0x0002C then s.msg.tid.extractLsb' 32 32
  else if off = 0x00030 then s.msg.tid.extractLsb' 0 32
  else if off = 0x00034 then place 0 s.msg.ieOff
  else 0

/-- The offset of CMD (R23). -/
def cmdOffset : Off := 0x00000

/-! ### Accesses that are no commands -/

/-- A write ignored because the block is BUSY sets the sticky bit (R207). -/
def violate (s : State) : State := { s with viol := true }

/-- A write of the register window other than to CMD (R23, R207): CMD_ARG always, BUF_LEN while not
BUSY; every other offset ignores it. -/
def hostRegWrite (off : Off) (v : BitVec 32) (s : State) : State :=
  if off = 0x00004 then { s with cmdArg := cmdArgOf v }
  else if off = 0x00010 then
    (if busy s then violate s else { s with bufLen := v.extractLsb' 0 Config.lenW })
  else s

/-- A byte write of the BUF window (R204, R207). -/
def hostBufWrite (a : Off) (v : Byte) (s : State) : State :=
  if busy s then violate s else bufPut a v s

/-- A host access (R23, R48); a write to CMD is executed by `exec` instead and changes nothing here. -/
def hostAccess (a : HostAccess) (s : State) : State :=
  match a with
  | .regWrite off v => hostRegWrite off v s
  | .regRead off => { s with rdata := regImage s off }
  | .bufWrite a v => hostBufWrite a v s
  | .bufRead a => { s with rdata := (bufByte s a.toNat).setWidth 32 }
  | .bodyRead f => { s with bodyData := bodyGet s.body f }

/-- A clock edge with `rst` = 1 (R250, R251): every value of R26, whatever the state, and any access at
that edge is ignored, a read returning 0. BUF is unspecified afresh. What is still to come at the pins
is not the block's to forget. -/
def resetEdge (s : State) : State :=
  { State.reset with epoch := s.epoch + 1, inputs := s.inputs }

end Sys2Proof.Machine
end

