-- ==== Sys2Proof/Machine/Edges.lean ====
section
/-! DEFINITION. What one step does with the next input: which word the selected unit reads, and the
execution of the operation it decodes to. -/

namespace Sys2Proof.Machine

/-- The meaning of an operation on a block with the parameters `p` (R5): `exec` is the block at the
defaults, `execWith Config.params`. -/
def execWith (p : Params) (i : Instr) (s : State) : Out :=
  match i with
  | .initCmd => execInit s
  | .registerCmd => execRegister s
  | .decodeCmd => execDecode s
  | .cmdIllegal op => execCmdIllegal op s
  | .hdrFlags b => execHdrFlags b s
  | .hdrUnsup v low => execHdrUnsup v low s
  | .hdrV0 low => headerV0 p (headerByte 0 low) s
  | .hdrV1 low => headerV1 p (headerByte 1 low) s
  | .hdrV1Ext m => headerV1Ext p m s
  | .hdrV2 low => headerV2 p (headerByte 2 low) s
  | .hdrEnd v low => execHdrEnd v low s
  | .ieFetch t => execIeFetch t s
  | .ieCall t => callLeaf p t s
  | .ieSkip01 low => execIeSkip01 low s
  | .ieSkip2 t => execIeSkip2 t s
  | .ieStop low => execIeStop low s
  | .rdU8 v => execRdU8 v s
  | .rdBe16 v => execRdBe16 v s
  | .rdBe32 v => execRdBe32 v s
  | .rdBe64 v => execRdBe64 v s
  | .tv sub e n => execTv sub e n s
  | .tlv01 sub e => execTlv01 sub e s
  | .tlv2 sub e => execTlv2 sub e s
  | .skip01 sub => execSkip01 sub s
  | .skip2 sub => execSkip2 sub s
  | .bcdDec src cap => runBcdDec p src cap s
  | .plmnLac src => runPlmnLac p src s
  | .leafImsi sub => runLeafImsi p sub s

/-- Decode a word for a unit and execute it. -/
def runWord (p : Params) (c : Sel) (w : RawWord) (s : State) : Out :=
  match decode c w with
  | .ok i => execWith p i s
  | .reject why => .refused (.noSuchWord why)

/-- The byte at an offset, for an operation that tests the bounds before it looks at its operand: 0
stands for no byte beyond `buf_len`, and nothing is read (D34, log entry 11). -/
def wordAt (s : State) (a : Nat) : Byte := if a < s.bufLen.toNat then bufByte s a else 0

/-- The unit the sequencer selects and the byte it reads (R15, R76, R136): byte 0 and the tag from BUF,
the others from the register that holds it. Nothing in IDLE and DONE (R240). -/
def parserFetch (s : State) : Option (Sel × Byte) :=
  match s.st with
  | .idle => none
  | .hFlags => some (.hFlags, wordAt s 0)
  | .h0 => some (.h0, s.flags)
  | .h1 => some (.h1, s.flags)
  | .h1Ext => some (.h1Ext, s.last)
  | .h2 => some (.h2, s.flags)
  | .hEnd => some (.hEnd, s.flags)
  | .bFetch => some (.bFetch, wordAt s s.pc.toNat)
  | .bCall => some (.bCall, s.tag)
  | .bFallback => some (if s.ver = 2 then .fallback2 else .fallback01, s.tag)
  | .done => none

/-- The parser's step; IDLE and DONE are quiescent (R240). -/
def parserEdge (p : Params) (s : State) : Out :=
  match parserFetch s with
  | none => .next s
  | some (c, b) => runWord p c (.bytes [b]) s

/-- A host access (R200): a write to CMD executes the command word, every other access its transaction. -/
def hostEdge (p : Params) (a : HostAccess) (s : State) : Out :=
  match a with
  | .regWrite off v => if off = cmdOffset then runWord p .cmd (.cmd v) s else .next (hostAccess a s)
  | _ => .next (hostAccess a s)

/-- A unit call's word: the unit, the bytes it reads of the sub-buffer, or none where the caller's guard
fails (R160 to R163) or no such request is outstanding. -/
inductive CallWord where
  | word (c : Sel) (l : List Byte)
  | outOfBounds
  | ignored
  deriving DecidableEq, Repr

/-- `n` bytes from the front of a byte string, under the caller's guard. -/
def guarded (c : Sel) (n : Nat) (l : List Byte) : CallWord :=
  if n ≤ l.length then .word c (l.take n) else .outOfBounds

/-- The word of a unit call, in the sub-buffer of the outstanding invocation (R45, R48). The composite
takes the caller's `avail`, cut to the sub-buffer, and the frame primitives all that is left of it: the
model's choice, log entry 8. -/
def callWord (q : LeafReq) (call : UnitCall) (s : State) : CallWord :=
  let sub (o : Off) : List Byte := subBuf s (s.pc.toNat + o.toNat)
  match call with
  | .rdU8 o => guarded .rdU8 1 (sub o)
  | .rdBe16 o => guarded .rdBe16 2 (sub o)
  | .rdBe32 o => guarded .rdBe32 4 (sub o)
  | .rdBe64 o => guarded .rdBe64 8 (sub o)
  | .tv o expected n => .word (.tv expected n) (sub o)
  | .tlv01 o expected => .word (.tlv01 expected) (sub o)
  | .tlv2 o expected => .word (.tlv2 expected) (sub o)
  | .skip01 o => .word .skip01 (sub o)
  | .skip2 o => .word .skip2 (sub o)
  | .bcdDec o n cap => guarded (.bcdDec cap) n (sub o)
  | .plmnLac o avail => .word .plmnLac ((sub o).take avail)
  | .leafImsi => if q.decId = Config.decImsi then .word .leafImsi (sub 0) else .ignored

/-- A leaf decoder's call of a unit: only while its invocation is outstanding (R24, R48). -/
def unitEdge (p : Params) (call : UnitCall) (s : State) : Out :=
  match s.leafReq with
  | none => .next s
  | some q =>
    match callWord q call s with
    | .word c l => runWord p c (.bytes l) s
    | .outOfBounds => .next (answer (.frame boundsFailure) s)
    | .ignored => .next s

/-- The leaf decoder's answer strobe: ignored when no request is outstanding (R251), else the parser
takes its step, whose answer is `Leaf`'s (R132, log entry 10). -/
def leafEdge (p : Params) (s : State) : Out :=
  match s.leafReq with
  | none => .next s
  | some _ => parserEdge p s

/-- One input at the pins. -/
def edge (p : Params) (i : Input) (s : State) : Out :=
  match i with
  | .clk => parserEdge p s
  | .host a => hostEdge p a s
  | .rst _ => .next (resetEdge s)
  | .unitCall c => unitEdge p c s
  | .leafAnswer => leafEdge p s

/-- What the next input is, and the state without it: with none listed, a clock edge. -/
def nextInput (s : State) : Input × State :=
  match s.inputs with
  | [] => (.clk, s)
  | i :: r => (i, { s with inputs := r })

/-- One step of a block with the parameters `p` (R5, R265). -/
def stepWith (p : Params) (s : State) : Out := edge p (nextInput s).1 (nextInput s).2

/-! ### Placing one operation -/

/-- A byte string from offset 0. -/
def storeBytes (s : State) (l : List Byte) : State :=
  { s with
    buf := (l.foldl (fun (m, a) b => (cellPut false m a b, a + 1)) (s.buf, 0)).1
    bufLen := BitVec.ofNat Config.lenW l.length }

/-- The block about to run a header state on byte 0 = `b`, as HDR.FLAGS leaves it. -/
def placeHeader (x : St) (b : Byte) (s : State) : State :=
  { latchByte0 b s with st := x, leafReq := none, inputs := .clk :: s.inputs }

/-- The block about to read byte 0. -/
def placeStart (s : State) : State :=
  { s with st := .hFlags, pc := 0, leafReq := none, inputs := .clk :: s.inputs }

/-- The block in the fallback of version 0 on the tag `b` at offset 0. -/
def placeFallback (b : Byte) (s : State) : State :=
  { s with st := .bFallback, ver := 0, tag := b, pc := 0, ieOff := 0, leafReq := none,
           inputs := .clk :: s.inputs }

/-- The block with an outstanding invocation of the reference decoder at offset 0, about to be called
by the leaf decoder. -/
def placeCall (call : UnitCall) (s : State) : State :=
  { s with
    st := .bCall, ver := 1, tag := wordAt s 0, pc := 0, ieOff := 0
    leafReq := some { decId := Config.decImsi, ver := 1, tag := wordAt s 0, pc := 0, rem := s.bufLen }
    inputs := .unitCall call :: s.inputs }

/-- The state in which the very next step reads the table word `w` of `nbits` bits (log entry 12). -/
def placeTableWord (s : State) (nbits w : Nat) : State :=
  let b : Byte := BitVec.ofNat 8 w
  let loaded := storeBytes s (leBytes longestFixed (w % 2 ^ nbits))
  match tableSel nbits w with
  | some .cmd => { s with inputs := .host (.regWrite cmdOffset (BitVec.ofNat 32 w)) :: s.inputs }
  | some .hFlags => placeStart loaded
  | some .h0 => placeHeader .h0 b loaded
  | some .h1 => placeHeader .h1 b loaded
  | some .h2 => placeHeader .h2 b loaded
  | some .fallback01 => placeFallback b loaded
  | some .rdBe16 => placeCall (.rdBe16 0) loaded
  | some .rdBe64 => placeCall (.rdBe64 0) loaded
  | some .skip01 => placeCall (.skip01 0) loaded
  | some .plmnLac => placeCall (.plmnLac 0 longestFixed) loaded
  | some .leafImsi => placeCall .leafImsi loaded
  | _ => s

end Sys2Proof.Machine
end

