-- ==== Sys2Proof/Machine/Step.lean ====
section
/-! DEFINITION. One step of the block: the next input, or a clock edge where none is listed. -/

namespace Sys2Proof.Machine

/-- One step (R265): a parser step, a host access, a reset edge or a leaf decoder's call, at the
defaults of R5. -/
def step (s : State) : Host.Outcome State Fault Refusal := stepWith Config.params s

/-- The state in which the very next step reads the table word `w` of `nbits` bits. -/
def State.withFetchWord (s : State) (nbits w : Nat) : State := placeTableWord s nbits w

end Sys2Proof.Machine
end

