-- ==== Sys2Proof/Machine/BigStep.lean ====
section
/-! DEFINITION. The decode as functions of the buffer: HeaderDecode (`41_header_fsm.md` R107), Body
(`42_dispatch_loop.md` R130) and Decode (`45_host_commands.md` R209). A second statement of what the
step machine computes, written from those three rules; that the two agree is stated as obligations. -/

namespace Sys2Proof.Machine

/-! ### HeaderDecode (R107) -/

/-- The outcome of HeaderDecode: an error with its offset and version, or the header registers. -/
inductive HeaderOut where
  | err (code : ErrCode) (off : Nat) (ver : BitVec 3)
  | ok (m : Msg)
  deriving DecidableEq, Repr

/-- The big-endian field of `n` bytes at an offset. -/
def fieldAt (b : List Byte) (off n : Nat) : Nat := beNat ((b.drop off).take n)

/-- The offset of the first field, of those given as (offset, bytes), that overruns the buffer. -/
def firstOverrun (len : Nat) (fields : List (Nat × Nat)) : Option Nat :=
  (fields.find? fun f => len < f.1 + f.2).map fun f => f.1

/-- The extension walk from an offset: where it ends, or where a chained header does not fit. -/
def extWalk (p : Params) (b : List Byte) : Nat → Nat → Except Nat Nat
  | 0, at_ => .error at_
  | fuel + 1, at_ =>
    if fieldAt b (at_ - 1) 1 = p.extMarker.toNat then
      if b.length < at_ + p.extStride then .error at_
      else extWalk p b fuel (at_ + p.extStride)
    else .ok at_

/-- Version 0 (R62). -/
def headerDecode0 (p : Params) (b : List Byte) (b0 : Byte) : HeaderOut :=
  let k := if sndcpSet p b0 then p.v0SndcpBytes else 0
  match firstOverrun b.length [(1, 1), (2, 2), (4, 2), (6, 2), (8, k), (8 + k, 4), (12 + k, 8)] with
  | some off => .err .truncated off 0
  | none => .ok
    { Msg.empty with
      version := 0, flags := b0, msgType := BitVec.ofNat 8 (fieldAt b 1 1)
      msgLen := BitVec.ofNat 16 (fieldAt b 2 2), seq := BitVec.ofNat 16 (fieldAt b 4 2)
      seqValid := true, sndcp := sndcpSet p b0
      tid := BitVec.ofNat 64 (fieldAt b (12 + k) 8), tidValid := true
      ieOff := BitVec.ofNat Config.lenW (20 + k) }

/-- Version 1 (R63). -/
def headerDecode1 (p : Params) (b : List Byte) (b0 : Byte) : HeaderOut :=
  let seqBytes := if seqSet p b0 then 2 else 0
  match firstOverrun b.length ([(1, 1), (2, 2), (4, 4)] ++
      (if seqSet p b0 then [(8, 2)] else []) ++ [(8 + seqBytes, 2)]) with
  | some off => .err .truncated off 1
  | none =>
    match extWalk p b (b.length + 1) (10 + seqBytes) with
    | .error off => .err .truncated off 1
    | .ok ieOff => .ok
      { Msg.empty with
        version := 1, flags := b0, msgType := BitVec.ofNat 8 (fieldAt b 1 1)
        msgLen := BitVec.ofNat 16 (fieldAt b 2 2), teid := BitVec.ofNat 32 (fieldAt b 4 4)
        teidValid := true
        seq := if seqSet p b0 then BitVec.ofNat 16 (fieldAt b 8 2) else 0
        seqValid := seqSet p b0, ieOff := BitVec.ofNat Config.lenW ieOff }

/-- Version 2 (R64). -/
def headerDecode2 (p : Params) (b : List Byte) (b0 : Byte) : HeaderOut :=
  match firstOverrun b.length [(1, 1), (2, 2)] with
  | some off => .err .truncated off 2
  | none =>
    if b.length ≠ 4 + fieldAt b 2 2 then .err .lengthMismatch 4 2
    else
      let teidBytes := if teidSet p b0 then 4 else 0
      match firstOverrun b.length
          ((if teidSet p b0 then [(4, 4)] else []) ++ [(4 + teidBytes, 4)]) with
      | some off => .err .truncated off 2
      | none => .ok
        { Msg.empty with
          version := 2, flags := b0, msgType := BitVec.ofNat 8 (fieldAt b 1 1)
          msgLen := BitVec.ofNat 16 (fieldAt b 2 2)
          teid := BitVec.ofNat 32 (fieldAt b (4 + teidBytes) 4 / 256), teidValid := true
          ieOff := BitVec.ofNat Config.lenW (8 + teidBytes) }

/-- HeaderDecode (R107). -/
def headerDecode (p : Params) (b : List Byte) : HeaderOut :=
  match b with
  | [] => .err .truncated 0 0
  | b0 :: _ =>
    let v := versionBits b0
    if 3 ≤ v.toNat then .err .unsupportedVersion 0 v
    else if v ≠ 2 ∧ ¬ ptSet p b0 then .err .notGtp 0 v
    else if v = 0 then headerDecode0 p b b0
    else if v = 1 then headerDecode1 p b b0
    else headerDecode2 p b b0

/-! ### Body (R130) -/

/-- A leaf decoder function (R137). -/
abbrev LeafFn := DecId → BitVec 2 → List Byte → Nat → Body → LeafRsp × List (Byte × Field)

/-- A registry as a function of version and tag (R17). -/
abbrev RegFn := Nat → Byte → RegEntry

/-- The outcome of Body. -/
inductive BodyOut where
  | err (code : ErrCode) (tag : Byte) (idx : Nat) (reason : Byte)
  | ok (body : Body)
  deriving DecidableEq, Repr

/-- What one IE does: go on behind it, or end the decode. -/
inductive Turn where
  | advanced (n : Nat) (body : Body)
  | ended (o : BodyOut)
  deriving DecidableEq, Repr

/-- The fallback of R130: `rest` is the buffer from the tag on. -/
def fallbackTurn (v : BitVec 3) (rest : List Byte) (t : Byte) (idx : Nat) (body : Body) : Turn :=
  if v ≠ 2 ∧ ¬ tlvClass t then .ended (.err .bodyIncomplete t idx 0)
  else
    let pre := if v = 2 then 4 else 3
    if rest.length < 3 then .ended (.err .truncated t idx 0)
    else
      let len := fieldAt rest 1 2
      if rest.length < pre + len then .ended (.err .truncated t idx 0)
      else .advanced (pre + len) body

/-- One turn of the loop of R130 on the non-empty rest of the buffer. -/
def bodyTurn (reg : RegFn) (lf : LeafFn) (v : BitVec 3) (rest : List Byte) (t : Byte) (idx : Nat)
    (body : Body) : Turn :=
  let e := reg v.toNat t
  if e.valid then
    let r := lf e.decId (v.setWidth 2) rest rest.length body
    let body := bodyPutAll body r.2
    match leafAnsOf r.1 with
    | .matched n =>
      if 1 ≤ n ∧ n ≤ rest.length then .advanced n body
      else .ended (.err .ieDecodeError t idx Config.reasonCount)
    | .malformed x => .ended (.err .ieDecodeError t idx x)
    | .notMatched => fallbackTurn v rest t idx body
  else fallbackTurn v rest t idx body

/-- Body (R130): the loop over the rest of the buffer, `idx` bytes into the body. The fuel is at least
the length of the rest, since every turn consumes a byte (R143). -/
def bodyLoop (reg : RegFn) (lf : LeafFn) (v : BitVec 3) : Nat → List Byte → Nat → Body → BodyOut
  | _, [], _, body => .ok body
  | 0, t :: _, idx, _ => .err .truncated t idx 0
  | fuel + 1, t :: r, idx, body =>
    match bodyTurn reg lf v (t :: r) t idx body with
    | .ended o => o
    | .advanced n body => bodyLoop reg lf v fuel ((t :: r).drop n) (idx + n) body

/-! ### Decode (R209) -/

/-- What a decode leaves: the coarse result, the error registers, the Message. -/
structure DecodeOut where
  result : Result
  err : ErrRegs
  msg : Msg
  body : Body
  msgValid : Bool
  deriving DecidableEq, Repr

/-- A failed decode: the Message is empty (R231). -/
def failedDecode (phase : Phase) (code : ErrCode) (ver : BitVec 3) (tag reason : Byte) (off : Nat) :
    DecodeOut :=
  { result := resultOfPhase phase
    err := { code := code, phase := phase, ver := ver, tag := tag, reason := reason,
             off := BitVec.ofNat Config.lenW off }
    msg := Msg.empty, body := emptyBody, msgValid := false }

/-- Decode (R209). -/
def decodeMessage (p : Params) (reg : RegFn) (lf : LeafFn) (b : List Byte) : DecodeOut :=
  match headerDecode p b with
  | .err code off ver => failedDecode .header code ver 0 0 off
  | .ok m =>
    let v : BitVec 3 := m.version.setWidth 3
    match bodyLoop reg lf v b.length (b.drop m.ieOff.toNat) 0
        { emptyBody with variant := m.version } with
    | .err code tag idx reason => failedDecode .body code v tag reason idx
    | .ok body =>
      { result := .success, err := ErrRegs.clear, msg := m, body := body, msgValid := true }

end Sys2Proof.Machine
end

