-- ==== Sys2Proof/Machine/Reads.lean ====
section
/-! DEFINITION. The BUF bytes the core reads in one step, `70_reset_and_hazards.md` R266 (4): absolute
addresses, in the order of R44, a leaf decoder's own reads left out. No register of the block counts
them, so they are a function of the state beside the step. That they are all the step depends on, and
that their number keeps the bound of R266, are stated as obligations. -/

namespace Sys2Proof.Machine

/-- `MemRead(a, n)` as byte reads, in order (R44). -/
def byteReads (a n : Nat) : List Nat := List.range' a n

/-- A line of a header rule as it meets BUF, each after its `need(width)`: a field that is read, a field
that is consumed unread, and one of which the last byte alone is read (R102 to R105). -/
inductive HeaderLine where
  | field (width : Nat)
  | unread (width : Nat)
  | lastByte (width : Nat)
  deriving DecidableEq, Repr

/-- The bytes a line consumes. -/
def HeaderLine.width : HeaderLine → Nat
  | .field n => n
  | .unread n => n
  | .lastByte n => n

/-- The reads of a line at the cursor `pc`. -/
def HeaderLine.reads (pc : Nat) : HeaderLine → List Nat
  | .field n => byteReads pc n
  | .unread _ => []
  | .lastByte n => byteReads (pc + (n - 1)) 1

/-- The reads of a rule's lines from the cursor `pc`: a line that does not fit reads nothing and is the
last one (R46). -/
def linesReads (bufLen : Nat) : Nat → List HeaderLine → List Nat
  | _, [] => []
  | pc, l :: r =>
    if bufLen < pc + l.width then [] else l.reads pc ++ linesReads bufLen (pc + l.width) r

/-- The lines of HDR.V0 (R102). -/
def headerV0Lines (p : Params) (flags : Byte) : List HeaderLine :=
  if ptSet p flags then
    [.field 1, .field 2, .field 2, .unread 2, .unread (if sndcpSet p flags then p.v0SndcpBytes else 0),
     .unread 4, .field 8]
  else []

/-- The lines of HDR.V1 (R103). -/
def headerV1Lines (p : Params) (flags : Byte) : List HeaderLine :=
  if ptSet p flags then
    [.field 1, .field 2, .field 4] ++ (if seqSet p flags then [.field 2] else []) ++ [.lastByte 2]
  else []

/-- The lines of HDR.V1.EXT (R104). -/
def headerV1ExtLines (p : Params) (marker : Byte) : List HeaderLine :=
  if marker = p.extMarker then [.lastByte p.extStride] else []

/-- The lines of HDR.V2, those after the framing check where it passes (R105). -/
def headerV2Lines (p : Params) (flags : Byte) (framed : Bool) : List HeaderLine :=
  [.field 1, .field 2] ++
    if framed then (if teidSet p flags then [.field 4] else []) ++ [.field 4] else []

/-- The framing check of R105 from the state before HDR.V2: the length field stands behind the message
type. -/
def framingHolds (s : State) : Bool :=
  s.bufLen.toNat == s.pc.toNat + 3 + beNat (bufBytes s (s.pc.toNat + 1) 2)

/-- The reads of a generic skip, none where the length field does not fit (R138, R139). -/
def skipReads (s : State) : List Nat :=
  if remBytes s < 3 then [] else byteReads (s.pc.toNat + 1) 2

/-- The BUF bytes the parser's step reads itself: byte 0, the fields of a header, the tag, and the
length field of a generic skip. -/
def parserReads (p : Params) (s : State) : List Nat :=
  match s.st with
  | .idle => []
  | .hFlags => if 0 < s.bufLen.toNat then byteReads 0 1 else []
  | .h0 => linesReads s.bufLen.toNat s.pc.toNat (headerV0Lines p s.flags)
  | .h1 => linesReads s.bufLen.toNat s.pc.toNat (headerV1Lines p s.flags)
  | .h1Ext => linesReads s.bufLen.toNat s.pc.toNat (headerV1ExtLines p s.last)
  | .h2 => linesReads s.bufLen.toNat s.pc.toNat (headerV2Lines p s.flags (framingHolds s))
  | .hEnd => []
  | .bFetch => if s.pc.toNat < s.bufLen.toNat then byteReads s.pc.toNat 1 else []
  | .bCall => []
  | .bFallback => if s.ver = 2 ∨ tlvClass s.tag then skipReads s else []
  | .done => []

/-- Whether the next step is the parser's: a clock edge, or the answer strobe of an outstanding
invocation (log entries 1 and 10). -/
def parserMoves (s : State) : Bool :=
  match (nextInput s).1 with
  | .clk => true
  | .leafAnswer => s.leafReq.isSome
  | .host _ => false
  | .rst _ => false
  | .unitCall _ => false

/-- The BUF bytes the core reads in the next step (R266 (4)). The host's reads and a leaf decoder's are
not the core's. -/
def coreReads (p : Params) (s : State) : List Nat := if parserMoves s then parserReads p s else []

/-- Whether the next step begins a turn of the dispatch loop: IE.FETCH with a tag at the cursor (R143). -/
def turnBegins (s : State) : Bool :=
  parserMoves s && s.st == .bFetch && decide (s.pc.toNat < s.bufLen.toNat)

end Sys2Proof.Machine
end

