-- ==== Sys2Proof/Machine/Splitter.lean ====
section
/-! DEFINITION. The splitter as a byte-serial state machine, `43_frame_primitives.md` R170: another way
to compute the primitives of R164 to R168, one frame byte at a time. It is no part of the state of the
block (R10); that it gives the same answers is stated as an obligation. -/

namespace Sys2Proof.Machine

/-- Which primitive walks the frame: TV with its length, or a TLV form of version 0/1 or 2, matching or
skipping. -/
inductive SplitKind where
  | tv (n : BitVec 16)
  | tlv01
  | tlv2
  | skip01
  | skip2
  deriving DecidableEq, Repr

/-- The states of R170, the last with the answer. -/
inductive SplitSt where
  | sTag | sLenHi | sLenLo | sInst | sValue
  | sDone (a : FrameAns)
  deriving DecidableEq, Repr

/-- The splitter's registers: `fpos`, the 16-bit down-counter `vcnt`, `lenfld`, `instance`, and the
value bytes delivered. -/
structure Splitter where
  st : SplitSt
  fpos : Nat
  vcnt : BitVec 16
  lenfld : BitVec 16
  inst : Option Byte
  value : List Byte
  deriving DecidableEq, Repr

/-- Whether the form compares the tag (R164 to R166). -/
def SplitKind.matching : SplitKind → Bool
  | .tv _ => true
  | .tlv01 => true
  | .tlv2 => true
  | .skip01 => false
  | .skip2 => false

/-- Whether the frame has an instance byte (R67). -/
def SplitKind.hasInst : SplitKind → Bool
  | .tlv2 => true
  | .skip2 => true
  | _ => false

/-- The prefix of a TLV form: 3 bytes, 4 with the instance byte. -/
def SplitKind.prefixLen (k : SplitKind) : Nat := if k.hasInst then 4 else 3

/-- `S_DONE`: Matched(1 + N), Matched(3 + lenfld) or Matched(4 + lenfld), with the parts the matching
forms deliver. -/
def splitAnswer (k : SplitKind) (u : Splitter) : FrameAns :=
  match k with
  | .tv n => .matched (1 + n.toNat) none none u.value
  | .tlv01 => .matched (3 + u.lenfld.toNat) (some u.lenfld) none u.value
  | .tlv2 => .matched (4 + u.lenfld.toNat) (some u.lenfld) u.inst u.value
  | .skip01 => .matched (3 + u.lenfld.toNat) none none []
  | .skip2 => .matched (4 + u.lenfld.toNat) none none []

/-- A bounds failure. -/
def splitFail (u : Splitter) : Splitter := { u with st := .sDone boundsFailure }

/-- One step (R170): `sub` is the sub-buffer, `expected` the tag of the matching forms. -/
def splitStep (k : SplitKind) (sub : List Byte) (expected : Byte) (u : Splitter) : Splitter :=
  match u.st with
  | .sTag =>
    match sub[u.fpos]? with
    | none => splitFail u
    | some t =>
      if k.matching && t != expected then { u with st := .sDone .notMatched }
      else
        match k with
        | .tv n =>
          if sub.length < 1 + n.toNat then splitFail u
          else { u with st := .sValue, fpos := 1, vcnt := n }
        | _ => if sub.length < 3 then splitFail u else { u with st := .sLenHi, fpos := 1 }
  | .sLenHi =>
    match sub[u.fpos]? with
    | none => splitFail u
    | some b => { u with st := .sLenLo, fpos := u.fpos + 1, lenfld := be16 b 0 }
  | .sLenLo =>
    match sub[u.fpos]? with
    | none => splitFail u
    | some b =>
      let u := { u with lenfld := u.lenfld ||| b.setWidth 16, fpos := u.fpos + 1 }
      if sub.length < k.prefixLen + u.lenfld.toNat then splitFail u
      else if k.hasInst then { u with st := .sInst }
      else { u with st := .sValue, vcnt := u.lenfld }
  | .sInst =>
    match sub[u.fpos]? with
    | none => splitFail u
    | some b =>
      { u with st := .sValue, fpos := u.fpos + 1, inst := some b, vcnt := u.lenfld }
  | .sValue =>
    if u.vcnt = 0 then { u with st := .sDone (splitAnswer k u) }
    else
      match sub[u.fpos]? with
      | none => splitFail u
      | some b =>
        { u with vcnt := u.vcnt - 1, fpos := u.fpos + 1,
                 value := if k.matching then u.value ++ [b] else u.value }
  | .sDone _ => u

/-- The splitter before the first byte of a frame. -/
def splitStart : Splitter :=
  { st := .sTag, fpos := 0, vcnt := 0, lenfld := 0, inst := none, value := [] }

/-- A number of steps. -/
def splitRun (k : SplitKind) (sub : List Byte) (expected : Byte) : Nat → Splitter → Splitter
  | 0, u => u
  | m + 1, u => splitRun k sub expected m (splitStep k sub expected u)

/-- The primitive a splitter kind computes (R164 to R168). -/
def splitReference (k : SplitKind) (sub : List Byte) (expected : Byte) : FrameAns :=
  match k with
  | .tv n => tvFrame sub expected n.toNat
  | .tlv01 => tlv01Frame sub expected
  | .tlv2 => tlv2Frame sub expected
  | .skip01 => skip01Frame sub
  | .skip2 => skip2Frame sub

end Sys2Proof.Machine
end

