-- ==== Sys2Proof/Safety.lean ====
section
/-! DEFINITION. The terms the statements use: the invariant of the block (`10_state.md` R25, read as
log entry 14 says), the clauses of a conforming leaf decoder (`42_dispatch_loop.md` R137), and what a
run of the parser alone means. -/

namespace Sys2Proof.Machine

/-- `st` is a header state after `H_FLAGS` or a body state: byte 0 has been read and its version is
supported (R25 (c)). -/
def versionKnown (s : State) : Bool := busy s && s.st != .hFlags

/-- `st` is a body state (R15). -/
def inBody (s : State) : Bool := s.st == .bFetch || s.st == .bCall || s.st == .bFallback

/-- `st` is one of the two states with an unconsumed tag at the cursor. -/
def tagPending (s : State) : Bool := s.st == .bCall || s.st == .bFallback

/-- The version a header state after `H_FLAGS` stands for (R15). -/
def headerVersion : St → Option (BitVec 3)
  | .h0 => some 0
  | .h1 => some 1
  | .h1Ext => some 1
  | .h2 => some 2
  | _ => none

/-- The Message of a decode that ended in Success (R25 (d), R232): the variant tag matches, and the
header registers are those of the working registers. -/
def successMessage (s : State) : Prop :=
  s.msg.version = s.ver.setWidth 2 ∧ s.body.variant = s.ver.setWidth 2 ∧ s.ver.toNat ≤ 2 ∧
    s.msg.ieOff = s.ieOff ∧ s.msg.flags = s.flags

/-- What is true at every step boundary (R25, R15, R17, R24, R27, R231). -/
structure BlockInv (s : State) : Prop where
  /-- The three stores are canonical. -/
  bufCanonical : Memory.wf s.buf = true
  regCanonical : Registry.wf s.reg = true
  bodyCanonical : bodyWf s.body = true
  /-- R25 (a), while BUSY (log entry 14). -/
  cursorInside : busy s = true → s.pc.toNat ≤ s.bufLen.toNat
  /-- DECODE is accepted after INIT only (R203). -/
  busyInitialised : busy s = true → s.initDone = true
  /-- No result and no error while a decode runs (R22, R203). -/
  busyClear : busy s = true → s.msgValid = false ∧ s.result = .none ∧ s.err = ErrRegs.clear
  /-- The first step of a decode starts at offset 0 with cleared working registers (R203). -/
  atStart : s.st = .hFlags → s.pc = 0 ∧ s.ver = 0 ∧ s.msg = Msg.empty ∧ s.body = emptyBody
  /-- R25 (c): the version is 0, 1 or 2 and is the one byte 0 holds. -/
  version : versionKnown s = true → s.ver = versionBits s.flags ∧ s.ver.toNat ≤ 2
  /-- The header states stand for their version (R100). -/
  headerState : ∀ v, headerVersion s.st = some v → s.ver = v
  /-- `H0`, `H1`, `H2` are entered with `pc` = 1 (R102, R103, R105). -/
  fixedHeader : s.st = .h0 ∨ s.st = .h1 ∨ s.st = .h2 → s.pc = 1 ∧ 1 ≤ s.bufLen.toNat
  /-- BODY is still empty in the header phase (R19, R203). -/
  headerBody : s.st = .h0 ∨ s.st = .h1 ∨ s.st = .h1Ext ∨ s.st = .h2 ∨ s.st = .hEnd →
    s.body = emptyBody
  /-- R25 (b) and (d). -/
  bodyPhase : inBody s = true → s.ieOff.toNat ≤ s.pc.toNat ∧ successMessage s
  /-- The tag register holds the byte at the cursor until the IE is consumed (R131). -/
  tagAtCursor : tagPending s = true →
    s.pc.toNat < s.bufLen.toNat ∧ s.tag = bufByte s s.pc.toNat
  /-- R24 (2): the request is held exactly while `st` = B_CALL, for a registered decoder. -/
  request : s.st = .bCall →
    s.leafReq = some (leafRequest s.tag s) ∧ (regGet s s.ver.toNat s.tag).valid = true
  noRequest : s.st ≠ .bCall → s.leafReq = none
  /-- Before the first decode nothing has been reported (R26). -/
  idleClear : s.st = .idle → s.msgValid = false ∧ s.result = .none ∧ s.err = ErrRegs.clear ∧
    s.msg = Msg.empty ∧ s.body = emptyBody
  /-- A finished decode: R25 (e) and the whole Message (R232), or an error and the empty Message
  (R231). -/
  doneOutcome : s.st = .done →
    (s.result = .success ∧ s.msgValid = true ∧ s.err = ErrRegs.clear ∧ successMessage s) ∨
    (s.msgValid = false ∧ s.err.code ≠ .none ∧ s.result = resultOfPhase s.err.phase ∧
      s.msg = Msg.empty ∧ s.body = emptyBody)

/-! ### Frames: what an operation leaves as it was, by kind of state -/

/-- BUF, its length, and every byte it reads as (R16). -/
structure SameBuffer (s t : State) : Prop where
  buf : t.buf = s.buf
  bufLen : t.bufLen = s.bufLen
  epoch : t.epoch = s.epoch
  bytes : ∀ a, bufByte t a = bufByte s a

/-- REG and `init_done` (R17, R24). -/
structure SameRegistry (s t : State) : Prop where
  reg : t.reg = s.reg
  initDone : t.initDone = s.initDone

/-- The command registers and the sticky bit (R20, R21). -/
structure SameCommand (s t : State) : Prop where
  cmdArg : t.cmdArg = s.cmdArg
  cmdResult : t.cmdResult = s.cmdResult
  viol : t.viol = s.viol

/-- The model's own input, read and answer lines. -/
structure SameBus (s t : State) : Prop where
  inputs : t.inputs = s.inputs
  rdata : t.rdata = s.rdata
  bodyData : t.bodyData = s.bodyData
  ans : t.ans = s.ans

/-- The Message, `msg_valid`, `result` and the error registers (R18 to R22). -/
structure SameOutput (s t : State) : Prop where
  msg : t.msg = s.msg
  body : t.body = s.body
  msgValid : t.msgValid = s.msgValid
  result : t.result = s.result
  err : t.err = s.err

/-- The parser's working registers, cursor, state and outstanding request (R11 to R15, R24). -/
structure SameWorking (s t : State) : Prop where
  ver : t.ver = s.ver
  flags : t.flags = s.flags
  tag : t.tag = s.tag
  lenfld : t.lenfld = s.lenfld
  last : t.last = s.last
  word : t.word = s.word
  pc : t.pc = s.pc
  ieOff : t.ieOff = s.ieOff
  st : t.st = s.st
  leafReq : t.leafReq = s.leafReq

/-- What the parser never touches (R48, R231): the host's side of the block. -/
structure SameHostSide (s t : State) : Prop where
  buffer : SameBuffer s t
  registry : SameRegistry s t
  command : SameCommand s t
  bus : SameBus s t

/-- What no host command or access but DECODE touches (R48): the parser's side of the block. -/
structure SameParserSide (s t : State) : Prop where
  working : SameWorking s t
  output : SameOutput s t

/-- What a unit called by a leaf decoder leaves alone: everything but its answer lines. -/
structure OnlyAnswer (a : UnitAns) (s t : State) : Prop where
  ans : t.ans = a
  buffer : SameBuffer s t
  registry : SameRegistry s t
  command : SameCommand s t
  output : SameOutput s t
  working : SameWorking s t
  inputs : t.inputs = s.inputs
  rdata : t.rdata = s.rdata
  bodyData : t.bodyData = s.bodyData

/-- What a decode error leaves (R231): the error registers given, the empty Message, the coarse status
of the phase (R227), DONE, no outstanding request; the host's side untouched. -/
structure ErrorEntry (e : ErrRegs) (s t : State) : Prop where
  err : t.err = e
  msg : t.msg = Msg.empty
  body : t.body = emptyBody
  msgValid : t.msgValid = false
  result : t.result = resultOfPhase e.phase
  st : t.st = .done
  leafReq : t.leafReq = none
  host : SameHostSide s t

/-- What one step that raises does (R8, R231): the error entry and nothing else, the cursor and the
working registers keeping their values. -/
structure ErrorStep (e : ErrRegs) (s t : State) : Prop where
  entry : ErrorEntry e s t
  ver : t.ver = s.ver
  flags : t.flags = s.flags
  tag : t.tag = s.tag
  lenfld : t.lenfld = s.lenfld
  last : t.last = s.last
  word : t.word = s.word
  pc : t.pc = s.pc
  ieOff : t.ieOff = s.ieOff

/-- The message in the buffer, `BUF[0 .. buf_len)` (R16). -/
def messageBytes (s : State) : List Byte := subBuf s 0

/-- The registry entry of an `INIT_REGISTRY` value (R201). -/
def entryOf : Option DecId → RegEntry
  | none => { valid := false, decId := 0 }
  | some d => { valid := true, decId := d }

/-- `k` steps of the block. -/
def runSteps (k : Nat) (s : State) : Out := Sys2Proof.core.run k s

/-- A quantity of each step, summed over the first `k` steps. -/
def sumSteps (f : State → Nat) : Nat → State → Nat
  | 0, _ => 0
  | k + 1, s => f s + match step s with
    | .next t => sumSteps f k t
    | _ => 0

/-- The BUF byte reads the core makes in `k` steps (R266 (4)). -/
def readsIn (k : Nat) (s : State) : Nat := sumSteps (fun u => (coreReads Config.params u).length) k s

/-- The turns of the dispatch loop begun in `k` steps (R143, R266 (3)). -/
def turnsIn (k : Nat) (s : State) : Nat := sumSteps (fun u => if turnBegins u then 1 else 0) k s

/-- Nothing but the parser and the leaf decoders acts: the inputs to come are clock edges, leaf
decoders' calls and answer strobes. -/
def hostAway (s : State) : Prop :=
  ∀ i ∈ s.inputs, i = .clk ∨ i = .leafAnswer ∨ ∃ call, i = .unitCall call

/-- Two states that differ in BUF cells at most, and in none the next step reads: neither the core's own
reads nor, at IE.CALL, the sub-buffer given to the leaf decoder (R45, R137 (a)). -/
def sameReads (s t : State) : Prop :=
  (∃ m, t = { s with buf := m }) ∧ (∀ a ∈ coreReads Config.params s, bufByte t a = bufByte s a) ∧
    (s.st = .bCall → subBuf t s.pc.toNat = subBuf s s.pc.toNat)

/-- The host side of a conforming leaf decoder's contract on one call: (b) a Matched count is between 1
and `rem`, (e) nothing is written with NotMatched (R137). -/
def conformingAnswer (rem : Nat) (r : LeafRsp × List (Byte × Field)) : Prop :=
  (∀ n, leafAnsOf r.1 = .matched n → 1 ≤ n ∧ n ≤ rem) ∧ (leafAnsOf r.1 = .notMatched → r.2 = [])

/-- The digit characters of R186: `'0'` .. `'9'`, `'*'`, `'#'`. -/
def digitChar (c : Byte) : Bool :=
  (decide (0x30 ≤ c.toNat) && decide (c.toNat ≤ 0x39)) || c == 0x2A || c == 0x23

/-- Two states with the same message: equal but for BUF cells at or beyond `buf_len` (R209). -/
def sameMessage (s t : State) : Prop :=
  (∃ m, t = { s with buf := m }) ∧ ∀ a, a < s.bufLen.toNat → bufByte t a = bufByte s a

end Sys2Proof.Machine
end

