-- ==== Sys2Proof/Certificates/Slice0/Obligations.lean ====
section
/-! DEFINITION. The statements for the provers, from the numbered rules of the spec. Each docstring
names the rule. -/

open Sys2Proof Sys2Proof.Machine

/-! ### Encoding -/

/-- R61, R66, R68, R70, R71, R76: words written out from the layouts decode to the operations they stand
for. -/
def Obligations.WrittenOutWordsDecode : Prop :=
  decode .cmd (.cmd 0x00000001) = .ok .initCmd ∧
  decode .cmd (.cmd 0x00000002) = .ok .registerCmd ∧
  decode .cmd (.cmd 0x00000013) = .ok .decodeCmd ∧
  decode .cmd (.cmd 0x0000000F) = .ok (.cmdIllegal 15) ∧
  decode .hFlags (.bytes [0x32]) = .ok (.hdrFlags 0x32) ∧
  decode .hFlags (.bytes [0x70]) = .ok (.hdrUnsup 3 0b10000) ∧
  decode .h0 (.bytes [0x1E]) = .ok (.hdrV0 0b11110) ∧
  decode .h1 (.bytes [0x32]) = .ok (.hdrV1 0b10010) ∧
  decode .h2 (.bytes [0x48]) = .ok (.hdrV2 0b01000) ∧
  decode .fallback01 (.bytes [0x85]) = .ok (.ieSkip01 0b0000101) ∧
  decode .fallback01 (.bytes [0x05]) = .ok (.ieStop 0b0000101) ∧
  decode .fallback2 (.bytes [0x05]) = .ok (.ieSkip2 0x05) ∧
  decode .rdBe16 (.bytes [0x12, 0x34]) = .ok (.rdBe16 0x1234)

/-- Every well-formed operation, with every operand its encoding admits, is read back by its unit from
the word the encoder writes for it. -/
def Obligations.DecodeOfEncodeIsTheOperation : Prop :=
  ∀ i : Instr, i.wf = true → decode (selOf i) (encode i) = .ok i

/-- What a unit reads is well formed, is read by that unit alone, and determines the word: all of it on
the byte units, CMD[3:0] on the command unit (R71). -/
def Obligations.DecodedWordIsTheEncodingOfItsOperation : Prop :=
  (∀ (c : Sel) (l : List Byte) (i : Instr), decode c (.bytes l) = .ok i →
    i.wf = true ∧ selOf i = c ∧ encode i = .bytes l) ∧
  (∀ (c : Sel) (v : BitVec 32) (i : Instr), decode c (.cmd v) = .ok i →
    i.wf = true ∧ selOf i = c ∧ encode i = .cmd (v &&& 0xF))

/-! ### A step -/

/-- R15, R76, R200, R240, R251, R265: a step with nothing at the pins, or with a clock edge, runs the
operation that the selected unit decodes from the byte it reads, and in IDLE and DONE does nothing
(log 2); a write to CMD runs the command; a leaf decoder's call runs the unit it names (log 8); the
answer strobe with a request outstanding runs the selected operation too (log 10), and with no request
outstanding a call or a strobe does nothing. The input is consumed (log 1). Inputs, unit calls and the
strobe are the model's choice. -/
def Obligations.StepRunsTheDecodedOperation : Prop :=
  ∀ s s' : State,
    ((s.inputs = [] ∧ s' = s) ∨ (∃ r, s.inputs = .clk :: r ∧ s' = { s with inputs := r }) →
      (∀ c b i, parserFetch s' = some (c, b) → decode c (.bytes [b]) = .ok i →
        step s = exec i s') ∧
      (s'.st = .idle ∨ s'.st = .done → step s = .next s')) ∧
    (∀ v i r, s.inputs = .host (.regWrite 0x00000 v) :: r → s' = { s with inputs := r } →
      decode .cmd (.cmd v) = .ok i → step s = exec i s') ∧
    (∀ call q c l i r, s.inputs = .unitCall call :: r → s' = { s with inputs := r } →
      s'.leafReq = some q → callWord q call s' = .word c l → decode c (.bytes l) = .ok i →
        step s = exec i s') ∧
    (∀ q c b i r, s.inputs = .leafAnswer :: r → s' = { s with inputs := r } →
      s'.leafReq = some q → parserFetch s' = some (c, b) → decode c (.bytes [b]) = .ok i →
        step s = exec i s') ∧
    (∀ i r, s.inputs = i :: r → s' = { s with inputs := r } → s'.leafReq = none →
      (i = .leafAnswer ∨ ∃ call, i = .unitCall call) → step s = .next s')

/-- R15, R76, R136: the unit each state selects and the byte it reads: byte 0 and the tag from BUF inside
`[0, buf_len)`, the others from the register that holds it. -/
def Obligations.ParserReadsTheSelectedByte : Prop :=
  ∀ s : State,
    (s.st = .hFlags → 0 < s.bufLen.toNat → parserFetch s = some (.hFlags, bufByte s 0)) ∧
    (s.st = .h0 → parserFetch s = some (.h0, s.flags)) ∧
    (s.st = .h1 → parserFetch s = some (.h1, s.flags)) ∧
    (s.st = .h1Ext → parserFetch s = some (.h1Ext, s.last)) ∧
    (s.st = .h2 → parserFetch s = some (.h2, s.flags)) ∧
    (s.st = .hEnd → parserFetch s = some (.hEnd, s.flags)) ∧
    (s.st = .bFetch → s.pc.toNat < s.bufLen.toNat →
      parserFetch s = some (.bFetch, bufByte s s.pc.toNat)) ∧
    (s.st = .bCall → parserFetch s = some (.bCall, s.tag)) ∧
    (s.st = .bFallback → s.ver = 2 → parserFetch s = some (.fallback2, s.tag)) ∧
    (s.st = .bFallback → s.ver ≠ 2 → parserFetch s = some (.fallback01, s.tag))

/-! ### Reset -/

/-- R26, R27: the values of every register after reset; every registry entry invalid; nothing listed
in BUF. -/
def Obligations.ResetLeavesTheStatedValues : Prop :=
  let s := State.reset
  s.st = .idle ∧ runBits s = 0 ∧ s.initDone = false ∧ s.viol = false ∧
  (∀ v t, regGet s v t = { valid := false, decId := 0 }) ∧
  s.bufLen = 0 ∧ s.buf = [] ∧
  s.pc = 0 ∧ s.ieOff = 0 ∧ s.ver = 0 ∧ s.flags = 0 ∧ s.tag = 0 ∧ s.lenfld = 0 ∧ s.last = 0 ∧
  s.word = 0 ∧ s.msgValid = false ∧
  s.msg = { version := 0, flags := 0, msgType := 0, msgLen := 0, seq := 0, seqValid := false,
            teid := 0, teidValid := false, sndcp := false, tid := 0, tidValid := false,
            ieOff := 0 } ∧
  s.body.variant = 0 ∧ (∀ f, (bodyGet s.body f).present = false ∧ (bodyGet s.body f).len = 0) ∧
  s.result = .none ∧
  s.err = { code := .none, phase := .header, ver := 0, tag := 0, reason := 0, off := 0 } ∧
  s.cmdResult = .none ∧ s.cmdArg = { version := 0, tag := 0, decId := 0 } ∧ s.leafReq = none

/-- R250, R251: a clock edge with `rst` = 1 gives every field of the block its reset value whatever the
state, a decode in progress included, and a host access at that edge does nothing, a read returning 0.
Only the model's own list of inputs to come, and its count of resets, go on. -/
def Obligations.ResetEdgeResetsFromAnyState : Prop :=
  ∀ (s : State) (a : Option HostAccess) (r : List Input), s.inputs = .rst a :: r →
    ∃ t, step s = .next t ∧ t.inputs = r ∧ t.rdata = 0 ∧
      SameWorking State.reset t ∧ SameOutput State.reset t ∧ SameRegistry State.reset t ∧
      SameCommand State.reset t ∧ t.buf = [] ∧ t.bufLen = 0

/-! ### Invariants -/

/-- The state after reset satisfies the invariant. -/
def Obligations.ResetSatisfiesTheInvariant : Prop := BlockInv State.reset

/-- R25, R46, R230: from every state that satisfies the invariant a step answers a next state (no read
outside `[0, buf_len)`, no word without an operation), and that state satisfies it. -/
def Obligations.StepKeepsTheInvariantAndNeverStops : Prop :=
  ∀ s : State, BlockInv s → ∃ t, step s = .next t ∧ BlockInv t

/-- R25 (f), (g): while BUSY no step but a reset changes REG, BUF or `buf_len`. -/
def Obligations.BusyStepsKeepBufferAndRegistry : Prop :=
  ∀ s t : State, busy s = true → (∀ a r, s.inputs ≠ .rst a :: r) → step s = .next t →
    SameBuffer s t ∧ SameRegistry s t

/-- R12: no step of a decode moves the cursor back or beyond `buf_len`. -/
def Obligations.CursorNeverMovesBack : Prop :=
  ∀ s t : State, BlockInv s → busy s = true → (∀ a r, s.inputs ≠ .rst a :: r) → step s = .next t →
    s.pc.toNat ≤ t.pc.toNat ∧ t.pc.toNat ≤ t.bufLen.toNat

/-- R231, R232: every parser operation that ends a decode leaves either a Success with `msg_valid` or
an error with the empty Message. That an error keeps the working registers of before its step, R8 and
R231, is log 3's reading (a block split as R109 allows keeps what earlier sub-states wrote). -/
def Obligations.ADecodeEndsInSuccessOrWithTheEmptyMessage : Prop :=
  ∀ (i : Instr) (s t : State), selOf i ≠ .cmd → busy s = true → s.err = ErrRegs.clear →
    exec i s = .next t → t.st = .done →
      (t.result = .success ∧ t.msgValid = true ∧ t.err = ErrRegs.clear ∧ t.msg = s.msg ∧
        t.body = s.body) ∨
      (t.err.code ≠ .none ∧ ErrorStep t.err s t)

/-! ### Progress -/

/-- R110, R143, R266 (1), (3), (4): with nothing at the pins, a decode in progress reaches DONE within
`4 * buf_len + 8` steps. After any number of steps, however leaf decoders' calls lie between, the turns
of the dispatch loop are at most the bytes from where it started, `buf_len - ie_off` in all, and the core
has made at most 3 BUF byte reads for each turn and `buf_len` before the first. -/
def Obligations.EveryDecodeReachesDone : Prop :=
  ∀ s : State, BlockInv s → busy s = true →
    (s.inputs = [] → ∃ t, runSteps (4 * s.bufLen.toNat + 8) s = .next t ∧ t.st = .done) ∧
    (hostAway s → ∀ k t, runSteps k s = .next t →
      (s.st = .bFetch → readsIn k s ≤ 3 * turnsIn k s ∧
        turnsIn k s ≤ s.bufLen.toNat - s.pc.toNat) ∧
      (s.st = .hFlags → readsIn k s ≤ s.bufLen.toNat + 3 * turnsIn k s ∧
        turnsIn k s ≤ s.bufLen.toNat - t.ieOff.toNat))

/-- R110, R266 (2), (4): the header phase ends, in the body or in an error, within 3 steps for versions 0
and 2 and `4 + (buf_len - 10) / 4` for version 1, and the core makes at most `buf_len` BUF byte reads in
it. -/
def Obligations.HeaderEndsWithinItsBound : Prop :=
  ∀ s : State, BlockInv s → s.st = .hFlags → s.inputs = [] →
    ∃ k t, k ≤ (if versionBits (wordAt s 0) = 1 then 4 + (s.bufLen.toNat - 10) / 4 else 3) ∧
      runSteps k s = .next t ∧ (t.st = .bFetch ∨ t.st = .done) ∧ readsIn k s ≤ s.bufLen.toNat

/-! ### The step machine computes the functions of R107, R130 and R209 -/

/-- R107: the header steps compute HeaderDecode, on the final state and on the error registers. -/
def Obligations.HeaderStepsComputeHeaderDecode : Prop :=
  ∀ s : State, BlockInv s → s.st = .hFlags → s.inputs = [] →
    ∃ k t, runSteps k s = .next t ∧ SameHostSide s t ∧
      match headerDecode Config.params (messageBytes s) with
      | .err code off ver =>
        ErrorEntry { code := code, phase := .header, ver := ver, tag := 0, reason := 0,
                     off := BitVec.ofNat Config.lenW off } s t
      | .ok m =>
        t.st = .bFetch ∧ t.msg = m ∧ t.pc = m.ieOff ∧ t.ieOff = m.ieOff ∧
          t.ver = m.version.setWidth 3 ∧ t.body = { emptyBody with variant := m.version }

/-- R130: the body steps compute Body over the rest of the message. -/
def Obligations.BodyStepsComputeBody : Prop :=
  ∀ s : State, BlockInv s → s.st = .bFetch → s.pc = s.ieOff → s.inputs = [] →
    ∃ k t, runSteps k s = .next t ∧ t.st = .done ∧ SameHostSide s t ∧
      match bodyLoop (regGet s) leaf s.ver s.bufLen.toNat (subBuf s s.pc.toNat) 0 s.body with
      | .err code tag idx reason =>
        ErrorEntry { code := code, phase := .body, ver := s.ver, tag := tag, reason := reason,
                     off := BitVec.ofNat Config.lenW idx } s t
      | .ok body =>
        t.result = .success ∧ t.msgValid = true ∧ t.err = s.err ∧ t.msg = s.msg ∧ t.body = body

/-- R209: from an accepted DECODE with nothing at the pins, the block reaches DONE with exactly the
result, error registers and Message of Decode, which is a function of the parameters, the registry, the
leaf decoders and `BUF[0 .. buf_len)` alone; BUF, `buf_len`, REG and `init_done` are unchanged. -/
def Obligations.DecodeComputesTheDecodeFunction : Prop :=
  ∀ s : State, BlockInv s → s.st = .hFlags → s.inputs = [] →
    ∃ k t, runSteps k s = .next t ∧ t.st = .done ∧ SameHostSide s t ∧
      ({ result := t.result, err := t.err, msg := t.msg, body := t.body,
         msgValid := t.msgValid } : DecodeOut) =
        decodeMessage Config.params (regGet s) leaf (messageBytes s)

/-- R45, R46, R209, R266 (4): cells at or beyond `buf_len` do not matter to the parser: two states that
differ only there take steps to states that differ only there. Nor does any cell that the step does not
read: the bytes counted as the core's reads lie inside `[0, buf_len)`, and with the sub-buffer a leaf
decoder gets at IE.CALL they are all of BUF that the step depends on. -/
def Obligations.CellsBeyondTheMessageDoNotMatter : Prop :=
  (∀ s t s' : State, sameMessage s t → BlockInv s → BlockInv t → s.inputs = [] → step s = .next s' →
    ∃ t', step t = .next t' ∧ sameMessage s' t') ∧
  (∀ (s : State) (a : Nat), BlockInv s → a ∈ coreReads Config.params s → a < s.bufLen.toNat) ∧
  (∀ s t s' : State, sameReads s t → s.inputs = [] → step s = .next s' →
    coreReads Config.params t = coreReads Config.params s ∧ step t = .next { s' with buf := t.buf })

/-! ### Host commands -/

/-- R201: an accepted INIT writes all 768 entries from INIT_REGISTRY, (1, 0x02) being DEC_IMSI, sets
`init_done` and answers InitOk; nothing else changes. -/
def Obligations.InitLoadsTheRegistry : Prop :=
  ∀ s : State, busy s = false → s.initDone = false →
    ∃ t, exec .initCmd s = .next t ∧ t.initDone = true ∧ t.cmdResult = .initOk ∧
      (∀ (v : Fin Config.numVersions) (tag : Byte), regGet t v.val tag = entryOf (Config.initRegistry v tag)) ∧
      regGet t 1 0x02 = { valid := true, decId := Config.decImsi } ∧
      Registry.wf t.reg = true ∧
      SameBuffer s t ∧ SameParserSide s t ∧ SameBus s t ∧ t.cmdArg = s.cmdArg ∧ t.viol = s.viol

/-- R202: an accepted REGISTER writes the one entry CMD_ARG names, and answers Added or Replaced by
whether the entry was valid; every other entry and everything else is unchanged. -/
def Obligations.RegisterWritesOneEntry : Prop :=
  ∀ s : State, Registry.wf s.reg = true → busy s = false → s.initDone = true →
    s.cmdArg.version ≠ 3 → s.cmdArg.decId ≠ 0 →
    ∃ t, exec .registerCmd s = .next t ∧
      t.cmdResult = (if (regGet s s.cmdArg.version.toNat s.cmdArg.tag).valid then .replaced
        else .added) ∧
      regGet t s.cmdArg.version.toNat s.cmdArg.tag = { valid := true, decId := s.cmdArg.decId } ∧
      (∀ v tag, ¬ (v = s.cmdArg.version.toNat ∧ tag = s.cmdArg.tag) →
        regGet t v tag = regGet s v tag) ∧
      Registry.wf t.reg = true ∧
      SameBuffer s t ∧ SameParserSide s t ∧ SameBus s t ∧ t.cmdArg = s.cmdArg ∧ t.viol = s.viol ∧
      t.initDone = s.initDone

/-- R203: an accepted DECODE, from IDLE or DONE, clears the Message, the error registers, the result and
the working registers and starts at `H_FLAGS`; BUF, `buf_len` and REG are unchanged. -/
def Obligations.DecodeStartsFromACleanState : Prop :=
  ∀ s : State, busy s = false → s.initDone = true →
    ∃ t, exec .decodeCmd s = .next t ∧ t.cmdResult = .decodeStarted ∧ busy t = true ∧
      t.st = .hFlags ∧ t.msg = Msg.empty ∧ t.body = emptyBody ∧ t.msgValid = false ∧
      t.result = .none ∧ t.err = ErrRegs.clear ∧ t.ver = 0 ∧ t.flags = 0 ∧ t.tag = 0 ∧
      t.lenfld = 0 ∧ t.last = 0 ∧ t.word = 0 ∧ t.pc = 0 ∧ t.ieOff = 0 ∧ t.leafReq = none ∧
      SameBuffer s t ∧ SameRegistry s t ∧ SameBus s t ∧ t.cmdArg = s.cmdArg ∧ t.viol = s.viol

/-- R201 to R203: INIT while BUSY or a second time answers InitFail; REGISTER while BUSY, before INIT,
with version 3 or with the null decoder answers Error; DECODE while BUSY or before INIT is Refused. A
refused command changes nothing but `cmd_result`. -/
def Obligations.RefusedCommandsChangeNothingElse : Prop :=
  ∀ s : State,
    (busy s = true ∨ s.initDone = true →
      exec .initCmd s = .next { s with cmdResult := .initFail }) ∧
    (busy s = true ∨ s.initDone = false ∨ s.cmdArg.version = 3 ∨ s.cmdArg.decId = 0 →
      exec .registerCmd s = .next { s with cmdResult := .error }) ∧
    (busy s = true ∨ s.initDone = false →
      exec .decodeCmd s = .next { s with cmdResult := .refused })

/-- R206: a write to CMD with `op` in {0, 4, ..., 15}, whatever CMD[31:4] and in any state, BUSY
included, sets `cmd_result` to Refused and does nothing else. -/
def Obligations.IllegalCommandIsRefusedInAnyState : Prop :=
  (∀ (op : BitVec 4) (s : State),
    exec (.cmdIllegal op) s = .next { s with cmdResult := .refused }) ∧
  (∀ (s : State) (v : BitVec 32) (r : List Input), s.inputs = .host (.regWrite 0x00000 v) :: r →
    v.toNat % 16 = 0 ∨ 4 ≤ v.toNat % 16 →
    step s = .next { s with inputs := r, cmdResult := .refused })

/-! ### Host accesses -/

/-- R207, R20: a write to a BUF cell or to BUF_LEN while BUSY is ignored and sets `viol`; a write to CMD_ARG
is always allowed and takes its three fields where R72 puts them; `viol` is sticky, cleared by reset
only. -/
def Obligations.BusyWritesAreIgnoredAndSetViol : Prop :=
  (∀ (s : State) (r : List Input), busy s = true →
    (∀ a v, s.inputs = .host (.bufWrite a v) :: r →
      step s = .next { s with inputs := r, viol := true }) ∧
    (∀ v, s.inputs = .host (.regWrite 0x00010 v) :: r →
      step s = .next { s with inputs := r, viol := true })) ∧
  (∀ (s : State) (r : List Input) (v : BitVec 32),
    s.inputs = .host (.regWrite 0x00004 v) :: r →
      ∃ t, step s = .next t ∧ t = { s with inputs := r, cmdArg := t.cmdArg } ∧
        t.cmdArg.version.toNat = v.toNat % 4 ∧ t.cmdArg.tag.toNat = v.toNat / 2 ^ 8 % 256 ∧
        t.cmdArg.decId.toNat = v.toNat / 2 ^ 16 % 256) ∧
  (∀ s t : State, s.viol = true → (∀ a r, s.inputs ≠ .rst a :: r) → step s = .next t →
    t.viol = true)

/-- R16, R204: while not BUSY a host write of a cell reads back at that cell and at no other; a write to
BUF_LEN takes 17 bits; nothing else changes. -/
def Obligations.HostLoadsTheBuffer : Prop :=
  ∀ (s : State) (r : List Input), Memory.wf s.buf = true → busy s = false →
    (∀ a v, s.inputs = .host (.bufWrite a v) :: r →
      ∃ t, step s = .next t ∧ bufByte t a.toNat = v ∧
        (∀ b, b ≠ a.toNat → bufByte t b = bufByte s b) ∧ Memory.wf t.buf = true ∧
        t = { s with inputs := r, buf := t.buf }) ∧
    (∀ v, s.inputs = .host (.regWrite 0x00010 v) :: r →
      ∃ t, step s = .next t ∧ t.bufLen.toNat = v.toNat % 131072 ∧
        t = { s with inputs := r, bufLen := t.bufLen })

/-- R20, R208: the fields of STATUS, bits 31:7 reading 0, and the output `done`. -/
def Obligations.StatusReportsItsFields : Prop :=
  ∀ (s : State) (w : BitVec 32), w = regImage s 0x0000C →
    (s.st = .idle → w.extractLsb' 0 2 = 0) ∧ (s.st = .done → w.extractLsb' 0 2 = 2) ∧
    (s.st ≠ .idle → s.st ≠ .done → w.extractLsb' 0 2 = 1) ∧
    w.getLsbD 2 = s.initDone ∧ w.getLsbD 3 = s.msgValid ∧
    (s.result = .none → w.extractLsb' 4 2 = 0) ∧ (s.result = .success → w.extractLsb' 4 2 = 1) ∧
    (s.result = .headerError → w.extractLsb' 4 2 = 2) ∧
    (s.result = .bodyIncomplete → w.extractLsb' 4 2 = 3) ∧
    w.getLsbD 6 = s.viol ∧ w.extractLsb' 7 25 = 0 ∧
    (doneOut s = true ↔ w.extractLsb' 0 2 = 2)

/-- R22, R23, R74: the fields of ERR, ERR_OFF, the MSG registers, CMD_ARG, CMD_RESULT and BUF_LEN at
their bit positions, every unlisted bit reading 0, and the codes of `err_code`, `err_phase` and
`cmd_result`. -/
def Obligations.ErrorAndMessageRegistersShowTheirFields : Prop :=
  ∀ s : State,
    (regImage s 0x00014).extractLsb' 0 3 = errCodeBits s.err.code ∧
    (regImage s 0x00014).extractLsb' 3 1 = phaseBit s.err.phase ∧
    (regImage s 0x00014).extractLsb' 4 3 = s.err.ver ∧
    (regImage s 0x00014).extractLsb' 8 8 = s.err.tag ∧
    (regImage s 0x00014).extractLsb' 16 8 = s.err.reason ∧
    (regImage s 0x00018).toNat = s.err.off.toNat ∧
    (regImage s 0x00020).extractLsb' 0 2 = s.msg.version ∧
    (regImage s 0x00020).extractLsb' 8 8 = s.msg.flags ∧
    (regImage s 0x00020).extractLsb' 16 8 = s.msg.msgType ∧
    (regImage s 0x00020).getLsbD 24 = s.msg.sndcp ∧
    (regImage s 0x00020).getLsbD 25 = s.msg.seqValid ∧
    (regImage s 0x00020).getLsbD 26 = s.msg.teidValid ∧
    (regImage s 0x00020).getLsbD 27 = s.msg.tidValid ∧
    (regImage s 0x00024).extractLsb' 0 16 = s.msg.msgLen ∧
    (regImage s 0x00024).extractLsb' 16 16 = s.msg.seq ∧
    regImage s 0x00028 = s.msg.teid ∧
    (regImage s 0x0002C).toNat * 2 ^ 32 + (regImage s 0x00030).toNat = s.msg.tid.toNat ∧
    (regImage s 0x00034).toNat = s.msg.ieOff.toNat ∧
    (regImage s 0x00004).extractLsb' 0 2 = s.cmdArg.version ∧
    (regImage s 0x00004).extractLsb' 8 8 = s.cmdArg.tag ∧
    (regImage s 0x00004).extractLsb' 16 8 = s.cmdArg.decId ∧
    (regImage s 0x00010).toNat = s.bufLen.toNat ∧
    (regImage s 0x00008).extractLsb' 0 3 = cmdResultCode s.cmdResult ∧
    (regImage s 0x00014).getLsbD 7 = false ∧ (regImage s 0x00014).extractLsb' 24 8 = 0 ∧
    (regImage s 0x00020).extractLsb' 2 6 = 0 ∧ (regImage s 0x00020).extractLsb' 28 4 = 0 ∧
    (regImage s 0x00004).extractLsb' 2 6 = 0 ∧ (regImage s 0x00004).extractLsb' 24 8 = 0 ∧
    (regImage s 0x00008).extractLsb' 3 29 = 0 ∧
    [ErrCode.none, .unsupportedVersion, .notGtp, .truncated, .lengthMismatch, .ieDecodeError,
      .bodyIncomplete].map errCodeBits = [0, 1, 2, 3, 4, 5, 6] ∧
    [Phase.header, .body].map phaseBit = [0, 1] ∧
    [CmdResult.none, .initOk, .initFail, .added, .replaced, .error, .decodeStarted,
      .refused].map cmdResultCode = [0, 1, 2, 3, 4, 5, 6, 7]

/-- R23, R205: a host read returns the register's image, the byte or the BODY field and changes nothing
else; CMD and unlisted offsets read 0; a write to an offset other than CMD, CMD_ARG and BUF_LEN is
ignored. -/
def Obligations.HostReadsHaveNoEffectAndUnlistedOffsetsReadZero : Prop :=
  ∀ (s : State) (off : Off) (r : List Input),
    (s.inputs = .host (.regRead off) :: r →
      step s = .next { s with inputs := r, rdata := regImage s off }) ∧
    (s.inputs = .host (.bufRead off) :: r →
      step s = .next { s with inputs := r, rdata := BitVec.ofNat 32 (bufByte s off.toNat).toNat }) ∧
    (∀ f, s.inputs = .host (.bodyRead f) :: r →
      step s = .next { s with inputs := r, bodyData := bodyGet s.body f }) ∧
    (off.toNat = 0 ∨ 0x34 < off.toNat ∨ off.toNat % 4 ≠ 0 ∨ off.toNat = 0x1C →
      regImage s off = 0) ∧
    (∀ v, s.inputs = .host (.regWrite off v) :: r →
      off.toNat ≠ 0 → off.toNat ≠ 4 → off.toNat ≠ 0x10 → step s = .next { s with inputs := r })

/-! ### The header state machine -/

/-- R100: HDR.FLAGS latches byte 0 and dispatches on its version; with an empty buffer it raises
Truncated(0). -/
def Obligations.HdrFlagsDispatchesOnTheVersion : Prop :=
  ∀ (b : Byte) (s : State),
    (s.pc = 0 → 1 ≤ s.bufLen.toNat → b.toNat < 0x60 →
      exec (.hdrFlags b) s = .next
        { s with flags := b, ver := BitVec.ofNat 3 (b.toNat / 32), last := b, pc := 1,
                 st := if b.toNat < 0x20 then .h0 else if b.toNat < 0x40 then .h1 else .h2 }) ∧
    (s.pc = 0 → s.bufLen = 0 → ∃ t, exec (.hdrFlags b) s = .next t ∧
      ErrorStep { code := .truncated, phase := .header, ver := s.ver, tag := 0, reason := 0,
                   off := 0 } s t)

/-- R100, R101, R221: HDR.UNSUP raises UnsupportedVersion(version) from byte 0 alone, whatever bits 4:0,
and so does HDR.FLAGS executed on such a byte (log 15). Beside the error registers of R221, that `ver`
and the other working registers keep the values of before the step, although R100 writes them first, is
log 3's reading of R8, and log 17 says where `err_ver` comes from. -/
def Obligations.HdrUnsupRaisesUnsupportedVersion : Prop :=
  ∀ (v : BitVec 3) (low : BitVec 5) (s : State), 3 ≤ v.toNat →
    (∃ t, exec (.hdrUnsup v low) s = .next t ∧
      ErrorStep { code := .unsupportedVersion, phase := .header, ver := v, tag := 0, reason := 0,
                   off := 0 } s t) ∧
    (s.pc.toNat < s.bufLen.toNat → ∃ t, exec (.hdrFlags (headerByte v low)) s = .next t ∧
      ErrorStep { code := .unsupportedVersion, phase := .header, ver := v, tag := 0, reason := 0,
                   off := 0 } s t)

/-- R102, R62: HDR.V0 on a buffer that holds the header stores every field and ends at 20 + K. -/
def Obligations.HdrV0StoresTheVersion0Header : Prop :=
  ∀ (low : BitVec 5) (s : State) (k : Nat), s.pc = 1 →
    ptSet Config.params (headerByte 0 low) = true →
    k = (if sndcpSet Config.params (headerByte 0 low) then Config.params.v0SndcpBytes else 0) →
    20 + k ≤ s.bufLen.toNat →
    ∃ t, exec (.hdrV0 low) s = .next t ∧ t.st = .hEnd ∧ t.pc.toNat = 20 + k ∧
      t.lenfld = be16 (bufByte s 2) (bufByte s 3) ∧
      t.msg = { s.msg with
        msgType := bufByte s 1, msgLen := be16 (bufByte s 2) (bufByte s 3)
        seq := be16 (bufByte s 4) (bufByte s 5), seqValid := true
        sndcp := sndcpSet Config.params (headerByte 0 low)
        tid := BitVec.ofNat 64 (beNat (bufBytes s (12 + k) 8)), tidValid := true } ∧
      SameHostSide s t ∧ t.ver = s.ver ∧ t.flags = s.flags ∧ t.tag = s.tag ∧ t.last = s.last ∧
      t.word = s.word ∧ t.ieOff = s.ieOff ∧ t.leafReq = s.leafReq ∧ t.body = s.body ∧
      t.msgValid = s.msgValid ∧ t.result = s.result ∧ t.err = s.err

/-- R103, R63: HDR.V1 on a buffer that holds the header stores the fields, the sequence number only
under its flag, and the second byte of the pair as the first marker. -/
def Obligations.HdrV1StoresTheVersion1Header : Prop :=
  ∀ (low : BitVec 5) (s : State) (n : Nat), s.pc = 1 →
    ptSet Config.params (headerByte 1 low) = true →
    n = (if seqSet Config.params (headerByte 1 low) then 2 else 0) →
    10 + n ≤ s.bufLen.toNat →
    ∃ t, exec (.hdrV1 low) s = .next t ∧ t.st = .h1Ext ∧ t.pc.toNat = 10 + n ∧
      t.lenfld = be16 (bufByte s 2) (bufByte s 3) ∧ t.last = bufByte s (9 + n) ∧
      t.word = BitVec.ofNat 32 (beNat (bufBytes s 4 4)) ∧
      t.msg = { s.msg with
        msgType := bufByte s 1, msgLen := be16 (bufByte s 2) (bufByte s 3)
        teid := BitVec.ofNat 32 (beNat (bufBytes s 4 4)), teidValid := true
        seq := if n = 2 then be16 (bufByte s 8) (bufByte s 9) else s.msg.seq
        seqValid := if n = 2 then true else s.msg.seqValid } ∧
      SameHostSide s t ∧ t.ver = s.ver ∧ t.flags = s.flags ∧ t.tag = s.tag ∧
      t.ieOff = s.ieOff ∧ t.leafReq = s.leafReq ∧ t.body = s.body ∧
      t.msgValid = s.msgValid ∧ t.result = s.result ∧ t.err = s.err

/-- R104: one turn of the extension walk: 4 bytes more while the marker is 0x02, else the end; Truncated
at `pc` when fewer than 4 bytes remain. -/
def Obligations.HdrV1ExtTakesOneTurn : Prop :=
  ∀ (m : Byte) (s : State),
    (m ≠ 0x02 → exec (.hdrV1Ext m) s = .next { s with st := .hEnd }) ∧
    (m = 0x02 → s.pc.toNat + 4 ≤ s.bufLen.toNat →
      exec (.hdrV1Ext m) s = .next
        { s with last := bufByte s (s.pc.toNat + 3), pc := s.pc + 4, st := .h1Ext }) ∧
    (m = 0x02 → s.bufLen.toNat < s.pc.toNat + 4 → ∃ t, exec (.hdrV1Ext m) s = .next t ∧
      ErrorStep { code := .truncated, phase := .header, ver := s.ver, tag := 0, reason := 0,
                   off := s.pc } s t)

/-- R105, R64, R258: HDR.V2 on a buffer of exactly `4 + msg_len` bytes that holds the header: `teid` is
the top 24 bits of the secondary field, whatever the conditional field held. -/
def Obligations.HdrV2OverwritesTheTeid : Prop :=
  ∀ (low : BitVec 5) (s : State) (n : Nat), s.pc = 1 →
    n = (if teidSet Config.params (headerByte 2 low) then 4 else 0) →
    8 + n ≤ s.bufLen.toNat →
    s.bufLen.toNat = 4 + (be16 (bufByte s 2) (bufByte s 3)).toNat →
    ∃ t, exec (.hdrV2 low) s = .next t ∧ t.st = .hEnd ∧ t.pc.toNat = 8 + n ∧
      t.lenfld = be16 (bufByte s 2) (bufByte s 3) ∧
      t.word = BitVec.ofNat 32 (beNat (bufBytes s (4 + n) 4)) ∧
      t.msg = { s.msg with
        msgType := bufByte s 1, msgLen := be16 (bufByte s 2) (bufByte s 3)
        teid := BitVec.ofNat 32 (beNat (bufBytes s (4 + n) 3)), teidValid := true } ∧
      SameHostSide s t ∧ t.ver = s.ver ∧ t.flags = s.flags ∧ t.tag = s.tag ∧ t.last = s.last ∧
      t.ieOff = s.ieOff ∧ t.leafReq = s.leafReq ∧ t.body = s.body ∧
      t.msgValid = s.msgValid ∧ t.result = s.result ∧ t.err = s.err

/-- R224: a version 2 buffer whose length is not `4 + msg_len`, longer or shorter, raises LengthMismatch
once bytes 0 .. 3 are there. That the cursor and the working registers keep the values of before the
step is log 3's reading of R8. -/
def Obligations.HdrV2RaisesLengthMismatch : Prop :=
  ∀ (low : BitVec 5) (s : State), s.pc = 1 → 4 ≤ s.bufLen.toNat →
    s.bufLen.toNat ≠ 4 + (be16 (bufByte s 2) (bufByte s 3)).toNat →
    ∃ t, exec (.hdrV2 low) s = .next t ∧
      ErrorStep { code := .lengthMismatch, phase := .header, ver := s.ver, tag := 0, reason := 0,
                   off := 4 } s t

/-- R222: HDR.V0 and HDR.V1 raise NotGtp when the protocol-type flag is clear, whatever the length of
the buffer. -/
def Obligations.ClearProtocolTypeRaisesNotGtp : Prop :=
  ∀ (low : BitVec 5) (s : State) (v : BitVec 3), v = 0 ∨ v = 1 →
    ptSet Config.params (headerByte v low) = false →
    ∃ t, exec (if v = 0 then .hdrV0 low else .hdrV1 low) s = .next t ∧
      ErrorStep { code := .notGtp, phase := .header, ver := s.ver, tag := 0, reason := 0,
                   off := 0 } s t

/-- R223, R228: a header that does not fit raises Truncated at the absolute offset of the first field
that overruns the buffer, in each version (for version 2 before the framing check, and after it). That
the cursor and the working registers keep the values of before the step is log 3's reading of R8. -/
def Obligations.TruncatedNamesTheFirstFieldThatDoesNotFit : Prop :=
  ∀ (low : BitVec 5) (s : State) (off : Nat), s.pc = 1 →
    let len := s.bufLen.toNat
    let entry (i : Instr) : Prop := ∃ t, exec i s = .next t ∧
      ErrorStep { code := .truncated, phase := .header, ver := s.ver, tag := 0, reason := 0,
                   off := BitVec.ofNat Config.lenW off } s t
    (∀ k, ptSet Config.params (headerByte 0 low) = true →
      k = (if sndcpSet Config.params (headerByte 0 low) then Config.params.v0SndcpBytes else 0) →
      firstOverrun len [(1, 1), (2, 2), (4, 2), (6, 2), (8, k), (8 + k, 4), (12 + k, 8)] =
        some off → entry (.hdrV0 low)) ∧
    (ptSet Config.params (headerByte 1 low) = true →
      firstOverrun len (if seqSet Config.params (headerByte 1 low)
        then [(1, 1), (2, 2), (4, 4), (8, 2), (10, 2)] else [(1, 1), (2, 2), (4, 4), (8, 2)]) =
        some off → entry (.hdrV1 low)) ∧
    (firstOverrun len [(1, 1), (2, 2)] = some off → entry (.hdrV2 low)) ∧
    (len = 4 + (be16 (bufByte s 2) (bufByte s 3)).toNat → 4 ≤ len →
      firstOverrun len (if teidSet Config.params (headerByte 2 low) then [(4, 4), (8, 4)]
        else [(4, 4)]) = some off → entry (.hdrV2 low))

/-- R106: HDR.END records where the IEs begin and fixes the version and the body variant. -/
def Obligations.HdrEndFixesTheBodyVariant : Prop :=
  ∀ (v : BitVec 3) (low : BitVec 5) (s : State), v.toNat ≤ 2 → s.ver = v →
    s.flags = headerByte v low →
    ∃ t, exec (.hdrEnd v low) s = .next t ∧ t.st = .bFetch ∧ t.ieOff = s.pc ∧
      t.msg = { s.msg with ieOff := s.pc, version := s.ver.setWidth 2, flags := s.flags } ∧
      t.msg.version.toNat = v.toNat ∧ t.body.variant = t.msg.version ∧
      t.body.fields = s.body.fields ∧ SameHostSide s t ∧ t.pc = s.pc ∧ t.ver = s.ver ∧
      t.flags = s.flags ∧ t.tag = s.tag ∧ t.lenfld = s.lenfld ∧ t.last = s.last ∧
      t.word = s.word ∧ t.leafReq = s.leafReq ∧ t.msgValid = s.msgValid ∧
      t.result = s.result ∧ t.err = s.err

/-! ### The dispatch loop -/

/-- R131, R141, R232: IE.FETCH finishes with Success exactly at the end of the body; else it latches the
tag and goes to the registered decoder or to the fallback, the cursor staying at the tag. That the
request of R24 (2) and R73 is put on the port by this step is the model's choice, log 10. -/
def Obligations.IeFetchLooksUpTheTag : Prop :=
  ∀ (tag : Byte) (s : State),
    (s.pc = s.bufLen → exec (.ieFetch tag) s =
      .next { s with result := .success, msgValid := true, st := .done }) ∧
    (s.pc.toNat < s.bufLen.toNat → (regGet s s.ver.toNat tag).valid = true →
      ∃ t, exec (.ieFetch tag) s = .next t ∧ t.tag = tag ∧ t.st = .bCall ∧
        t.leafReq = some { decId := (regGet s s.ver.toNat tag).decId, ver := s.ver.setWidth 2,
                           tag := tag, pc := s.pc,
                           rem := BitVec.ofNat Config.lenW (s.bufLen.toNat - s.pc.toNat) } ∧
        t = { s with tag := t.tag, st := t.st, leafReq := t.leafReq }) ∧
    (s.pc.toNat < s.bufLen.toNat → (regGet s s.ver.toNat tag).valid = false →
      exec (.ieFetch tag) s = .next { s with tag := tag, st := .bFallback })

/-- R132, R73: IE.CALL gives the registered decoder the sub-buffer from the tag to the end of the message,
applies the fields it writes to BODY, whatever it answers, and does with the answer what R133 to R135
say; the answer's kind says which, kind 3 being Malformed(0xFF). The decoder DEC_IMSI is the reference
one of R145. That request and answer are one step is the model's choice, log 10. -/
def Obligations.IeCallAppliesTheDecodersAnswer : Prop :=
  (∀ (tag : Byte) (s : State),
    let r := leaf (regGet s s.ver.toNat tag).decId (s.ver.setWidth 2) (subBuf s s.pc.toNat)
      (s.bufLen.toNat - s.pc.toNat) s.body
    exec (.ieCall tag) s = .next (leafAnswered tag (leafAnsOf r.1)
      { s with body := bodyPutAll s.body r.2, leafReq := none })) ∧
  (∀ r : LeafRsp,
    (r.kind = 0 → leafAnsOf r = .notMatched) ∧ (r.kind = 1 → leafAnsOf r = .matched r.n.toNat) ∧
    (r.kind = 2 → leafAnsOf r = .malformed r.reason) ∧
    (r.kind = 3 → leafAnsOf r = .malformed 0xFF)) ∧
  (∀ (v : BitVec 2) (sub : List Byte) (rem : Nat) (body : Body),
    leaf Config.decImsi v sub rem body = leafImsi Config.params sub)

/-- R133, R134, R135, R225: what the parser does with an answer: a count between 1 and `rem` advances, any
other count is an IeDecodeError with reason 0xFE, NotMatched falls back with `pc` unchanged, Malformed
aborts with its reason. -/
def Obligations.AnswersAdvanceFallBackOrAbort : Prop :=
  ∀ (tag : Byte) (s : State),
    (∀ n, 1 ≤ n → n ≤ remBytes s →
      leafAnswered tag (.matched n) s = { s with pc := s.pc + BitVec.ofNat Config.lenW n, st := .bFetch }) ∧
    (∀ n, n = 0 ∨ remBytes s < n →
      ErrorStep { code := .ieDecodeError, phase := .body, ver := s.ver, tag := tag, reason := 0xFE,
                   off := BitVec.ofNat Config.lenW (s.pc.toNat - s.ieOff.toNat) } s
        (leafAnswered tag (.matched n) s)) ∧
    leafAnswered tag .notMatched s = { s with st := .bFallback } ∧
    (∀ x, ErrorStep { code := .ieDecodeError, phase := .body, ver := s.ver, tag := tag, reason := x,
                       off := BitVec.ofNat Config.lenW (s.pc.toNat - s.ieOff.toNat) } s
        (leafAnswered tag (.malformed x) s))

/-- R138, R139, R167, R168: a generic skip whose frame fits passes it whole, 3 + L bytes in versions 0
and 1, 4 + L in version 2. -/
def Obligations.GenericSkipsPassTheWholeFrame : Prop :=
  ∀ (s : State) (len : BitVec 16),
    len = be16 (bufByte s (s.pc.toNat + 1)) (bufByte s (s.pc.toNat + 2)) →
    (∀ low, s.pc.toNat + 3 + len.toNat ≤ s.bufLen.toNat →
      exec (.ieSkip01 low) s = .next
        { s with pc := s.pc + BitVec.ofNat Config.lenW (3 + len.toNat), lenfld := len, st := .bFetch }) ∧
    (∀ tag, s.pc.toNat + 4 + len.toNat ≤ s.bufLen.toNat →
      exec (.ieSkip2 tag) s = .next
        { s with pc := s.pc + BitVec.ofNat Config.lenW (4 + len.toNat), lenfld := len, st := .bFetch })

/-- R138, R139, R223: a generic skip whose length field or frame does not fit raises Truncated(tag, idx)
in the body phase. That `lenfld` keeps the value of before the step even where the length field fits,
although R167 and R168 write it before the last test, is log 3's reading of R8. -/
def Obligations.GenericSkipsRaiseTruncated : Prop :=
  ∀ (s : State) (len : BitVec 16), s.pc.toNat ≤ s.bufLen.toNat →
    len = be16 (bufByte s (s.pc.toNat + 1)) (bufByte s (s.pc.toNat + 2)) →
    (∀ low, remBytes s < 3 ∨ remBytes s < 3 + len.toNat →
      ∃ t, exec (.ieSkip01 low) s = .next t ∧
        ErrorStep { code := .truncated, phase := .body, ver := s.ver,
                     tag := BitVec.ofNat 8 (128 + low.toNat), reason := 0,
                     off := BitVec.ofNat Config.lenW (s.pc.toNat - s.ieOff.toNat) } s t) ∧
    (∀ tag, remBytes s < 3 ∨ remBytes s < 4 + len.toNat →
      ∃ t, exec (.ieSkip2 tag) s = .next t ∧
        ErrorStep { code := .truncated, phase := .body, ver := s.ver, tag := tag, reason := 0,
                     off := BitVec.ofNat Config.lenW (s.pc.toNat - s.ieOff.toNat) } s t)

/-- R140, R226: IE.STOP raises BodyIncomplete(tag, idx). -/
def Obligations.IeStopRaisesBodyIncomplete : Prop :=
  ∀ (low : BitVec 7) (s : State),
    ∃ t, exec (.ieStop low) s = .next t ∧
      ErrorStep { code := .bodyIncomplete, phase := .body, ver := s.ver,
                   tag := BitVec.ofNat 8 low.toNat, reason := 0,
                   off := BitVec.ofNat Config.lenW (s.pc.toNat - s.ieOff.toNat) } s t

/-- R144: in versions 0 and 1 an unregistered tag with the high bit set and a length field that fits is
passed in two steps and the loop goes on; with the high bit clear the decode stops with
BodyIncomplete. -/
def Obligations.UnknownTagTolerance : Prop :=
  ∀ (s : State) (tag : Byte) (len : BitVec 16), s.st = .bFetch → s.inputs = [] → s.ver ≠ 2 →
    s.pc.toNat < s.bufLen.toNat → tag = bufByte s s.pc.toNat →
    (regGet s s.ver.toNat tag).valid = false →
    len = be16 (bufByte s (s.pc.toNat + 1)) (bufByte s (s.pc.toNat + 2)) →
    (128 ≤ tag.toNat → s.pc.toNat + 3 + len.toNat ≤ s.bufLen.toNat →
      ∃ t, runSteps 2 s = .next t ∧ t.st = .bFetch ∧ t.pc.toNat = s.pc.toNat + 3 + len.toNat ∧
        SameHostSide s t ∧ SameOutput s t) ∧
    (tag.toNat < 128 → ∃ t, runSteps 2 s = .next t ∧
      ErrorEntry { code := .bodyIncomplete, phase := .body, ver := s.ver, tag := tag, reason := 0,
                   off := BitVec.ofNat Config.lenW (s.pc.toNat - s.ieOff.toNat) } s t)

/-! ### Field readers and frame primitives -/

/-- R160 to R163: each field reader completes in every state and delivers the value it read. Called inside
the outstanding invocation it reads the big-endian value of its bytes when they fit, else the caller
gets the bounds failure; nothing else changes. -/
def Obligations.FieldReadersDeliverBigEndianValues : Prop :=
  (∀ s : State,
    (∀ v : BitVec 8, ∃ t, exec (.rdU8 v) s = .next t ∧
      OnlyAnswer (.field (BitVec.ofNat 64 v.toNat)) s t) ∧
    (∀ v : BitVec 16, ∃ t, exec (.rdBe16 v) s = .next t ∧
      OnlyAnswer (.field (BitVec.ofNat 64 v.toNat)) s t) ∧
    (∀ v : BitVec 32, ∃ t, exec (.rdBe32 v) s = .next t ∧
      OnlyAnswer (.field (BitVec.ofNat 64 v.toNat)) s t) ∧
    (∀ v : BitVec 64, ∃ t, exec (.rdBe64 v) s = .next t ∧
      OnlyAnswer (.field (BitVec.ofNat 64 v.toNat)) s t)) ∧
  (∀ (s s' : State) (o : Off) (r : List Input) (q : LeafReq) (n : Nat) (call : UnitCall),
    (call, n) = (.rdU8 o, 1) ∨ (call, n) = (.rdBe16 o, 2) ∨ (call, n) = (.rdBe32 o, 4) ∨
      (call, n) = (.rdBe64 o, 8) →
    s.inputs = .unitCall call :: r → s.leafReq = some q → s' = { s with inputs := r } →
    (s.pc.toNat + o.toNat + n ≤ s.bufLen.toNat →
      ∃ t, step s = .next t ∧ OnlyAnswer
        (.field (BitVec.ofNat 64 (beNat (bufBytes s (s.pc.toNat + o.toNat) n)))) s' t) ∧
    (s.bufLen.toNat < s.pc.toNat + o.toNat + n →
      ∃ t, step s = .next t ∧ OnlyAnswer (.frame (.malformed 0x01)) s' t))

/-- R164, R171: TV compares the tag before the bounds, and delivers exactly the N value bytes. -/
def Obligations.TvSplitsTheFrame : Prop :=
  ∀ (sub : List Byte) (expected : Byte) (n : BitVec 16) (s : State),
    ∃ t a, exec (.tv sub expected n) s = .next t ∧ OnlyAnswer (.frame a) s t ∧
      (sub.length = 0 → a = .malformed 0x01) ∧
      (∀ x, sub[0]? = some x → x ≠ expected → a = .notMatched) ∧
      (sub[0]? = some expected → sub.length < 1 + n.toNat → a = .malformed 0x01) ∧
      (sub[0]? = some expected → 1 + n.toNat ≤ sub.length →
        ∃ value, a = .matched (1 + n.toNat) none none value ∧ value.length = n.toNat ∧
          ∀ j, j < n.toNat → value[j]? = sub[1 + j]?)

/-- R165, R171: TLV01 compares the tag before the bounds, needs the length field and then 3 + L bytes,
and delivers the L value bytes behind the prefix. -/
def Obligations.Tlv01SplitsTheFrame : Prop :=
  ∀ (sub : List Byte) (expected : Byte) (s : State),
    ∃ t a, exec (.tlv01 sub expected) s = .next t ∧ OnlyAnswer (.frame a) s t ∧
      (sub.length = 0 → a = .malformed 0x01) ∧
      (∀ x, sub[0]? = some x → x ≠ expected → a = .notMatched) ∧
      (sub[0]? = some expected → sub.length < 3 → a = .malformed 0x01) ∧
      (∀ hi lo, sub[0]? = some expected → sub[1]? = some hi → sub[2]? = some lo →
        (sub.length < 3 + (256 * hi.toNat + lo.toNat) → a = .malformed 0x01) ∧
        (3 + (256 * hi.toNat + lo.toNat) ≤ sub.length →
          ∃ len value, a = .matched (3 + len.toNat) (some len) none value ∧
            len.toNat = 256 * hi.toNat + lo.toNat ∧ value.length = len.toNat ∧
            ∀ j, j < len.toNat → value[j]? = sub[3 + j]?))

/-- R166, R171: TLV2 likewise with 4 + L bytes, the instance byte delivered whole. -/
def Obligations.Tlv2SplitsTheFrame : Prop :=
  ∀ (sub : List Byte) (expected : Byte) (s : State),
    ∃ t a, exec (.tlv2 sub expected) s = .next t ∧ OnlyAnswer (.frame a) s t ∧
      (sub.length = 0 → a = .malformed 0x01) ∧
      (∀ x, sub[0]? = some x → x ≠ expected → a = .notMatched) ∧
      (sub[0]? = some expected → sub.length < 3 → a = .malformed 0x01) ∧
      (∀ hi lo, sub[0]? = some expected → sub[1]? = some hi → sub[2]? = some lo →
        (sub.length < 4 + (256 * hi.toNat + lo.toNat) → a = .malformed 0x01) ∧
        (4 + (256 * hi.toNat + lo.toNat) ≤ sub.length →
          ∃ len inst value, a = .matched (4 + len.toNat) (some len) (some inst) value ∧
            len.toNat = 256 * hi.toNat + lo.toNat ∧ sub[3]? = some inst ∧
            value.length = len.toNat ∧ ∀ j, j < len.toNat → value[j]? = sub[4 + j]?))

/-- R167, R168, R11, R48: the generic skips answer Matched(3 + L) or Matched(4 + L) or the bounds
failure, never NotMatched; the parser's call latches the length field when it fits, a leaf decoder's
call latches nothing (which call it is, log 8); nothing else changes. -/
def Obligations.SkipPrimitivesAnswerTheFrameSize : Prop :=
  ∀ (sub : List Byte) (s : State) (size : Nat) (i : Instr),
    (i, size) = (.skip01 sub, 3) ∨ (i, size) = (.skip2 sub, 4) →
    ∃ t a, exec i s = .next t ∧
      OnlyAnswer (.frame a) { s with lenfld := t.lenfld } t ∧
      (sub.length < 3 → a = .malformed 0x01 ∧ t.lenfld = s.lenfld) ∧
      (∀ hi lo, sub[1]? = some hi → sub[2]? = some lo →
        (s.leafReq = none → t.lenfld.toNat = 256 * hi.toNat + lo.toNat) ∧
        (s.leafReq ≠ none → t.lenfld = s.lenfld) ∧
        a = if sub.length < size + (256 * hi.toNat + lo.toNat) then .malformed 0x01
          else .matched (size + (256 * hi.toNat + lo.toNat)) none none [])

/-- R169: a Matched answer of a core primitive always has `1 <= n <= rem`. -/
def Obligations.MatchedCountsLieInsideTheSubBuffer : Prop :=
  ∀ (k : SplitKind) (sub : List Byte) (expected : Byte) (n : Nat) (len : Option (BitVec 16))
    (inst : Option Byte) (value : List Byte),
    splitReference k sub expected = .matched n len inst value → 1 ≤ n ∧ n ≤ sub.length

/-- R170: the byte-serial splitter gives the same answers as the frame primitives, within three steps
more than the sub-buffer has bytes. -/
def Obligations.ByteSerialSplitterGivesTheSameAnswers : Prop :=
  ∀ (k : SplitKind) (sub : List Byte) (expected : Byte),
    ∃ m, m ≤ sub.length + 3 ∧
      (splitRun k sub expected m splitStart).st = .sDone (splitReference k sub expected)

/-! ### The codec -/

/-- R180, R182, R183: BCD.DEC delivers `count` characters, the k-th being NibbleChar of the k-th nibble,
low nibble first, the last nibble dropped when it is 0xF; it rejects zero-length input, a capacity below
`2n` and an Invalid nibble, and delivers nothing then. -/
def Obligations.BcdDecDeliversTheDigits : Prop :=
  ∀ (src : List Byte) (cap : Nat) (s : State) (nib : Nat → Option (BitVec 4)) (count : Nat),
    (∀ k, nib k = (src[k / 2]?).map fun b =>
      if k % 2 = 0 then b.extractLsb' 0 4 else b.extractLsb' 4 4) →
    count = (if nib (2 * src.length - 1) = some 0xF then 2 * src.length - 1
      else 2 * src.length) →
    ∃ t a, exec (.bcdDec src cap) s = .next t ∧ OnlyAnswer (.bcd a) s t ∧
      (src.length = 0 ∨ cap < 2 * src.length → a = .reject) ∧
      ((∃ k, k < count ∧ (nib k).bind (nibbleChar Config.params) = none) → a = .reject) ∧
      (src.length ≠ 0 → 2 * src.length ≤ cap →
        (∀ k, k < count → ((nib k).bind (nibbleChar Config.params)).isSome) →
        ∃ digits, a = .ok src.length count digits ∧ digits.length = count ∧
          ∀ k, k < count → digits[k]? = (nib k).bind (nibbleChar Config.params))

/-- R181: NibbleChar. -/
def Obligations.NibbleCharTable : Prop :=
  (∀ nib : BitVec 4, nib.toNat ≤ 9 →
    ∃ c, nibbleChar Config.params nib = some c ∧ c.toNat = 0x30 + nib.toNat) ∧
  nibbleChar Config.params 0xA = some 0x2A ∧ nibbleChar Config.params 0xB = some 0x23 ∧
  (∀ nib : BitVec 4, 0xC ≤ nib.toNat → nibbleChar Config.params nib = none)

/-- R186: encoding a digit string and decoding it gives it back, for every non-empty string over `0` ..
`9`, `*` and `#`. -/
def Obligations.BcdRoundTrip : Prop :=
  ∀ d : List Byte, d ≠ [] → (∀ c ∈ d, digitChar c = true) →
    bcdDecode Config.params (bcdEncode d) (2 * (bcdEncode d).length) =
      .ok ((d.length + 1) / 2) d.length d

/-- R185: the byte-serial codec gives the same answers, for every choice of BCD_OTHER. -/
def Obligations.ByteSerialCodecGivesTheSameAnswers : Prop :=
  ∀ (p : Params) (src : List Byte) (cap : Nat), bcdSerial p src cap = bcdDecode p src cap

/-- R184, R70: PLMN.LAC on five bytes, digit by digit: MCC from the first three nibbles, MNC of two digits
when the flag nibble is 0xF and of three else, the LAC big-endian; fewer than five bytes or an Invalid
nibble is Malformed. That a flag nibble other than the filler is the third MNC digit is the spec's
decision D30, from general knowledge, and the two Malformed answers are its decision D35. -/
def Obligations.PlmnLacSplitsTheTriplet : Prop :=
  ∀ (src : List Byte) (s : State),
    ∃ t a, exec (.plmnLac src) s = .next t ∧ OnlyAnswer (.plmn a) s t ∧
      (src.length < 5 → a = .malformed 0x01) ∧
      (∀ (m1 m2 m3 f n1 n2 : BitVec 4) (l1 l2 : Byte) (rest : List Byte),
        src = (m2 ++ m1) :: (f ++ m3) :: (n2 ++ n1) :: l1 :: l2 :: rest →
        let ch := nibbleChar Config.params
        (∀ c1 c2 c3 d1 d2, ch m1 = some c1 → ch m2 = some c2 → ch m3 = some c3 →
          ch n1 = some d1 → ch n2 = some d2 →
          (f = 0xF → a = .ok 5 [c1, c2, c3] [d1, d2] (be16 l1 l2)) ∧
          (∀ d3, f ≠ 0xF → ch f = some d3 → a = .ok 5 [c1, c2, c3] [d1, d2, d3] (be16 l1 l2)) ∧
          (f ≠ 0xF → ch f = none → a = .malformed 0x02)) ∧
        (ch m1 = none ∨ ch m2 = none ∨ ch m3 = none ∨ ch n1 = none ∨ ch n2 = none →
          a = .malformed 0x02))

/-! ### Leaf decoders -/

/-- R145: LEAF.IMSI on a frame 0x02 with eight BCD bytes writes the digit string to BODY.field[F_IMSI]
and answers Matched(9). -/
def Obligations.LeafImsiWritesTheDigits : Prop :=
  ∀ (value rest : List Byte) (s : State) (count : Nat) (digits : List Byte),
    value.length = 8 → bodyWf s.body = true →
    bcdDecode Config.params value 16 = .ok 8 count digits →
    ∃ t, exec (.leafImsi (0x02 :: value ++ rest)) s = .next t ∧
      t.ans = .leaf { kind := 1, n := 9, reason := 0 } ∧
      bodyGet t.body 0x02 = { present := true, len := count, data := digits } ∧
      (∀ f, f ≠ 0x02 → bodyGet t.body f = bodyGet s.body f) ∧
      t.body.variant = s.body.variant ∧ bodyWf t.body = true ∧
      SameBuffer s t ∧ SameRegistry s t ∧ SameCommand s t ∧ SameWorking s t ∧
      t.msg = s.msg ∧ t.msgValid = s.msgValid ∧ t.result = s.result ∧ t.err = s.err ∧
      t.inputs = s.inputs ∧ t.rdata = s.rdata ∧ t.bodyData = s.bodyData

/-- R145: LEAF.IMSI writes nothing when it does not match: NotMatched on another tag, Malformed(0x01) on
fewer than nine bytes, Malformed(0x02) on a codec reject. -/
def Obligations.LeafImsiFailuresWriteNothing : Prop :=
  ∀ (sub : List Byte) (s : State) (rsp : LeafRsp),
    ((∃ x, sub[0]? = some x ∧ x ≠ 0x02) ∧ rsp = { kind := 0, n := 0, reason := 0 }) ∨
    (sub[0]?.getD 0x02 = 0x02 ∧ sub.length < 9 ∧
      rsp = { kind := 2, n := 0, reason := 0x01 }) ∨
    (sub[0]? = some 0x02 ∧ 9 ≤ sub.length ∧
      bcdDecode Config.params ((sub.drop 1).take 8) 16 = .reject ∧
      rsp = { kind := 2, n := 0, reason := 0x02 }) →
    ∃ t, exec (.leafImsi sub) s = .next t ∧ OnlyAnswer (.leaf rsp) s t

/-- R137 (b) to (e), R145: the reference decoder obeys these clauses of the decoder-function contract,
for every choice of the parameters: a Matched count is between 1 and `rem`; NotMatched exactly when the
tag differs; Malformed only when the frame does not fit, with reason 0x01, or the codec rejects its
value, with reason 0x02; it writes no BODY field but F_IMSI, and nothing with NotMatched. -/
def Obligations.ReferenceDecoderConforms : Prop :=
  ∀ (p : Params) (sub : List Byte), sub.length < 131072 → sub ≠ [] →
    conformingAnswer sub.length (leafImsi p sub) ∧
    (leafAnsOf (leafImsi p sub).1 = .notMatched ↔ sub[0]? ≠ some 0x02) ∧
    (∀ x, leafAnsOf (leafImsi p sub).1 = .malformed x →
      (x = 0x01 ∧ sub.length < 9) ∨
      (x = 0x02 ∧ 9 ≤ sub.length ∧ bcdDecode p ((sub.drop 1).take 8) 16 = .reject)) ∧
    (∀ w ∈ (leafImsi p sub).2, w.1 = 0x02)
end

