-- ==== Sys2Proof/Laws/State.lean ====
section
/-! SUPPORT. One lemma per field and named update of the state, each true by definition, so that no later
proof unfolds a record update. -/

namespace Sys2Proof.Machine

/-! ### advance -/

@[simp] theorem advance_buf (w : Nat) (s : State) : (advance w s).buf = s.buf := rfl
@[simp] theorem advance_bufLen (w : Nat) (s : State) : (advance w s).bufLen = s.bufLen := rfl
@[simp] theorem advance_reg (w : Nat) (s : State) : (advance w s).reg = s.reg := rfl
@[simp] theorem advance_ver (w : Nat) (s : State) : (advance w s).ver = s.ver := rfl
@[simp] theorem advance_flags (w : Nat) (s : State) : (advance w s).flags = s.flags := rfl
@[simp] theorem advance_tag (w : Nat) (s : State) : (advance w s).tag = s.tag := rfl
@[simp] theorem advance_lenfld (w : Nat) (s : State) : (advance w s).lenfld = s.lenfld := rfl
@[simp] theorem advance_last (w : Nat) (s : State) : (advance w s).last = s.last := rfl
@[simp] theorem advance_word (w : Nat) (s : State) : (advance w s).word = s.word := rfl
@[simp] theorem advance_pc (w : Nat) (s : State) :
    (advance w s).pc = BitVec.ofNat Config.lenW (s.pc.toNat + w) := rfl
@[simp] theorem advance_ieOff (w : Nat) (s : State) : (advance w s).ieOff = s.ieOff := rfl
@[simp] theorem advance_st (w : Nat) (s : State) : (advance w s).st = s.st := rfl
@[simp] theorem advance_msg (w : Nat) (s : State) : (advance w s).msg = s.msg := rfl
@[simp] theorem advance_body (w : Nat) (s : State) : (advance w s).body = s.body := rfl
@[simp] theorem advance_msgValid (w : Nat) (s : State) : (advance w s).msgValid = s.msgValid := rfl
@[simp] theorem advance_result (w : Nat) (s : State) : (advance w s).result = s.result := rfl
@[simp] theorem advance_err (w : Nat) (s : State) : (advance w s).err = s.err := rfl
@[simp] theorem advance_cmdResult (w : Nat) (s : State) :
    (advance w s).cmdResult = s.cmdResult := rfl
@[simp] theorem advance_cmdArg (w : Nat) (s : State) : (advance w s).cmdArg = s.cmdArg := rfl
@[simp] theorem advance_initDone (w : Nat) (s : State) : (advance w s).initDone = s.initDone := rfl
@[simp] theorem advance_viol (w : Nat) (s : State) : (advance w s).viol = s.viol := rfl
@[simp] theorem advance_leafReq (w : Nat) (s : State) : (advance w s).leafReq = s.leafReq := rfl
@[simp] theorem advance_epoch (w : Nat) (s : State) : (advance w s).epoch = s.epoch := rfl
@[simp] theorem advance_inputs (w : Nat) (s : State) : (advance w s).inputs = s.inputs := rfl
@[simp] theorem advance_rdata (w : Nat) (s : State) : (advance w s).rdata = s.rdata := rfl
@[simp] theorem advance_bodyData (w : Nat) (s : State) : (advance w s).bodyData = s.bodyData := rfl
@[simp] theorem advance_ans (w : Nat) (s : State) : (advance w s).ans = s.ans := rfl

/-! ### goto -/

@[simp] theorem goto_buf (x : St) (s : State) : (goto x s).buf = s.buf := rfl
@[simp] theorem goto_bufLen (x : St) (s : State) : (goto x s).bufLen = s.bufLen := rfl
@[simp] theorem goto_reg (x : St) (s : State) : (goto x s).reg = s.reg := rfl
@[simp] theorem goto_ver (x : St) (s : State) : (goto x s).ver = s.ver := rfl
@[simp] theorem goto_flags (x : St) (s : State) : (goto x s).flags = s.flags := rfl
@[simp] theorem goto_tag (x : St) (s : State) : (goto x s).tag = s.tag := rfl
@[simp] theorem goto_lenfld (x : St) (s : State) : (goto x s).lenfld = s.lenfld := rfl
@[simp] theorem goto_last (x : St) (s : State) : (goto x s).last = s.last := rfl
@[simp] theorem goto_word (x : St) (s : State) : (goto x s).word = s.word := rfl
@[simp] theorem goto_pc (x : St) (s : State) : (goto x s).pc = s.pc := rfl
@[simp] theorem goto_ieOff (x : St) (s : State) : (goto x s).ieOff = s.ieOff := rfl
@[simp] theorem goto_st (x : St) (s : State) : (goto x s).st = x := rfl
@[simp] theorem goto_msg (x : St) (s : State) : (goto x s).msg = s.msg := rfl
@[simp] theorem goto_body (x : St) (s : State) : (goto x s).body = s.body := rfl
@[simp] theorem goto_msgValid (x : St) (s : State) : (goto x s).msgValid = s.msgValid := rfl
@[simp] theorem goto_result (x : St) (s : State) : (goto x s).result = s.result := rfl
@[simp] theorem goto_err (x : St) (s : State) : (goto x s).err = s.err := rfl
@[simp] theorem goto_cmdResult (x : St) (s : State) : (goto x s).cmdResult = s.cmdResult := rfl
@[simp] theorem goto_cmdArg (x : St) (s : State) : (goto x s).cmdArg = s.cmdArg := rfl
@[simp] theorem goto_initDone (x : St) (s : State) : (goto x s).initDone = s.initDone := rfl
@[simp] theorem goto_viol (x : St) (s : State) : (goto x s).viol = s.viol := rfl
@[simp] theorem goto_leafReq (x : St) (s : State) : (goto x s).leafReq = s.leafReq := rfl
@[simp] theorem goto_epoch (x : St) (s : State) : (goto x s).epoch = s.epoch := rfl
@[simp] theorem goto_inputs (x : St) (s : State) : (goto x s).inputs = s.inputs := rfl
@[simp] theorem goto_rdata (x : St) (s : State) : (goto x s).rdata = s.rdata := rfl
@[simp] theorem goto_bodyData (x : St) (s : State) : (goto x s).bodyData = s.bodyData := rfl
@[simp] theorem goto_ans (x : St) (s : State) : (goto x s).ans = s.ans := rfl

/-! ### latchByte0 -/

@[simp] theorem latchByte0_buf (b : Byte) (s : State) : (latchByte0 b s).buf = s.buf := rfl
@[simp] theorem latchByte0_bufLen (b : Byte) (s : State) : (latchByte0 b s).bufLen = s.bufLen := rfl
@[simp] theorem latchByte0_reg (b : Byte) (s : State) : (latchByte0 b s).reg = s.reg := rfl
@[simp] theorem latchByte0_ver (b : Byte) (s : State) : (latchByte0 b s).ver = versionBits b := rfl
@[simp] theorem latchByte0_flags (b : Byte) (s : State) : (latchByte0 b s).flags = b := rfl
@[simp] theorem latchByte0_tag (b : Byte) (s : State) : (latchByte0 b s).tag = s.tag := rfl
@[simp] theorem latchByte0_lenfld (b : Byte) (s : State) : (latchByte0 b s).lenfld = s.lenfld := rfl
@[simp] theorem latchByte0_last (b : Byte) (s : State) : (latchByte0 b s).last = b := rfl
@[simp] theorem latchByte0_word (b : Byte) (s : State) : (latchByte0 b s).word = s.word := rfl
@[simp] theorem latchByte0_pc (b : Byte) (s : State) : (latchByte0 b s).pc = 1 := rfl
@[simp] theorem latchByte0_ieOff (b : Byte) (s : State) : (latchByte0 b s).ieOff = s.ieOff := rfl
@[simp] theorem latchByte0_st (b : Byte) (s : State) : (latchByte0 b s).st = s.st := rfl
@[simp] theorem latchByte0_msg (b : Byte) (s : State) : (latchByte0 b s).msg = s.msg := rfl
@[simp] theorem latchByte0_body (b : Byte) (s : State) : (latchByte0 b s).body = s.body := rfl
@[simp] theorem latchByte0_msgValid (b : Byte) (s : State) :
    (latchByte0 b s).msgValid = s.msgValid := rfl
@[simp] theorem latchByte0_result (b : Byte) (s : State) : (latchByte0 b s).result = s.result := rfl
@[simp] theorem latchByte0_err (b : Byte) (s : State) : (latchByte0 b s).err = s.err := rfl
@[simp] theorem latchByte0_cmdResult (b : Byte) (s : State) :
    (latchByte0 b s).cmdResult = s.cmdResult := rfl
@[simp] theorem latchByte0_cmdArg (b : Byte) (s : State) : (latchByte0 b s).cmdArg = s.cmdArg := rfl
@[simp] theorem latchByte0_initDone (b : Byte) (s : State) :
    (latchByte0 b s).initDone = s.initDone := rfl
@[simp] theorem latchByte0_viol (b : Byte) (s : State) : (latchByte0 b s).viol = s.viol := rfl
@[simp] theorem latchByte0_leafReq (b : Byte) (s : State) :
    (latchByte0 b s).leafReq = s.leafReq := rfl
@[simp] theorem latchByte0_epoch (b : Byte) (s : State) : (latchByte0 b s).epoch = s.epoch := rfl
@[simp] theorem latchByte0_inputs (b : Byte) (s : State) : (latchByte0 b s).inputs = s.inputs := rfl
@[simp] theorem latchByte0_rdata (b : Byte) (s : State) : (latchByte0 b s).rdata = s.rdata := rfl
@[simp] theorem latchByte0_bodyData (b : Byte) (s : State) :
    (latchByte0 b s).bodyData = s.bodyData := rfl
@[simp] theorem latchByte0_ans (b : Byte) (s : State) : (latchByte0 b s).ans = s.ans := rfl

/-! ### answer -/

@[simp] theorem answer_buf (a : UnitAns) (s : State) : (answer a s).buf = s.buf := rfl
@[simp] theorem answer_bufLen (a : UnitAns) (s : State) : (answer a s).bufLen = s.bufLen := rfl
@[simp] theorem answer_reg (a : UnitAns) (s : State) : (answer a s).reg = s.reg := rfl
@[simp] theorem answer_ver (a : UnitAns) (s : State) : (answer a s).ver = s.ver := rfl
@[simp] theorem answer_flags (a : UnitAns) (s : State) : (answer a s).flags = s.flags := rfl
@[simp] theorem answer_tag (a : UnitAns) (s : State) : (answer a s).tag = s.tag := rfl
@[simp] theorem answer_lenfld (a : UnitAns) (s : State) : (answer a s).lenfld = s.lenfld := rfl
@[simp] theorem answer_last (a : UnitAns) (s : State) : (answer a s).last = s.last := rfl
@[simp] theorem answer_word (a : UnitAns) (s : State) : (answer a s).word = s.word := rfl
@[simp] theorem answer_pc (a : UnitAns) (s : State) : (answer a s).pc = s.pc := rfl
@[simp] theorem answer_ieOff (a : UnitAns) (s : State) : (answer a s).ieOff = s.ieOff := rfl
@[simp] theorem answer_st (a : UnitAns) (s : State) : (answer a s).st = s.st := rfl
@[simp] theorem answer_msg (a : UnitAns) (s : State) : (answer a s).msg = s.msg := rfl
@[simp] theorem answer_body (a : UnitAns) (s : State) : (answer a s).body = s.body := rfl
@[simp] theorem answer_msgValid (a : UnitAns) (s : State) :
    (answer a s).msgValid = s.msgValid := rfl
@[simp] theorem answer_result (a : UnitAns) (s : State) : (answer a s).result = s.result := rfl
@[simp] theorem answer_err (a : UnitAns) (s : State) : (answer a s).err = s.err := rfl
@[simp] theorem answer_cmdResult (a : UnitAns) (s : State) :
    (answer a s).cmdResult = s.cmdResult := rfl
@[simp] theorem answer_cmdArg (a : UnitAns) (s : State) : (answer a s).cmdArg = s.cmdArg := rfl
@[simp] theorem answer_initDone (a : UnitAns) (s : State) :
    (answer a s).initDone = s.initDone := rfl
@[simp] theorem answer_viol (a : UnitAns) (s : State) : (answer a s).viol = s.viol := rfl
@[simp] theorem answer_leafReq (a : UnitAns) (s : State) : (answer a s).leafReq = s.leafReq := rfl
@[simp] theorem answer_epoch (a : UnitAns) (s : State) : (answer a s).epoch = s.epoch := rfl
@[simp] theorem answer_inputs (a : UnitAns) (s : State) : (answer a s).inputs = s.inputs := rfl
@[simp] theorem answer_rdata (a : UnitAns) (s : State) : (answer a s).rdata = s.rdata := rfl
@[simp] theorem answer_bodyData (a : UnitAns) (s : State) :
    (answer a s).bodyData = s.bodyData := rfl
@[simp] theorem answer_ans (a : UnitAns) (s : State) : (answer a s).ans = a := rfl

/-! ### reply -/

@[simp] theorem reply_buf (r : CmdResult) (s : State) : (reply r s).buf = s.buf := rfl
@[simp] theorem reply_bufLen (r : CmdResult) (s : State) : (reply r s).bufLen = s.bufLen := rfl
@[simp] theorem reply_reg (r : CmdResult) (s : State) : (reply r s).reg = s.reg := rfl
@[simp] theorem reply_ver (r : CmdResult) (s : State) : (reply r s).ver = s.ver := rfl
@[simp] theorem reply_flags (r : CmdResult) (s : State) : (reply r s).flags = s.flags := rfl
@[simp] theorem reply_tag (r : CmdResult) (s : State) : (reply r s).tag = s.tag := rfl
@[simp] theorem reply_lenfld (r : CmdResult) (s : State) : (reply r s).lenfld = s.lenfld := rfl
@[simp] theorem reply_last (r : CmdResult) (s : State) : (reply r s).last = s.last := rfl
@[simp] theorem reply_word (r : CmdResult) (s : State) : (reply r s).word = s.word := rfl
@[simp] theorem reply_pc (r : CmdResult) (s : State) : (reply r s).pc = s.pc := rfl
@[simp] theorem reply_ieOff (r : CmdResult) (s : State) : (reply r s).ieOff = s.ieOff := rfl
@[simp] theorem reply_st (r : CmdResult) (s : State) : (reply r s).st = s.st := rfl
@[simp] theorem reply_msg (r : CmdResult) (s : State) : (reply r s).msg = s.msg := rfl
@[simp] theorem reply_body (r : CmdResult) (s : State) : (reply r s).body = s.body := rfl
@[simp] theorem reply_msgValid (r : CmdResult) (s : State) :
    (reply r s).msgValid = s.msgValid := rfl
@[simp] theorem reply_result (r : CmdResult) (s : State) : (reply r s).result = s.result := rfl
@[simp] theorem reply_err (r : CmdResult) (s : State) : (reply r s).err = s.err := rfl
@[simp] theorem reply_cmdResult (r : CmdResult) (s : State) : (reply r s).cmdResult = r := rfl
@[simp] theorem reply_cmdArg (r : CmdResult) (s : State) : (reply r s).cmdArg = s.cmdArg := rfl
@[simp] theorem reply_initDone (r : CmdResult) (s : State) :
    (reply r s).initDone = s.initDone := rfl
@[simp] theorem reply_viol (r : CmdResult) (s : State) : (reply r s).viol = s.viol := rfl
@[simp] theorem reply_leafReq (r : CmdResult) (s : State) : (reply r s).leafReq = s.leafReq := rfl
@[simp] theorem reply_epoch (r : CmdResult) (s : State) : (reply r s).epoch = s.epoch := rfl
@[simp] theorem reply_inputs (r : CmdResult) (s : State) : (reply r s).inputs = s.inputs := rfl
@[simp] theorem reply_rdata (r : CmdResult) (s : State) : (reply r s).rdata = s.rdata := rfl
@[simp] theorem reply_bodyData (r : CmdResult) (s : State) :
    (reply r s).bodyData = s.bodyData := rfl
@[simp] theorem reply_ans (r : CmdResult) (s : State) : (reply r s).ans = s.ans := rfl

/-! ### violate -/

@[simp] theorem violate_buf (s : State) : (violate s).buf = s.buf := rfl
@[simp] theorem violate_bufLen (s : State) : (violate s).bufLen = s.bufLen := rfl
@[simp] theorem violate_reg (s : State) : (violate s).reg = s.reg := rfl
@[simp] theorem violate_ver (s : State) : (violate s).ver = s.ver := rfl
@[simp] theorem violate_flags (s : State) : (violate s).flags = s.flags := rfl
@[simp] theorem violate_tag (s : State) : (violate s).tag = s.tag := rfl
@[simp] theorem violate_lenfld (s : State) : (violate s).lenfld = s.lenfld := rfl
@[simp] theorem violate_last (s : State) : (violate s).last = s.last := rfl
@[simp] theorem violate_word (s : State) : (violate s).word = s.word := rfl
@[simp] theorem violate_pc (s : State) : (violate s).pc = s.pc := rfl
@[simp] theorem violate_ieOff (s : State) : (violate s).ieOff = s.ieOff := rfl
@[simp] theorem violate_st (s : State) : (violate s).st = s.st := rfl
@[simp] theorem violate_msg (s : State) : (violate s).msg = s.msg := rfl
@[simp] theorem violate_body (s : State) : (violate s).body = s.body := rfl
@[simp] theorem violate_msgValid (s : State) : (violate s).msgValid = s.msgValid := rfl
@[simp] theorem violate_result (s : State) : (violate s).result = s.result := rfl
@[simp] theorem violate_err (s : State) : (violate s).err = s.err := rfl
@[simp] theorem violate_cmdResult (s : State) : (violate s).cmdResult = s.cmdResult := rfl
@[simp] theorem violate_cmdArg (s : State) : (violate s).cmdArg = s.cmdArg := rfl
@[simp] theorem violate_initDone (s : State) : (violate s).initDone = s.initDone := rfl
@[simp] theorem violate_viol (s : State) : (violate s).viol = true := rfl
@[simp] theorem violate_leafReq (s : State) : (violate s).leafReq = s.leafReq := rfl
@[simp] theorem violate_epoch (s : State) : (violate s).epoch = s.epoch := rfl
@[simp] theorem violate_inputs (s : State) : (violate s).inputs = s.inputs := rfl
@[simp] theorem violate_rdata (s : State) : (violate s).rdata = s.rdata := rfl
@[simp] theorem violate_bodyData (s : State) : (violate s).bodyData = s.bodyData := rfl
@[simp] theorem violate_ans (s : State) : (violate s).ans = s.ans := rfl

/-! ### latchLength -/

@[simp] theorem latchLength_buf (l : BitVec 16) (s : State) : (latchLength l s).buf = s.buf := rfl
@[simp] theorem latchLength_bufLen (l : BitVec 16) (s : State) :
    (latchLength l s).bufLen = s.bufLen := rfl
@[simp] theorem latchLength_reg (l : BitVec 16) (s : State) : (latchLength l s).reg = s.reg := rfl
@[simp] theorem latchLength_ver (l : BitVec 16) (s : State) : (latchLength l s).ver = s.ver := rfl
@[simp] theorem latchLength_flags (l : BitVec 16) (s : State) :
    (latchLength l s).flags = s.flags := rfl
@[simp] theorem latchLength_tag (l : BitVec 16) (s : State) : (latchLength l s).tag = s.tag := rfl
@[simp] theorem latchLength_lenfld (l : BitVec 16) (s : State) :
    (latchLength l s).lenfld = l := rfl
@[simp] theorem latchLength_last (l : BitVec 16) (s : State) :
    (latchLength l s).last = s.last := rfl
@[simp] theorem latchLength_word (l : BitVec 16) (s : State) :
    (latchLength l s).word = s.word := rfl
@[simp] theorem latchLength_pc (l : BitVec 16) (s : State) : (latchLength l s).pc = s.pc := rfl
@[simp] theorem latchLength_ieOff (l : BitVec 16) (s : State) :
    (latchLength l s).ieOff = s.ieOff := rfl
@[simp] theorem latchLength_st (l : BitVec 16) (s : State) : (latchLength l s).st = s.st := rfl
@[simp] theorem latchLength_msg (l : BitVec 16) (s : State) : (latchLength l s).msg = s.msg := rfl
@[simp] theorem latchLength_body (l : BitVec 16) (s : State) :
    (latchLength l s).body = s.body := rfl
@[simp] theorem latchLength_msgValid (l : BitVec 16) (s : State) :
    (latchLength l s).msgValid = s.msgValid := rfl
@[simp] theorem latchLength_result (l : BitVec 16) (s : State) :
    (latchLength l s).result = s.result := rfl
@[simp] theorem latchLength_err (l : BitVec 16) (s : State) : (latchLength l s).err = s.err := rfl
@[simp] theorem latchLength_cmdResult (l : BitVec 16) (s : State) :
    (latchLength l s).cmdResult = s.cmdResult := rfl
@[simp] theorem latchLength_cmdArg (l : BitVec 16) (s : State) :
    (latchLength l s).cmdArg = s.cmdArg := rfl
@[simp] theorem latchLength_initDone (l : BitVec 16) (s : State) :
    (latchLength l s).initDone = s.initDone := rfl
@[simp] theorem latchLength_viol (l : BitVec 16) (s : State) :
    (latchLength l s).viol = s.viol := rfl
@[simp] theorem latchLength_leafReq (l : BitVec 16) (s : State) :
    (latchLength l s).leafReq = s.leafReq := rfl
@[simp] theorem latchLength_epoch (l : BitVec 16) (s : State) :
    (latchLength l s).epoch = s.epoch := rfl
@[simp] theorem latchLength_inputs (l : BitVec 16) (s : State) :
    (latchLength l s).inputs = s.inputs := rfl
@[simp] theorem latchLength_rdata (l : BitVec 16) (s : State) :
    (latchLength l s).rdata = s.rdata := rfl
@[simp] theorem latchLength_bodyData (l : BitVec 16) (s : State) :
    (latchLength l s).bodyData = s.bodyData := rfl
@[simp] theorem latchLength_ans (l : BitVec 16) (s : State) : (latchLength l s).ans = s.ans := rfl

/-! ### latchForParser -/

@[simp] theorem latchForParser_buf (l : List Byte) (s : State) :
    (latchForParser l s).buf = s.buf := rfl
@[simp] theorem latchForParser_bufLen (l : List Byte) (s : State) :
    (latchForParser l s).bufLen = s.bufLen := rfl
@[simp] theorem latchForParser_reg (l : List Byte) (s : State) :
    (latchForParser l s).reg = s.reg := rfl
@[simp] theorem latchForParser_ver (l : List Byte) (s : State) :
    (latchForParser l s).ver = s.ver := rfl
@[simp] theorem latchForParser_flags (l : List Byte) (s : State) :
    (latchForParser l s).flags = s.flags := rfl
@[simp] theorem latchForParser_tag (l : List Byte) (s : State) :
    (latchForParser l s).tag = s.tag := rfl
@[simp] theorem latchForParser_lenfld (l : List Byte) (s : State) :
    (latchForParser l s).lenfld =
      if s.leafReq.isSome then s.lenfld else (lengthField l).getD s.lenfld := rfl
@[simp] theorem latchForParser_last (l : List Byte) (s : State) :
    (latchForParser l s).last = s.last := rfl
@[simp] theorem latchForParser_word (l : List Byte) (s : State) :
    (latchForParser l s).word = s.word := rfl
@[simp] theorem latchForParser_pc (l : List Byte) (s : State) :
    (latchForParser l s).pc = s.pc := rfl
@[simp] theorem latchForParser_ieOff (l : List Byte) (s : State) :
    (latchForParser l s).ieOff = s.ieOff := rfl
@[simp] theorem latchForParser_st (l : List Byte) (s : State) :
    (latchForParser l s).st = s.st := rfl
@[simp] theorem latchForParser_msg (l : List Byte) (s : State) :
    (latchForParser l s).msg = s.msg := rfl
@[simp] theorem latchForParser_body (l : List Byte) (s : State) :
    (latchForParser l s).body = s.body := rfl
@[simp] theorem latchForParser_msgValid (l : List Byte) (s : State) :
    (latchForParser l s).msgValid = s.msgValid := rfl
@[simp] theorem latchForParser_result (l : List Byte) (s : State) :
    (latchForParser l s).result = s.result := rfl
@[simp] theorem latchForParser_err (l : List Byte) (s : State) :
    (latchForParser l s).err = s.err := rfl
@[simp] theorem latchForParser_cmdResult (l : List Byte) (s : State) :
    (latchForParser l s).cmdResult = s.cmdResult := rfl
@[simp] theorem latchForParser_cmdArg (l : List Byte) (s : State) :
    (latchForParser l s).cmdArg = s.cmdArg := rfl
@[simp] theorem latchForParser_initDone (l : List Byte) (s : State) :
    (latchForParser l s).initDone = s.initDone := rfl
@[simp] theorem latchForParser_viol (l : List Byte) (s : State) :
    (latchForParser l s).viol = s.viol := rfl
@[simp] theorem latchForParser_leafReq (l : List Byte) (s : State) :
    (latchForParser l s).leafReq = s.leafReq := rfl
@[simp] theorem latchForParser_epoch (l : List Byte) (s : State) :
    (latchForParser l s).epoch = s.epoch := rfl
@[simp] theorem latchForParser_inputs (l : List Byte) (s : State) :
    (latchForParser l s).inputs = s.inputs := rfl
@[simp] theorem latchForParser_rdata (l : List Byte) (s : State) :
    (latchForParser l s).rdata = s.rdata := rfl
@[simp] theorem latchForParser_bodyData (l : List Byte) (s : State) :
    (latchForParser l s).bodyData = s.bodyData := rfl
@[simp] theorem latchForParser_ans (l : List Byte) (s : State) :
    (latchForParser l s).ans = s.ans := rfl

/-! ### raise -/

@[simp] theorem raise_buf (e : DecodeError) (s : State) : (raise e s).buf = s.buf := rfl
@[simp] theorem raise_bufLen (e : DecodeError) (s : State) : (raise e s).bufLen = s.bufLen := rfl
@[simp] theorem raise_reg (e : DecodeError) (s : State) : (raise e s).reg = s.reg := rfl
@[simp] theorem raise_ver (e : DecodeError) (s : State) : (raise e s).ver = s.ver := rfl
@[simp] theorem raise_flags (e : DecodeError) (s : State) : (raise e s).flags = s.flags := rfl
@[simp] theorem raise_tag (e : DecodeError) (s : State) : (raise e s).tag = s.tag := rfl
@[simp] theorem raise_lenfld (e : DecodeError) (s : State) : (raise e s).lenfld = s.lenfld := rfl
@[simp] theorem raise_last (e : DecodeError) (s : State) : (raise e s).last = s.last := rfl
@[simp] theorem raise_word (e : DecodeError) (s : State) : (raise e s).word = s.word := rfl
@[simp] theorem raise_pc (e : DecodeError) (s : State) : (raise e s).pc = s.pc := rfl
@[simp] theorem raise_ieOff (e : DecodeError) (s : State) : (raise e s).ieOff = s.ieOff := rfl
@[simp] theorem raise_st (e : DecodeError) (s : State) : (raise e s).st = .done := rfl
@[simp] theorem raise_msg (e : DecodeError) (s : State) : (raise e s).msg = Msg.empty := rfl
@[simp] theorem raise_body (e : DecodeError) (s : State) : (raise e s).body = emptyBody := rfl
@[simp] theorem raise_msgValid (e : DecodeError) (s : State) : (raise e s).msgValid = false := rfl
@[simp] theorem raise_result (e : DecodeError) (s : State) :
    (raise e s).result = resultOfPhase (errPhaseOf e) := rfl
@[simp] theorem raise_err (e : DecodeError) (s : State) :
    (raise e s).err = ⟨errCodeOf e, errPhaseOf e, errVerOf e s.ver, errTagOf e, errReasonOf e, errOffOf e⟩ := rfl
@[simp] theorem raise_cmdResult (e : DecodeError) (s : State) :
    (raise e s).cmdResult = s.cmdResult := rfl
@[simp] theorem raise_cmdArg (e : DecodeError) (s : State) : (raise e s).cmdArg = s.cmdArg := rfl
@[simp] theorem raise_initDone (e : DecodeError) (s : State) :
    (raise e s).initDone = s.initDone := rfl
@[simp] theorem raise_viol (e : DecodeError) (s : State) : (raise e s).viol = s.viol := rfl
@[simp] theorem raise_leafReq (e : DecodeError) (s : State) : (raise e s).leafReq = none := rfl
@[simp] theorem raise_epoch (e : DecodeError) (s : State) : (raise e s).epoch = s.epoch := rfl
@[simp] theorem raise_inputs (e : DecodeError) (s : State) : (raise e s).inputs = s.inputs := rfl
@[simp] theorem raise_rdata (e : DecodeError) (s : State) : (raise e s).rdata = s.rdata := rfl
@[simp] theorem raise_bodyData (e : DecodeError) (s : State) :
    (raise e s).bodyData = s.bodyData := rfl
@[simp] theorem raise_ans (e : DecodeError) (s : State) : (raise e s).ans = s.ans := rfl

/-! ### finishSuccess -/

@[simp] theorem finishSuccess_buf (s : State) : (finishSuccess s).buf = s.buf := rfl
@[simp] theorem finishSuccess_bufLen (s : State) : (finishSuccess s).bufLen = s.bufLen := rfl
@[simp] theorem finishSuccess_reg (s : State) : (finishSuccess s).reg = s.reg := rfl
@[simp] theorem finishSuccess_ver (s : State) : (finishSuccess s).ver = s.ver := rfl
@[simp] theorem finishSuccess_flags (s : State) : (finishSuccess s).flags = s.flags := rfl
@[simp] theorem finishSuccess_tag (s : State) : (finishSuccess s).tag = s.tag := rfl
@[simp] theorem finishSuccess_lenfld (s : State) : (finishSuccess s).lenfld = s.lenfld := rfl
@[simp] theorem finishSuccess_last (s : State) : (finishSuccess s).last = s.last := rfl
@[simp] theorem finishSuccess_word (s : State) : (finishSuccess s).word = s.word := rfl
@[simp] theorem finishSuccess_pc (s : State) : (finishSuccess s).pc = s.pc := rfl
@[simp] theorem finishSuccess_ieOff (s : State) : (finishSuccess s).ieOff = s.ieOff := rfl
@[simp] theorem finishSuccess_st (s : State) : (finishSuccess s).st = .done := rfl
@[simp] theorem finishSuccess_msg (s : State) : (finishSuccess s).msg = s.msg := rfl
@[simp] theorem finishSuccess_body (s : State) : (finishSuccess s).body = s.body := rfl
@[simp] theorem finishSuccess_msgValid (s : State) : (finishSuccess s).msgValid = true := rfl
@[simp] theorem finishSuccess_result (s : State) : (finishSuccess s).result = .success := rfl
@[simp] theorem finishSuccess_err (s : State) : (finishSuccess s).err = s.err := rfl
@[simp] theorem finishSuccess_cmdResult (s : State) :
    (finishSuccess s).cmdResult = s.cmdResult := rfl
@[simp] theorem finishSuccess_cmdArg (s : State) : (finishSuccess s).cmdArg = s.cmdArg := rfl
@[simp] theorem finishSuccess_initDone (s : State) : (finishSuccess s).initDone = s.initDone := rfl
@[simp] theorem finishSuccess_viol (s : State) : (finishSuccess s).viol = s.viol := rfl
@[simp] theorem finishSuccess_leafReq (s : State) : (finishSuccess s).leafReq = s.leafReq := rfl
@[simp] theorem finishSuccess_epoch (s : State) : (finishSuccess s).epoch = s.epoch := rfl
@[simp] theorem finishSuccess_inputs (s : State) : (finishSuccess s).inputs = s.inputs := rfl
@[simp] theorem finishSuccess_rdata (s : State) : (finishSuccess s).rdata = s.rdata := rfl
@[simp] theorem finishSuccess_bodyData (s : State) : (finishSuccess s).bodyData = s.bodyData := rfl
@[simp] theorem finishSuccess_ans (s : State) : (finishSuccess s).ans = s.ans := rfl

/-! ### startDecode -/

@[simp] theorem startDecode_buf (s : State) : (startDecode s).buf = s.buf := rfl
@[simp] theorem startDecode_bufLen (s : State) : (startDecode s).bufLen = s.bufLen := rfl
@[simp] theorem startDecode_reg (s : State) : (startDecode s).reg = s.reg := rfl
@[simp] theorem startDecode_ver (s : State) : (startDecode s).ver = 0 := rfl
@[simp] theorem startDecode_flags (s : State) : (startDecode s).flags = 0 := rfl
@[simp] theorem startDecode_tag (s : State) : (startDecode s).tag = 0 := rfl
@[simp] theorem startDecode_lenfld (s : State) : (startDecode s).lenfld = 0 := rfl
@[simp] theorem startDecode_last (s : State) : (startDecode s).last = 0 := rfl
@[simp] theorem startDecode_word (s : State) : (startDecode s).word = 0 := rfl
@[simp] theorem startDecode_pc (s : State) : (startDecode s).pc = 0 := rfl
@[simp] theorem startDecode_ieOff (s : State) : (startDecode s).ieOff = 0 := rfl
@[simp] theorem startDecode_st (s : State) : (startDecode s).st = .hFlags := rfl
@[simp] theorem startDecode_msg (s : State) : (startDecode s).msg = Msg.empty := rfl
@[simp] theorem startDecode_body (s : State) : (startDecode s).body = emptyBody := rfl
@[simp] theorem startDecode_msgValid (s : State) : (startDecode s).msgValid = false := rfl
@[simp] theorem startDecode_result (s : State) : (startDecode s).result = .none := rfl
@[simp] theorem startDecode_err (s : State) : (startDecode s).err = ErrRegs.clear := rfl
@[simp] theorem startDecode_cmdResult (s : State) :
    (startDecode s).cmdResult = .decodeStarted := rfl
@[simp] theorem startDecode_cmdArg (s : State) : (startDecode s).cmdArg = s.cmdArg := rfl
@[simp] theorem startDecode_initDone (s : State) : (startDecode s).initDone = s.initDone := rfl
@[simp] theorem startDecode_viol (s : State) : (startDecode s).viol = s.viol := rfl
@[simp] theorem startDecode_leafReq (s : State) : (startDecode s).leafReq = none := rfl
@[simp] theorem startDecode_epoch (s : State) : (startDecode s).epoch = s.epoch := rfl
@[simp] theorem startDecode_inputs (s : State) : (startDecode s).inputs = s.inputs := rfl
@[simp] theorem startDecode_rdata (s : State) : (startDecode s).rdata = s.rdata := rfl
@[simp] theorem startDecode_bodyData (s : State) : (startDecode s).bodyData = s.bodyData := rfl
@[simp] theorem startDecode_ans (s : State) : (startDecode s).ans = s.ans := rfl

/-! ### bufPut -/

@[simp] theorem bufPut_buf (a : Off) (v : Byte) (s : State) :
    (bufPut a v s).buf = cellPut false s.buf a.toNat v := rfl
@[simp] theorem bufPut_bufLen (a : Off) (v : Byte) (s : State) :
    (bufPut a v s).bufLen = s.bufLen := rfl
@[simp] theorem bufPut_reg (a : Off) (v : Byte) (s : State) : (bufPut a v s).reg = s.reg := rfl
@[simp] theorem bufPut_ver (a : Off) (v : Byte) (s : State) : (bufPut a v s).ver = s.ver := rfl
@[simp] theorem bufPut_flags (a : Off) (v : Byte) (s : State) :
    (bufPut a v s).flags = s.flags := rfl
@[simp] theorem bufPut_tag (a : Off) (v : Byte) (s : State) : (bufPut a v s).tag = s.tag := rfl
@[simp] theorem bufPut_lenfld (a : Off) (v : Byte) (s : State) :
    (bufPut a v s).lenfld = s.lenfld := rfl
@[simp] theorem bufPut_last (a : Off) (v : Byte) (s : State) : (bufPut a v s).last = s.last := rfl
@[simp] theorem bufPut_word (a : Off) (v : Byte) (s : State) : (bufPut a v s).word = s.word := rfl
@[simp] theorem bufPut_pc (a : Off) (v : Byte) (s : State) : (bufPut a v s).pc = s.pc := rfl
@[simp] theorem bufPut_ieOff (a : Off) (v : Byte) (s : State) :
    (bufPut a v s).ieOff = s.ieOff := rfl
@[simp] theorem bufPut_st (a : Off) (v : Byte) (s : State) : (bufPut a v s).st = s.st := rfl
@[simp] theorem bufPut_msg (a : Off) (v : Byte) (s : State) : (bufPut a v s).msg = s.msg := rfl
@[simp] theorem bufPut_body (a : Off) (v : Byte) (s : State) : (bufPut a v s).body = s.body := rfl
@[simp] theorem bufPut_msgValid (a : Off) (v : Byte) (s : State) :
    (bufPut a v s).msgValid = s.msgValid := rfl
@[simp] theorem bufPut_result (a : Off) (v : Byte) (s : State) :
    (bufPut a v s).result = s.result := rfl
@[simp] theorem bufPut_err (a : Off) (v : Byte) (s : State) : (bufPut a v s).err = s.err := rfl
@[simp] theorem bufPut_cmdResult (a : Off) (v : Byte) (s : State) :
    (bufPut a v s).cmdResult = s.cmdResult := rfl
@[simp] theorem bufPut_cmdArg (a : Off) (v : Byte) (s : State) :
    (bufPut a v s).cmdArg = s.cmdArg := rfl
@[simp] theorem bufPut_initDone (a : Off) (v : Byte) (s : State) :
    (bufPut a v s).initDone = s.initDone := rfl
@[simp] theorem bufPut_viol (a : Off) (v : Byte) (s : State) : (bufPut a v s).viol = s.viol := rfl
@[simp] theorem bufPut_leafReq (a : Off) (v : Byte) (s : State) :
    (bufPut a v s).leafReq = s.leafReq := rfl
@[simp] theorem bufPut_epoch (a : Off) (v : Byte) (s : State) :
    (bufPut a v s).epoch = s.epoch := rfl
@[simp] theorem bufPut_inputs (a : Off) (v : Byte) (s : State) :
    (bufPut a v s).inputs = s.inputs := rfl
@[simp] theorem bufPut_rdata (a : Off) (v : Byte) (s : State) :
    (bufPut a v s).rdata = s.rdata := rfl
@[simp] theorem bufPut_bodyData (a : Off) (v : Byte) (s : State) :
    (bufPut a v s).bodyData = s.bodyData := rfl
@[simp] theorem bufPut_ans (a : Off) (v : Byte) (s : State) : (bufPut a v s).ans = s.ans := rfl

/-! ### regPut -/

@[simp] theorem regPut_buf (v : Nat) (t : Byte) (e : RegEntry) (s : State) :
    (regPut v t e s).buf = s.buf := rfl
@[simp] theorem regPut_bufLen (v : Nat) (t : Byte) (e : RegEntry) (s : State) :
    (regPut v t e s).bufLen = s.bufLen := rfl
@[simp] theorem regPut_reg (v : Nat) (t : Byte) (e : RegEntry) (s : State) :
    (regPut v t e s).reg = cellPut (e == RegEntry.empty) s.reg (regKey v t) e := rfl
@[simp] theorem regPut_ver (v : Nat) (t : Byte) (e : RegEntry) (s : State) :
    (regPut v t e s).ver = s.ver := rfl
@[simp] theorem regPut_flags (v : Nat) (t : Byte) (e : RegEntry) (s : State) :
    (regPut v t e s).flags = s.flags := rfl
@[simp] theorem regPut_tag (v : Nat) (t : Byte) (e : RegEntry) (s : State) :
    (regPut v t e s).tag = s.tag := rfl
@[simp] theorem regPut_lenfld (v : Nat) (t : Byte) (e : RegEntry) (s : State) :
    (regPut v t e s).lenfld = s.lenfld := rfl
@[simp] theorem regPut_last (v : Nat) (t : Byte) (e : RegEntry) (s : State) :
    (regPut v t e s).last = s.last := rfl
@[simp] theorem regPut_word (v : Nat) (t : Byte) (e : RegEntry) (s : State) :
    (regPut v t e s).word = s.word := rfl
@[simp] theorem regPut_pc (v : Nat) (t : Byte) (e : RegEntry) (s : State) :
    (regPut v t e s).pc = s.pc := rfl
@[simp] theorem regPut_ieOff (v : Nat) (t : Byte) (e : RegEntry) (s : State) :
    (regPut v t e s).ieOff = s.ieOff := rfl
@[simp] theorem regPut_st (v : Nat) (t : Byte) (e : RegEntry) (s : State) :
    (regPut v t e s).st = s.st := rfl
@[simp] theorem regPut_msg (v : Nat) (t : Byte) (e : RegEntry) (s : State) :
    (regPut v t e s).msg = s.msg := rfl
@[simp] theorem regPut_body (v : Nat) (t : Byte) (e : RegEntry) (s : State) :
    (regPut v t e s).body = s.body := rfl
@[simp] theorem regPut_msgValid (v : Nat) (t : Byte) (e : RegEntry) (s : State) :
    (regPut v t e s).msgValid = s.msgValid := rfl
@[simp] theorem regPut_result (v : Nat) (t : Byte) (e : RegEntry) (s : State) :
    (regPut v t e s).result = s.result := rfl
@[simp] theorem regPut_err (v : Nat) (t : Byte) (e : RegEntry) (s : State) :
    (regPut v t e s).err = s.err := rfl
@[simp] theorem regPut_cmdResult (v : Nat) (t : Byte) (e : RegEntry) (s : State) :
    (regPut v t e s).cmdResult = s.cmdResult := rfl
@[simp] theorem regPut_cmdArg (v : Nat) (t : Byte) (e : RegEntry) (s : State) :
    (regPut v t e s).cmdArg = s.cmdArg := rfl
@[simp] theorem regPut_initDone (v : Nat) (t : Byte) (e : RegEntry) (s : State) :
    (regPut v t e s).initDone = s.initDone := rfl
@[simp] theorem regPut_viol (v : Nat) (t : Byte) (e : RegEntry) (s : State) :
    (regPut v t e s).viol = s.viol := rfl
@[simp] theorem regPut_leafReq (v : Nat) (t : Byte) (e : RegEntry) (s : State) :
    (regPut v t e s).leafReq = s.leafReq := rfl
@[simp] theorem regPut_epoch (v : Nat) (t : Byte) (e : RegEntry) (s : State) :
    (regPut v t e s).epoch = s.epoch := rfl
@[simp] theorem regPut_inputs (v : Nat) (t : Byte) (e : RegEntry) (s : State) :
    (regPut v t e s).inputs = s.inputs := rfl
@[simp] theorem regPut_rdata (v : Nat) (t : Byte) (e : RegEntry) (s : State) :
    (regPut v t e s).rdata = s.rdata := rfl
@[simp] theorem regPut_bodyData (v : Nat) (t : Byte) (e : RegEntry) (s : State) :
    (regPut v t e s).bodyData = s.bodyData := rfl
@[simp] theorem regPut_ans (v : Nat) (t : Byte) (e : RegEntry) (s : State) :
    (regPut v t e s).ans = s.ans := rfl

/-! ### resetEdge -/

@[simp] theorem resetEdge_buf (s : State) : (resetEdge s).buf = State.reset.buf := rfl
@[simp] theorem resetEdge_bufLen (s : State) : (resetEdge s).bufLen = State.reset.bufLen := rfl
@[simp] theorem resetEdge_reg (s : State) : (resetEdge s).reg = State.reset.reg := rfl
@[simp] theorem resetEdge_ver (s : State) : (resetEdge s).ver = State.reset.ver := rfl
@[simp] theorem resetEdge_flags (s : State) : (resetEdge s).flags = State.reset.flags := rfl
@[simp] theorem resetEdge_tag (s : State) : (resetEdge s).tag = State.reset.tag := rfl
@[simp] theorem resetEdge_lenfld (s : State) : (resetEdge s).lenfld = State.reset.lenfld := rfl
@[simp] theorem resetEdge_last (s : State) : (resetEdge s).last = State.reset.last := rfl
@[simp] theorem resetEdge_word (s : State) : (resetEdge s).word = State.reset.word := rfl
@[simp] theorem resetEdge_pc (s : State) : (resetEdge s).pc = State.reset.pc := rfl
@[simp] theorem resetEdge_ieOff (s : State) : (resetEdge s).ieOff = State.reset.ieOff := rfl
@[simp] theorem resetEdge_st (s : State) : (resetEdge s).st = State.reset.st := rfl
@[simp] theorem resetEdge_msg (s : State) : (resetEdge s).msg = State.reset.msg := rfl
@[simp] theorem resetEdge_body (s : State) : (resetEdge s).body = State.reset.body := rfl
@[simp] theorem resetEdge_msgValid (s : State) :
    (resetEdge s).msgValid = State.reset.msgValid := rfl
@[simp] theorem resetEdge_result (s : State) : (resetEdge s).result = State.reset.result := rfl
@[simp] theorem resetEdge_err (s : State) : (resetEdge s).err = State.reset.err := rfl
@[simp] theorem resetEdge_cmdResult (s : State) :
    (resetEdge s).cmdResult = State.reset.cmdResult := rfl
@[simp] theorem resetEdge_cmdArg (s : State) : (resetEdge s).cmdArg = State.reset.cmdArg := rfl
@[simp] theorem resetEdge_initDone (s : State) :
    (resetEdge s).initDone = State.reset.initDone := rfl
@[simp] theorem resetEdge_viol (s : State) : (resetEdge s).viol = State.reset.viol := rfl
@[simp] theorem resetEdge_leafReq (s : State) : (resetEdge s).leafReq = State.reset.leafReq := rfl
@[simp] theorem resetEdge_epoch (s : State) : (resetEdge s).epoch = s.epoch + 1 := rfl
@[simp] theorem resetEdge_inputs (s : State) : (resetEdge s).inputs = s.inputs := rfl
@[simp] theorem resetEdge_rdata (s : State) : (resetEdge s).rdata = State.reset.rdata := rfl
@[simp] theorem resetEdge_bodyData (s : State) :
    (resetEdge s).bodyData = State.reset.bodyData := rfl
@[simp] theorem resetEdge_ans (s : State) : (resetEdge s).ans = State.reset.ans := rfl

/-! ### putMsg -/

@[simp] theorem putMsg_buf (f : Msg → Msg) (s : State) : (putMsg f s).buf = s.buf := rfl
@[simp] theorem putMsg_bufLen (f : Msg → Msg) (s : State) : (putMsg f s).bufLen = s.bufLen := rfl
@[simp] theorem putMsg_reg (f : Msg → Msg) (s : State) : (putMsg f s).reg = s.reg := rfl
@[simp] theorem putMsg_ver (f : Msg → Msg) (s : State) : (putMsg f s).ver = s.ver := rfl
@[simp] theorem putMsg_flags (f : Msg → Msg) (s : State) : (putMsg f s).flags = s.flags := rfl
@[simp] theorem putMsg_tag (f : Msg → Msg) (s : State) : (putMsg f s).tag = s.tag := rfl
@[simp] theorem putMsg_lenfld (f : Msg → Msg) (s : State) : (putMsg f s).lenfld = s.lenfld := rfl
@[simp] theorem putMsg_last (f : Msg → Msg) (s : State) : (putMsg f s).last = s.last := rfl
@[simp] theorem putMsg_word (f : Msg → Msg) (s : State) : (putMsg f s).word = s.word := rfl
@[simp] theorem putMsg_pc (f : Msg → Msg) (s : State) : (putMsg f s).pc = s.pc := rfl
@[simp] theorem putMsg_ieOff (f : Msg → Msg) (s : State) : (putMsg f s).ieOff = s.ieOff := rfl
@[simp] theorem putMsg_st (f : Msg → Msg) (s : State) : (putMsg f s).st = s.st := rfl
@[simp] theorem putMsg_msg (f : Msg → Msg) (s : State) : (putMsg f s).msg = f s.msg := rfl
@[simp] theorem putMsg_body (f : Msg → Msg) (s : State) : (putMsg f s).body = s.body := rfl
@[simp] theorem putMsg_msgValid (f : Msg → Msg) (s : State) :
    (putMsg f s).msgValid = s.msgValid := rfl
@[simp] theorem putMsg_result (f : Msg → Msg) (s : State) : (putMsg f s).result = s.result := rfl
@[simp] theorem putMsg_err (f : Msg → Msg) (s : State) : (putMsg f s).err = s.err := rfl
@[simp] theorem putMsg_cmdResult (f : Msg → Msg) (s : State) :
    (putMsg f s).cmdResult = s.cmdResult := rfl
@[simp] theorem putMsg_cmdArg (f : Msg → Msg) (s : State) : (putMsg f s).cmdArg = s.cmdArg := rfl
@[simp] theorem putMsg_initDone (f : Msg → Msg) (s : State) :
    (putMsg f s).initDone = s.initDone := rfl
@[simp] theorem putMsg_viol (f : Msg → Msg) (s : State) : (putMsg f s).viol = s.viol := rfl
@[simp] theorem putMsg_leafReq (f : Msg → Msg) (s : State) : (putMsg f s).leafReq = s.leafReq := rfl
@[simp] theorem putMsg_epoch (f : Msg → Msg) (s : State) : (putMsg f s).epoch = s.epoch := rfl
@[simp] theorem putMsg_inputs (f : Msg → Msg) (s : State) : (putMsg f s).inputs = s.inputs := rfl
@[simp] theorem putMsg_rdata (f : Msg → Msg) (s : State) : (putMsg f s).rdata = s.rdata := rfl
@[simp] theorem putMsg_bodyData (f : Msg → Msg) (s : State) :
    (putMsg f s).bodyData = s.bodyData := rfl
@[simp] theorem putMsg_ans (f : Msg → Msg) (s : State) : (putMsg f s).ans = s.ans := rfl

/-! ### latchMsgLen -/

@[simp] theorem latchMsgLen_buf (l : BitVec 16) (s : State) : (latchMsgLen l s).buf = s.buf := rfl
@[simp] theorem latchMsgLen_bufLen (l : BitVec 16) (s : State) :
    (latchMsgLen l s).bufLen = s.bufLen := rfl
@[simp] theorem latchMsgLen_reg (l : BitVec 16) (s : State) : (latchMsgLen l s).reg = s.reg := rfl
@[simp] theorem latchMsgLen_ver (l : BitVec 16) (s : State) : (latchMsgLen l s).ver = s.ver := rfl
@[simp] theorem latchMsgLen_flags (l : BitVec 16) (s : State) :
    (latchMsgLen l s).flags = s.flags := rfl
@[simp] theorem latchMsgLen_tag (l : BitVec 16) (s : State) : (latchMsgLen l s).tag = s.tag := rfl
@[simp] theorem latchMsgLen_lenfld (l : BitVec 16) (s : State) : (latchMsgLen l s).lenfld = l := rfl
@[simp] theorem latchMsgLen_last (l : BitVec 16) (s : State) :
    (latchMsgLen l s).last = s.last := rfl
@[simp] theorem latchMsgLen_word (l : BitVec 16) (s : State) :
    (latchMsgLen l s).word = s.word := rfl
@[simp] theorem latchMsgLen_pc (l : BitVec 16) (s : State) : (latchMsgLen l s).pc = s.pc := rfl
@[simp] theorem latchMsgLen_ieOff (l : BitVec 16) (s : State) :
    (latchMsgLen l s).ieOff = s.ieOff := rfl
@[simp] theorem latchMsgLen_st (l : BitVec 16) (s : State) : (latchMsgLen l s).st = s.st := rfl
@[simp] theorem latchMsgLen_msg (l : BitVec 16) (s : State) :
    (latchMsgLen l s).msg = { s.msg with msgLen := l } := rfl
@[simp] theorem latchMsgLen_body (l : BitVec 16) (s : State) :
    (latchMsgLen l s).body = s.body := rfl
@[simp] theorem latchMsgLen_msgValid (l : BitVec 16) (s : State) :
    (latchMsgLen l s).msgValid = s.msgValid := rfl
@[simp] theorem latchMsgLen_result (l : BitVec 16) (s : State) :
    (latchMsgLen l s).result = s.result := rfl
@[simp] theorem latchMsgLen_err (l : BitVec 16) (s : State) : (latchMsgLen l s).err = s.err := rfl
@[simp] theorem latchMsgLen_cmdResult (l : BitVec 16) (s : State) :
    (latchMsgLen l s).cmdResult = s.cmdResult := rfl
@[simp] theorem latchMsgLen_cmdArg (l : BitVec 16) (s : State) :
    (latchMsgLen l s).cmdArg = s.cmdArg := rfl
@[simp] theorem latchMsgLen_initDone (l : BitVec 16) (s : State) :
    (latchMsgLen l s).initDone = s.initDone := rfl
@[simp] theorem latchMsgLen_viol (l : BitVec 16) (s : State) :
    (latchMsgLen l s).viol = s.viol := rfl
@[simp] theorem latchMsgLen_leafReq (l : BitVec 16) (s : State) :
    (latchMsgLen l s).leafReq = s.leafReq := rfl
@[simp] theorem latchMsgLen_epoch (l : BitVec 16) (s : State) :
    (latchMsgLen l s).epoch = s.epoch := rfl
@[simp] theorem latchMsgLen_inputs (l : BitVec 16) (s : State) :
    (latchMsgLen l s).inputs = s.inputs := rfl
@[simp] theorem latchMsgLen_rdata (l : BitVec 16) (s : State) :
    (latchMsgLen l s).rdata = s.rdata := rfl
@[simp] theorem latchMsgLen_bodyData (l : BitVec 16) (s : State) :
    (latchMsgLen l s).bodyData = s.bodyData := rfl
@[simp] theorem latchMsgLen_ans (l : BitVec 16) (s : State) : (latchMsgLen l s).ans = s.ans := rfl

/-! ### latchWord -/

@[simp] theorem latchWord_buf (w : BitVec 32) (s : State) : (latchWord w s).buf = s.buf := rfl
@[simp] theorem latchWord_bufLen (w : BitVec 32) (s : State) :
    (latchWord w s).bufLen = s.bufLen := rfl
@[simp] theorem latchWord_reg (w : BitVec 32) (s : State) : (latchWord w s).reg = s.reg := rfl
@[simp] theorem latchWord_ver (w : BitVec 32) (s : State) : (latchWord w s).ver = s.ver := rfl
@[simp] theorem latchWord_flags (w : BitVec 32) (s : State) : (latchWord w s).flags = s.flags := rfl
@[simp] theorem latchWord_tag (w : BitVec 32) (s : State) : (latchWord w s).tag = s.tag := rfl
@[simp] theorem latchWord_lenfld (w : BitVec 32) (s : State) :
    (latchWord w s).lenfld = s.lenfld := rfl
@[simp] theorem latchWord_last (w : BitVec 32) (s : State) : (latchWord w s).last = s.last := rfl
@[simp] theorem latchWord_word (w : BitVec 32) (s : State) : (latchWord w s).word = w := rfl
@[simp] theorem latchWord_pc (w : BitVec 32) (s : State) : (latchWord w s).pc = s.pc := rfl
@[simp] theorem latchWord_ieOff (w : BitVec 32) (s : State) : (latchWord w s).ieOff = s.ieOff := rfl
@[simp] theorem latchWord_st (w : BitVec 32) (s : State) : (latchWord w s).st = s.st := rfl
@[simp] theorem latchWord_msg (w : BitVec 32) (s : State) : (latchWord w s).msg = s.msg := rfl
@[simp] theorem latchWord_body (w : BitVec 32) (s : State) : (latchWord w s).body = s.body := rfl
@[simp] theorem latchWord_msgValid (w : BitVec 32) (s : State) :
    (latchWord w s).msgValid = s.msgValid := rfl
@[simp] theorem latchWord_result (w : BitVec 32) (s : State) :
    (latchWord w s).result = s.result := rfl
@[simp] theorem latchWord_err (w : BitVec 32) (s : State) : (latchWord w s).err = s.err := rfl
@[simp] theorem latchWord_cmdResult (w : BitVec 32) (s : State) :
    (latchWord w s).cmdResult = s.cmdResult := rfl
@[simp] theorem latchWord_cmdArg (w : BitVec 32) (s : State) :
    (latchWord w s).cmdArg = s.cmdArg := rfl
@[simp] theorem latchWord_initDone (w : BitVec 32) (s : State) :
    (latchWord w s).initDone = s.initDone := rfl
@[simp] theorem latchWord_viol (w : BitVec 32) (s : State) : (latchWord w s).viol = s.viol := rfl
@[simp] theorem latchWord_leafReq (w : BitVec 32) (s : State) :
    (latchWord w s).leafReq = s.leafReq := rfl
@[simp] theorem latchWord_epoch (w : BitVec 32) (s : State) : (latchWord w s).epoch = s.epoch := rfl
@[simp] theorem latchWord_inputs (w : BitVec 32) (s : State) :
    (latchWord w s).inputs = s.inputs := rfl
@[simp] theorem latchWord_rdata (w : BitVec 32) (s : State) : (latchWord w s).rdata = s.rdata := rfl
@[simp] theorem latchWord_bodyData (w : BitVec 32) (s : State) :
    (latchWord w s).bodyData = s.bodyData := rfl
@[simp] theorem latchWord_ans (w : BitVec 32) (s : State) : (latchWord w s).ans = s.ans := rfl

/-! ### latchLast -/

@[simp] theorem latchLast_buf (b : Byte) (s : State) : (latchLast b s).buf = s.buf := rfl
@[simp] theorem latchLast_bufLen (b : Byte) (s : State) : (latchLast b s).bufLen = s.bufLen := rfl
@[simp] theorem latchLast_reg (b : Byte) (s : State) : (latchLast b s).reg = s.reg := rfl
@[simp] theorem latchLast_ver (b : Byte) (s : State) : (latchLast b s).ver = s.ver := rfl
@[simp] theorem latchLast_flags (b : Byte) (s : State) : (latchLast b s).flags = s.flags := rfl
@[simp] theorem latchLast_tag (b : Byte) (s : State) : (latchLast b s).tag = s.tag := rfl
@[simp] theorem latchLast_lenfld (b : Byte) (s : State) : (latchLast b s).lenfld = s.lenfld := rfl
@[simp] theorem latchLast_last (b : Byte) (s : State) : (latchLast b s).last = b := rfl
@[simp] theorem latchLast_word (b : Byte) (s : State) : (latchLast b s).word = s.word := rfl
@[simp] theorem latchLast_pc (b : Byte) (s : State) : (latchLast b s).pc = s.pc := rfl
@[simp] theorem latchLast_ieOff (b : Byte) (s : State) : (latchLast b s).ieOff = s.ieOff := rfl
@[simp] theorem latchLast_st (b : Byte) (s : State) : (latchLast b s).st = s.st := rfl
@[simp] theorem latchLast_msg (b : Byte) (s : State) : (latchLast b s).msg = s.msg := rfl
@[simp] theorem latchLast_body (b : Byte) (s : State) : (latchLast b s).body = s.body := rfl
@[simp] theorem latchLast_msgValid (b : Byte) (s : State) :
    (latchLast b s).msgValid = s.msgValid := rfl
@[simp] theorem latchLast_result (b : Byte) (s : State) : (latchLast b s).result = s.result := rfl
@[simp] theorem latchLast_err (b : Byte) (s : State) : (latchLast b s).err = s.err := rfl
@[simp] theorem latchLast_cmdResult (b : Byte) (s : State) :
    (latchLast b s).cmdResult = s.cmdResult := rfl
@[simp] theorem latchLast_cmdArg (b : Byte) (s : State) : (latchLast b s).cmdArg = s.cmdArg := rfl
@[simp] theorem latchLast_initDone (b : Byte) (s : State) :
    (latchLast b s).initDone = s.initDone := rfl
@[simp] theorem latchLast_viol (b : Byte) (s : State) : (latchLast b s).viol = s.viol := rfl
@[simp] theorem latchLast_leafReq (b : Byte) (s : State) :
    (latchLast b s).leafReq = s.leafReq := rfl
@[simp] theorem latchLast_epoch (b : Byte) (s : State) : (latchLast b s).epoch = s.epoch := rfl
@[simp] theorem latchLast_inputs (b : Byte) (s : State) : (latchLast b s).inputs = s.inputs := rfl
@[simp] theorem latchLast_rdata (b : Byte) (s : State) : (latchLast b s).rdata = s.rdata := rfl
@[simp] theorem latchLast_bodyData (b : Byte) (s : State) :
    (latchLast b s).bodyData = s.bodyData := rfl
@[simp] theorem latchLast_ans (b : Byte) (s : State) : (latchLast b s).ans = s.ans := rfl

/-! ### fixHeader -/

@[simp] theorem fixHeader_buf (v : BitVec 2) (b : Byte) (s : State) :
    (fixHeader v b s).buf = s.buf := rfl
@[simp] theorem fixHeader_bufLen (v : BitVec 2) (b : Byte) (s : State) :
    (fixHeader v b s).bufLen = s.bufLen := rfl
@[simp] theorem fixHeader_reg (v : BitVec 2) (b : Byte) (s : State) :
    (fixHeader v b s).reg = s.reg := rfl
@[simp] theorem fixHeader_ver (v : BitVec 2) (b : Byte) (s : State) :
    (fixHeader v b s).ver = s.ver := rfl
@[simp] theorem fixHeader_flags (v : BitVec 2) (b : Byte) (s : State) :
    (fixHeader v b s).flags = s.flags := rfl
@[simp] theorem fixHeader_tag (v : BitVec 2) (b : Byte) (s : State) :
    (fixHeader v b s).tag = s.tag := rfl
@[simp] theorem fixHeader_lenfld (v : BitVec 2) (b : Byte) (s : State) :
    (fixHeader v b s).lenfld = s.lenfld := rfl
@[simp] theorem fixHeader_last (v : BitVec 2) (b : Byte) (s : State) :
    (fixHeader v b s).last = s.last := rfl
@[simp] theorem fixHeader_word (v : BitVec 2) (b : Byte) (s : State) :
    (fixHeader v b s).word = s.word := rfl
@[simp] theorem fixHeader_pc (v : BitVec 2) (b : Byte) (s : State) :
    (fixHeader v b s).pc = s.pc := rfl
@[simp] theorem fixHeader_ieOff (v : BitVec 2) (b : Byte) (s : State) :
    (fixHeader v b s).ieOff = s.pc := rfl
@[simp] theorem fixHeader_st (v : BitVec 2) (b : Byte) (s : State) :
    (fixHeader v b s).st = s.st := rfl
@[simp] theorem fixHeader_msg (v : BitVec 2) (b : Byte) (s : State) :
    (fixHeader v b s).msg = { s.msg with ieOff := s.pc, version := v, flags := b } := rfl
@[simp] theorem fixHeader_body (v : BitVec 2) (b : Byte) (s : State) :
    (fixHeader v b s).body = { s.body with variant := v } := rfl
@[simp] theorem fixHeader_msgValid (v : BitVec 2) (b : Byte) (s : State) :
    (fixHeader v b s).msgValid = s.msgValid := rfl
@[simp] theorem fixHeader_result (v : BitVec 2) (b : Byte) (s : State) :
    (fixHeader v b s).result = s.result := rfl
@[simp] theorem fixHeader_err (v : BitVec 2) (b : Byte) (s : State) :
    (fixHeader v b s).err = s.err := rfl
@[simp] theorem fixHeader_cmdResult (v : BitVec 2) (b : Byte) (s : State) :
    (fixHeader v b s).cmdResult = s.cmdResult := rfl
@[simp] theorem fixHeader_cmdArg (v : BitVec 2) (b : Byte) (s : State) :
    (fixHeader v b s).cmdArg = s.cmdArg := rfl
@[simp] theorem fixHeader_initDone (v : BitVec 2) (b : Byte) (s : State) :
    (fixHeader v b s).initDone = s.initDone := rfl
@[simp] theorem fixHeader_viol (v : BitVec 2) (b : Byte) (s : State) :
    (fixHeader v b s).viol = s.viol := rfl
@[simp] theorem fixHeader_leafReq (v : BitVec 2) (b : Byte) (s : State) :
    (fixHeader v b s).leafReq = s.leafReq := rfl
@[simp] theorem fixHeader_epoch (v : BitVec 2) (b : Byte) (s : State) :
    (fixHeader v b s).epoch = s.epoch := rfl
@[simp] theorem fixHeader_inputs (v : BitVec 2) (b : Byte) (s : State) :
    (fixHeader v b s).inputs = s.inputs := rfl
@[simp] theorem fixHeader_rdata (v : BitVec 2) (b : Byte) (s : State) :
    (fixHeader v b s).rdata = s.rdata := rfl
@[simp] theorem fixHeader_bodyData (v : BitVec 2) (b : Byte) (s : State) :
    (fixHeader v b s).bodyData = s.bodyData := rfl
@[simp] theorem fixHeader_ans (v : BitVec 2) (b : Byte) (s : State) :
    (fixHeader v b s).ans = s.ans := rfl

/-! ### latchTag -/

@[simp] theorem latchTag_buf (t : Byte) (s : State) : (latchTag t s).buf = s.buf := rfl
@[simp] theorem latchTag_bufLen (t : Byte) (s : State) : (latchTag t s).bufLen = s.bufLen := rfl
@[simp] theorem latchTag_reg (t : Byte) (s : State) : (latchTag t s).reg = s.reg := rfl
@[simp] theorem latchTag_ver (t : Byte) (s : State) : (latchTag t s).ver = s.ver := rfl
@[simp] theorem latchTag_flags (t : Byte) (s : State) : (latchTag t s).flags = s.flags := rfl
@[simp] theorem latchTag_tag (t : Byte) (s : State) : (latchTag t s).tag = t := rfl
@[simp] theorem latchTag_lenfld (t : Byte) (s : State) : (latchTag t s).lenfld = s.lenfld := rfl
@[simp] theorem latchTag_last (t : Byte) (s : State) : (latchTag t s).last = s.last := rfl
@[simp] theorem latchTag_word (t : Byte) (s : State) : (latchTag t s).word = s.word := rfl
@[simp] theorem latchTag_pc (t : Byte) (s : State) : (latchTag t s).pc = s.pc := rfl
@[simp] theorem latchTag_ieOff (t : Byte) (s : State) : (latchTag t s).ieOff = s.ieOff := rfl
@[simp] theorem latchTag_st (t : Byte) (s : State) : (latchTag t s).st = s.st := rfl
@[simp] theorem latchTag_msg (t : Byte) (s : State) : (latchTag t s).msg = s.msg := rfl
@[simp] theorem latchTag_body (t : Byte) (s : State) : (latchTag t s).body = s.body := rfl
@[simp] theorem latchTag_msgValid (t : Byte) (s : State) :
    (latchTag t s).msgValid = s.msgValid := rfl
@[simp] theorem latchTag_result (t : Byte) (s : State) : (latchTag t s).result = s.result := rfl
@[simp] theorem latchTag_err (t : Byte) (s : State) : (latchTag t s).err = s.err := rfl
@[simp] theorem latchTag_cmdResult (t : Byte) (s : State) :
    (latchTag t s).cmdResult = s.cmdResult := rfl
@[simp] theorem latchTag_cmdArg (t : Byte) (s : State) : (latchTag t s).cmdArg = s.cmdArg := rfl
@[simp] theorem latchTag_initDone (t : Byte) (s : State) :
    (latchTag t s).initDone = s.initDone := rfl
@[simp] theorem latchTag_viol (t : Byte) (s : State) : (latchTag t s).viol = s.viol := rfl
@[simp] theorem latchTag_leafReq (t : Byte) (s : State) : (latchTag t s).leafReq = s.leafReq := rfl
@[simp] theorem latchTag_epoch (t : Byte) (s : State) : (latchTag t s).epoch = s.epoch := rfl
@[simp] theorem latchTag_inputs (t : Byte) (s : State) : (latchTag t s).inputs = s.inputs := rfl
@[simp] theorem latchTag_rdata (t : Byte) (s : State) : (latchTag t s).rdata = s.rdata := rfl
@[simp] theorem latchTag_bodyData (t : Byte) (s : State) :
    (latchTag t s).bodyData = s.bodyData := rfl
@[simp] theorem latchTag_ans (t : Byte) (s : State) : (latchTag t s).ans = s.ans := rfl

/-! ### postRequest -/

@[simp] theorem postRequest_buf (q : LeafReq) (s : State) : (postRequest q s).buf = s.buf := rfl
@[simp] theorem postRequest_bufLen (q : LeafReq) (s : State) :
    (postRequest q s).bufLen = s.bufLen := rfl
@[simp] theorem postRequest_reg (q : LeafReq) (s : State) : (postRequest q s).reg = s.reg := rfl
@[simp] theorem postRequest_ver (q : LeafReq) (s : State) : (postRequest q s).ver = s.ver := rfl
@[simp] theorem postRequest_flags (q : LeafReq) (s : State) :
    (postRequest q s).flags = s.flags := rfl
@[simp] theorem postRequest_tag (q : LeafReq) (s : State) : (postRequest q s).tag = s.tag := rfl
@[simp] theorem postRequest_lenfld (q : LeafReq) (s : State) :
    (postRequest q s).lenfld = s.lenfld := rfl
@[simp] theorem postRequest_last (q : LeafReq) (s : State) : (postRequest q s).last = s.last := rfl
@[simp] theorem postRequest_word (q : LeafReq) (s : State) : (postRequest q s).word = s.word := rfl
@[simp] theorem postRequest_pc (q : LeafReq) (s : State) : (postRequest q s).pc = s.pc := rfl
@[simp] theorem postRequest_ieOff (q : LeafReq) (s : State) :
    (postRequest q s).ieOff = s.ieOff := rfl
@[simp] theorem postRequest_st (q : LeafReq) (s : State) : (postRequest q s).st = s.st := rfl
@[simp] theorem postRequest_msg (q : LeafReq) (s : State) : (postRequest q s).msg = s.msg := rfl
@[simp] theorem postRequest_body (q : LeafReq) (s : State) : (postRequest q s).body = s.body := rfl
@[simp] theorem postRequest_msgValid (q : LeafReq) (s : State) :
    (postRequest q s).msgValid = s.msgValid := rfl
@[simp] theorem postRequest_result (q : LeafReq) (s : State) :
    (postRequest q s).result = s.result := rfl
@[simp] theorem postRequest_err (q : LeafReq) (s : State) : (postRequest q s).err = s.err := rfl
@[simp] theorem postRequest_cmdResult (q : LeafReq) (s : State) :
    (postRequest q s).cmdResult = s.cmdResult := rfl
@[simp] theorem postRequest_cmdArg (q : LeafReq) (s : State) :
    (postRequest q s).cmdArg = s.cmdArg := rfl
@[simp] theorem postRequest_initDone (q : LeafReq) (s : State) :
    (postRequest q s).initDone = s.initDone := rfl
@[simp] theorem postRequest_viol (q : LeafReq) (s : State) : (postRequest q s).viol = s.viol := rfl
@[simp] theorem postRequest_leafReq (q : LeafReq) (s : State) :
    (postRequest q s).leafReq = some q := rfl
@[simp] theorem postRequest_epoch (q : LeafReq) (s : State) :
    (postRequest q s).epoch = s.epoch := rfl
@[simp] theorem postRequest_inputs (q : LeafReq) (s : State) :
    (postRequest q s).inputs = s.inputs := rfl
@[simp] theorem postRequest_rdata (q : LeafReq) (s : State) :
    (postRequest q s).rdata = s.rdata := rfl
@[simp] theorem postRequest_bodyData (q : LeafReq) (s : State) :
    (postRequest q s).bodyData = s.bodyData := rfl
@[simp] theorem postRequest_ans (q : LeafReq) (s : State) : (postRequest q s).ans = s.ans := rfl

/-! ### dropRequest -/

@[simp] theorem dropRequest_buf (s : State) : (dropRequest s).buf = s.buf := rfl
@[simp] theorem dropRequest_bufLen (s : State) : (dropRequest s).bufLen = s.bufLen := rfl
@[simp] theorem dropRequest_reg (s : State) : (dropRequest s).reg = s.reg := rfl
@[simp] theorem dropRequest_ver (s : State) : (dropRequest s).ver = s.ver := rfl
@[simp] theorem dropRequest_flags (s : State) : (dropRequest s).flags = s.flags := rfl
@[simp] theorem dropRequest_tag (s : State) : (dropRequest s).tag = s.tag := rfl
@[simp] theorem dropRequest_lenfld (s : State) : (dropRequest s).lenfld = s.lenfld := rfl
@[simp] theorem dropRequest_last (s : State) : (dropRequest s).last = s.last := rfl
@[simp] theorem dropRequest_word (s : State) : (dropRequest s).word = s.word := rfl
@[simp] theorem dropRequest_pc (s : State) : (dropRequest s).pc = s.pc := rfl
@[simp] theorem dropRequest_ieOff (s : State) : (dropRequest s).ieOff = s.ieOff := rfl
@[simp] theorem dropRequest_st (s : State) : (dropRequest s).st = s.st := rfl
@[simp] theorem dropRequest_msg (s : State) : (dropRequest s).msg = s.msg := rfl
@[simp] theorem dropRequest_body (s : State) : (dropRequest s).body = s.body := rfl
@[simp] theorem dropRequest_msgValid (s : State) : (dropRequest s).msgValid = s.msgValid := rfl
@[simp] theorem dropRequest_result (s : State) : (dropRequest s).result = s.result := rfl
@[simp] theorem dropRequest_err (s : State) : (dropRequest s).err = s.err := rfl
@[simp] theorem dropRequest_cmdResult (s : State) : (dropRequest s).cmdResult = s.cmdResult := rfl
@[simp] theorem dropRequest_cmdArg (s : State) : (dropRequest s).cmdArg = s.cmdArg := rfl
@[simp] theorem dropRequest_initDone (s : State) : (dropRequest s).initDone = s.initDone := rfl
@[simp] theorem dropRequest_viol (s : State) : (dropRequest s).viol = s.viol := rfl
@[simp] theorem dropRequest_leafReq (s : State) : (dropRequest s).leafReq = none := rfl
@[simp] theorem dropRequest_epoch (s : State) : (dropRequest s).epoch = s.epoch := rfl
@[simp] theorem dropRequest_inputs (s : State) : (dropRequest s).inputs = s.inputs := rfl
@[simp] theorem dropRequest_rdata (s : State) : (dropRequest s).rdata = s.rdata := rfl
@[simp] theorem dropRequest_bodyData (s : State) : (dropRequest s).bodyData = s.bodyData := rfl
@[simp] theorem dropRequest_ans (s : State) : (dropRequest s).ans = s.ans := rfl

/-! ### writeFields -/

@[simp] theorem writeFields_buf (ws : List (Byte × Field)) (s : State) :
    (writeFields ws s).buf = s.buf := rfl
@[simp] theorem writeFields_bufLen (ws : List (Byte × Field)) (s : State) :
    (writeFields ws s).bufLen = s.bufLen := rfl
@[simp] theorem writeFields_reg (ws : List (Byte × Field)) (s : State) :
    (writeFields ws s).reg = s.reg := rfl
@[simp] theorem writeFields_ver (ws : List (Byte × Field)) (s : State) :
    (writeFields ws s).ver = s.ver := rfl
@[simp] theorem writeFields_flags (ws : List (Byte × Field)) (s : State) :
    (writeFields ws s).flags = s.flags := rfl
@[simp] theorem writeFields_tag (ws : List (Byte × Field)) (s : State) :
    (writeFields ws s).tag = s.tag := rfl
@[simp] theorem writeFields_lenfld (ws : List (Byte × Field)) (s : State) :
    (writeFields ws s).lenfld = s.lenfld := rfl
@[simp] theorem writeFields_last (ws : List (Byte × Field)) (s : State) :
    (writeFields ws s).last = s.last := rfl
@[simp] theorem writeFields_word (ws : List (Byte × Field)) (s : State) :
    (writeFields ws s).word = s.word := rfl
@[simp] theorem writeFields_pc (ws : List (Byte × Field)) (s : State) :
    (writeFields ws s).pc = s.pc := rfl
@[simp] theorem writeFields_ieOff (ws : List (Byte × Field)) (s : State) :
    (writeFields ws s).ieOff = s.ieOff := rfl
@[simp] theorem writeFields_st (ws : List (Byte × Field)) (s : State) :
    (writeFields ws s).st = s.st := rfl
@[simp] theorem writeFields_msg (ws : List (Byte × Field)) (s : State) :
    (writeFields ws s).msg = s.msg := rfl
@[simp] theorem writeFields_body (ws : List (Byte × Field)) (s : State) :
    (writeFields ws s).body = bodyPutAll s.body ws := rfl
@[simp] theorem writeFields_msgValid (ws : List (Byte × Field)) (s : State) :
    (writeFields ws s).msgValid = s.msgValid := rfl
@[simp] theorem writeFields_result (ws : List (Byte × Field)) (s : State) :
    (writeFields ws s).result = s.result := rfl
@[simp] theorem writeFields_err (ws : List (Byte × Field)) (s : State) :
    (writeFields ws s).err = s.err := rfl
@[simp] theorem writeFields_cmdResult (ws : List (Byte × Field)) (s : State) :
    (writeFields ws s).cmdResult = s.cmdResult := rfl
@[simp] theorem writeFields_cmdArg (ws : List (Byte × Field)) (s : State) :
    (writeFields ws s).cmdArg = s.cmdArg := rfl
@[simp] theorem writeFields_initDone (ws : List (Byte × Field)) (s : State) :
    (writeFields ws s).initDone = s.initDone := rfl
@[simp] theorem writeFields_viol (ws : List (Byte × Field)) (s : State) :
    (writeFields ws s).viol = s.viol := rfl
@[simp] theorem writeFields_leafReq (ws : List (Byte × Field)) (s : State) :
    (writeFields ws s).leafReq = s.leafReq := rfl
@[simp] theorem writeFields_epoch (ws : List (Byte × Field)) (s : State) :
    (writeFields ws s).epoch = s.epoch := rfl
@[simp] theorem writeFields_inputs (ws : List (Byte × Field)) (s : State) :
    (writeFields ws s).inputs = s.inputs := rfl
@[simp] theorem writeFields_rdata (ws : List (Byte × Field)) (s : State) :
    (writeFields ws s).rdata = s.rdata := rfl
@[simp] theorem writeFields_bodyData (ws : List (Byte × Field)) (s : State) :
    (writeFields ws s).bodyData = s.bodyData := rfl
@[simp] theorem writeFields_ans (ws : List (Byte × Field)) (s : State) :
    (writeFields ws s).ans = s.ans := rfl

/-! ### loadRegistry -/

@[simp] theorem loadRegistry_buf (s : State) : (loadRegistry s).buf = s.buf := rfl
@[simp] theorem loadRegistry_bufLen (s : State) : (loadRegistry s).bufLen = s.bufLen := rfl
@[simp] theorem loadRegistry_reg (s : State) : (loadRegistry s).reg = initRegistryCells := rfl
@[simp] theorem loadRegistry_ver (s : State) : (loadRegistry s).ver = s.ver := rfl
@[simp] theorem loadRegistry_flags (s : State) : (loadRegistry s).flags = s.flags := rfl
@[simp] theorem loadRegistry_tag (s : State) : (loadRegistry s).tag = s.tag := rfl
@[simp] theorem loadRegistry_lenfld (s : State) : (loadRegistry s).lenfld = s.lenfld := rfl
@[simp] theorem loadRegistry_last (s : State) : (loadRegistry s).last = s.last := rfl
@[simp] theorem loadRegistry_word (s : State) : (loadRegistry s).word = s.word := rfl
@[simp] theorem loadRegistry_pc (s : State) : (loadRegistry s).pc = s.pc := rfl
@[simp] theorem loadRegistry_ieOff (s : State) : (loadRegistry s).ieOff = s.ieOff := rfl
@[simp] theorem loadRegistry_st (s : State) : (loadRegistry s).st = s.st := rfl
@[simp] theorem loadRegistry_msg (s : State) : (loadRegistry s).msg = s.msg := rfl
@[simp] theorem loadRegistry_body (s : State) : (loadRegistry s).body = s.body := rfl
@[simp] theorem loadRegistry_msgValid (s : State) : (loadRegistry s).msgValid = s.msgValid := rfl
@[simp] theorem loadRegistry_result (s : State) : (loadRegistry s).result = s.result := rfl
@[simp] theorem loadRegistry_err (s : State) : (loadRegistry s).err = s.err := rfl
@[simp] theorem loadRegistry_cmdResult (s : State) : (loadRegistry s).cmdResult = s.cmdResult := rfl
@[simp] theorem loadRegistry_cmdArg (s : State) : (loadRegistry s).cmdArg = s.cmdArg := rfl
@[simp] theorem loadRegistry_initDone (s : State) : (loadRegistry s).initDone = true := rfl
@[simp] theorem loadRegistry_viol (s : State) : (loadRegistry s).viol = s.viol := rfl
@[simp] theorem loadRegistry_leafReq (s : State) : (loadRegistry s).leafReq = s.leafReq := rfl
@[simp] theorem loadRegistry_epoch (s : State) : (loadRegistry s).epoch = s.epoch := rfl
@[simp] theorem loadRegistry_inputs (s : State) : (loadRegistry s).inputs = s.inputs := rfl
@[simp] theorem loadRegistry_rdata (s : State) : (loadRegistry s).rdata = s.rdata := rfl
@[simp] theorem loadRegistry_bodyData (s : State) : (loadRegistry s).bodyData = s.bodyData := rfl
@[simp] theorem loadRegistry_ans (s : State) : (loadRegistry s).ans = s.ans := rfl

end Sys2Proof.Machine
end

