-- ==== Sys2Proof/Laws/Store.lean ====
section
/-! SUPPORT. The laws of the sparse stores: reading after a write, and the canonical form, for BUF, REG
and BODY. -/

namespace Sys2Proof.Machine

variable {α : Type}

/-- A canonical store is canonical from any lower key. -/
theorem cellsWf_mono {bound : Nat} {d : α → Bool} {lo lo' : Nat} (h : lo' ≤ lo) :
    ∀ {l : List (Nat × α)}, cellsWf bound d lo l = true → cellsWf bound d lo' l = true
  | [], _ => rfl
  | (k, v) :: r, hw => by
    simp only [cellsWf, Bool.and_eq_true, decide_eq_true_eq] at hw ⊢
    exact ⟨⟨⟨by omega, hw.1.1.2⟩, hw.1.2⟩, hw.2⟩

/-- Below its first key a canonical store lists nothing. -/
theorem cellFind_below {bound : Nat} {d : α → Bool} {a : Nat} :
    ∀ {l : List (Nat × α)} {lo : Nat}, cellsWf bound d lo l = true → a < lo → cellFind l a = none
  | [], _, _, _ => rfl
  | (k, v) :: r, lo, hw, ha => by
    simp only [cellsWf, Bool.and_eq_true, decide_eq_true_eq] at hw
    simp only [cellFind]
    rw [if_neg (by omega), cellFind_below hw.2 (by omega)]

/-- Reading the written key. -/
theorem cellFind_put_same {bound : Nat} {d : α → Bool} (drop : Bool) (a : Nat) (v : α) :
    ∀ {l : List (Nat × α)} {lo : Nat}, cellsWf bound d lo l = true →
      cellFind (cellPut drop l a v) a = if drop then none else some v
  | [], _, _ => by cases drop <;> simp [cellPut, cellFind]
  | (k, w) :: r, lo, hw => by
    have hr := hw
    simp only [cellsWf, Bool.and_eq_true, decide_eq_true_eq] at hr
    simp only [cellPut]
    by_cases h1 : a < k
    · have hb : cellFind ((k, w) :: r) a = none := by
        simp only [cellFind]; rw [if_neg (by omega), cellFind_below hr.2 (by omega)]
      cases drop <;> simp [h1, hb, cellFind]
    · by_cases h2 : a = k
      · subst h2
        have hb : cellFind r a = none := cellFind_below hr.2 (by omega)
        cases drop <;> simp [hb, cellFind]
      · simp only [h1, h2, if_false, cellFind]
        rw [if_neg (by omega)]
        exact cellFind_put_same drop a v hr.2

/-- Reading any other key. -/
theorem cellFind_put_other (drop : Bool) {a b : Nat} (v : α) (hab : b ≠ a) :
    ∀ (l : List (Nat × α)), cellFind (cellPut drop l a v) b = cellFind l b
  | [] => by
    have : ¬ a = b := fun h => hab h.symm
    cases drop <;> simp [cellPut, cellFind, this]
  | (k, w) :: r => by
    have hne : ¬ a = b := fun h => hab h.symm
    simp only [cellPut]
    by_cases h1 : a < k
    · cases drop <;> simp [h1, cellFind, hne]
    · by_cases h2 : a = k
      · subst h2; cases drop <;> simp [cellFind, hne]
      · simp only [h1, h2, if_false, cellFind]
        rw [cellFind_put_other drop v hab r]

/-- A write keeps the canonical form, if the dropped values are the defaults. -/
theorem cellsWf_put {bound : Nat} {d : α → Bool} {drop : Bool} {a : Nat} {v : α} (ha : a < bound)
    (hv : drop = false → d v = false) :
    ∀ {l : List (Nat × α)} {lo : Nat}, lo ≤ a → cellsWf bound d lo l = true →
      cellsWf bound d lo (cellPut drop l a v) = true
  | [], lo, hlo, _ => by
    cases drop
    · simp [cellPut, cellsWf, hlo, ha, hv rfl]
    · rfl
  | (k, w) :: r, lo, hlo, hw => by
    have hr := hw
    simp only [cellsWf, Bool.and_eq_true, decide_eq_true_eq] at hr
    obtain ⟨⟨⟨hk, hkb⟩, hd⟩, hrest⟩ := hr
    simp only [cellPut]
    by_cases h1 : a < k
    · cases drop
      · have hk' : a + 1 ≤ k := h1
        simp [h1, cellsWf, hlo, ha, hv rfl, hk', hkb, hrest, by simpa using hd]
      · simpa [h1] using hw
    · by_cases h2 : a = k
      · subst h2
        cases drop
        · simp [cellsWf, hlo, ha, hv rfl, hrest]
        · simpa using cellsWf_mono (by omega) hrest
      · simp only [h1, h2, if_false, cellsWf, Bool.and_eq_true, decide_eq_true_eq]
        exact ⟨⟨⟨hk, hkb⟩, hd⟩, cellsWf_put ha hv (by omega) hrest⟩

/-! ### BUF -/

/-- A host write of a cell reads back (R8, R44). -/
theorem bufByte_put_same {s : State} (h : Memory.wf s.buf = true) (a : Off) (v : Byte) :
    bufByte (bufPut a v s) a.toNat = v := by
  simp only [bufByte, bufPut_buf, bufPut_epoch]
  rw [cellFind_put_same (bound := Config.bufCells) (d := fun _ => false) (lo := 0) false a.toNat v h]
  rfl

/-- A host write of a cell leaves every other cell alone. -/
theorem bufByte_put_other {s : State} (a : Off) (v : Byte) {b : Nat} (hb : b ≠ a.toNat) :
    bufByte (bufPut a v s) b = bufByte s b := by
  simp only [bufByte, bufPut_buf, bufPut_epoch, cellFind_put_other false v hb]

/-- BUF stays canonical under a write. -/
theorem memory_wf_put {m : List Host.Cell} (h : Memory.wf m = true) (a : Off) (v : Byte) :
    Memory.wf (cellPut false m a.toNat v) = true :=
  cellsWf_put (by have := a.isLt; simpa [Config.bufCells] using this) (fun _ => rfl) (Nat.zero_le _) h

/-- The state after reset has the canonical forms. -/
theorem reset_canonical : Memory.wf State.reset.buf = true ∧ Registry.wf State.reset.reg = true ∧
    bodyWf State.reset.body = true := ⟨rfl, rfl, rfl⟩

/-- Equal stores read equally. -/
theorem bufByte_congr {s t : State} (hb : t.buf = s.buf) (he : t.epoch = s.epoch) (a : Nat) :
    bufByte t a = bufByte s a := by simp only [bufByte, hb, he]

/-- Byte strings of equal buffers. -/
theorem bufBytes_congr {s t : State} {a n : Nat}
    (h : ∀ i, a ≤ i → i < a + n → bufByte t i = bufByte s i) : bufBytes t a n = bufBytes s a n := by
  simp only [bufBytes]
  refine List.map_congr_left fun i hi => h _ (by omega) ?_
  have := List.mem_range.mp hi
  omega

/-- A sub-buffer reaches to `buf_len`. -/
@[simp] theorem subBuf_length (s : State) (a : Nat) :
    (subBuf s a).length = s.bufLen.toNat - a := by simp [subBuf, bufBytes]

/-- The bytes of a byte string. -/
theorem bufBytes_get? (s : State) (a n i : Nat) (h : i < n) :
    (bufBytes s a n)[i]? = some (bufByte s (a + i)) := by simp [bufBytes, h]

/-- A byte string begins with its first byte. -/
theorem bufBytes_succ (s : State) (a n : Nat) :
    bufBytes s a (n + 1) = bufByte s a :: bufBytes s (a + 1) n := by
  simp only [bufBytes, List.range_succ_eq_map, List.map_cons, List.map_map, Nat.add_zero]
  congr 1
  refine List.map_congr_left fun i _ => ?_
  simp [Nat.add_assoc, Nat.add_comm 1]

/-- Two adjoining byte strings. -/
theorem bufBytes_append (s : State) (a m n : Nat) :
    bufBytes s a (m + n) = bufBytes s a m ++ bufBytes s (a + m) n := by
  induction m generalizing a with
  | zero => simp [bufBytes]
  | succ m ih =>
    rw [show m + 1 + n = (m + n) + 1 by omega, bufBytes_succ, bufBytes_succ, ih]
    simp [Nat.add_assoc, Nat.add_comm 1]

/-- The sub-buffer at a byte inside the message begins with that byte. -/
theorem subBuf_cons {s : State} {a : Nat} (h : a < s.bufLen.toNat) :
    subBuf s a = bufByte s a :: subBuf s (a + 1) := by
  simp only [subBuf]
  rw [show s.bufLen.toNat - a = (s.bufLen.toNat - (a + 1)) + 1 by omega, bufBytes_succ]

/-- At the end of the message nothing is left. -/
theorem subBuf_end {s : State} {a : Nat} (h : s.bufLen.toNat ≤ a) : subBuf s a = [] := by
  simp [subBuf, bufBytes, Nat.sub_eq_zero_of_le h]

/-- Dropping bytes moves the sub-buffer's start. -/
theorem subBuf_drop (s : State) (a n : Nat) : (subBuf s a).drop n = subBuf s (a + n) := by
  induction n generalizing a with
  | zero => simp
  | succ n ih =>
    by_cases h : a < s.bufLen.toNat
    · rw [subBuf_cons h, List.drop_succ_cons, ih]; congr 1; omega
    · rw [subBuf_end (by omega), subBuf_end (by omega)]; simp

/-- Taking bytes that fit. -/
theorem subBuf_take {s : State} {a n : Nat} (h : a + n ≤ s.bufLen.toNat) :
    (subBuf s a).take n = bufBytes s a n := by
  simp only [subBuf]
  rw [show s.bufLen.toNat - a = n + (s.bufLen.toNat - a - n) by omega, bufBytes_append,
    List.take_append_of_le_length (by simp [bufBytes]), List.take_of_length_le (by simp [bufBytes])]

/-! ### REG -/

/-- A place of the registry, in numbers. -/
theorem regKey_eq (v : Nat) (t : Byte) : regKey v t = 256 * v + t.toNat := rfl

/-- A place of the registry belongs to one version and tag. -/
theorem regKey_inj {v w : Nat} {t u : Byte} (h : regKey v t = regKey w u) : v = w ∧ t = u := by
  have ht := t.isLt
  have hu := u.isLt
  simp only [regKey_eq] at h
  exact ⟨by omega, BitVec.eq_of_toNat_eq (by omega)⟩

/-- Reading the written entry. -/
theorem regGet_put_same {s : State} (h : Registry.wf s.reg = true) (v : Nat) (t : Byte)
    (e : RegEntry) : regGet (regPut v t e s) v t = e := by
  simp only [regGet, regPut_reg]
  rw [cellFind_put_same (bound := Config.numVersions * Config.regSize) (d := entryUnlisted) (lo := 0) _ _ e h]
  by_cases he : e = RegEntry.empty <;> simp [he]

/-- Reading any other entry. -/
theorem regGet_put_other {s : State} {v w : Nat} {t u : Byte} (e : RegEntry)
    (hne : ¬ (w = v ∧ u = t)) : regGet (regPut v t e s) w u = regGet s w u := by
  simp only [regGet, regPut_reg]
  rw [cellFind_put_other _ e fun h => hne (regKey_inj h)]

/-- Registering a decoder keeps the registry canonical (R17, R202). -/
theorem registry_wf_put {r : List (Nat × RegEntry)} (h : Registry.wf r = true) {v : Nat} (hv : v < 3)
    (t : Byte) {d : DecId} (hd : d ≠ 0) :
    Registry.wf (cellPut (({ valid := true, decId := d } : RegEntry) == RegEntry.empty) r (regKey v t)
      { valid := true, decId := d }) = true := by
  have ht := t.isLt
  refine cellsWf_put ?_ ?_ (Nat.zero_le _) h
  · simp only [regKey_eq, Config.regSize, Config.numVersions]; omega
  · intro _; simpa [entryUnlisted] using hd

/-- A store built key by key is canonical. -/
theorem cellsWf_filterMap {bound : Nat} {d : α → Bool} (f : Nat → Option (Nat × α))
    (hf : ∀ k c, f k = some c → c.1 = k ∧ k < bound ∧ d c.2 = false) :
    ∀ n lo, cellsWf bound d lo ((List.range' lo n).filterMap f) = true
  | 0, _ => rfl
  | n + 1, lo => by
    have ih := cellsWf_filterMap f hf n (lo + 1)
    simp only [List.range'_succ, List.filterMap_cons]
    cases h : f lo with
    | none => exact cellsWf_mono (by omega) ih
    | some c =>
      obtain ⟨k, v⟩ := c
      obtain ⟨rfl, h2, h3⟩ := hf _ _ h
      simp only [cellsWf, h3, Bool.and_eq_true, decide_eq_true_eq]
      simp only at h2
      exact ⟨⟨⟨Nat.le_refl _, h2⟩, rfl⟩, ih⟩

/-- Reading a store built key by key. -/
theorem cellFind_filterMap (f : Nat → Option (Nat × α))
    (hf : ∀ k c, f k = some c → c.1 = k) (a : Nat) :
    ∀ n lo, cellFind ((List.range' lo n).filterMap f) a =
      if lo ≤ a ∧ a < lo + n then (f a).map (·.2) else none
  | 0, lo => by rw [if_neg (by omega)]; rfl
  | n + 1, lo => by
    have ih := cellFind_filterMap f hf a n (lo + 1)
    simp only [List.range'_succ, List.filterMap_cons]
    by_cases e : lo = a
    · subst e
      rw [if_pos (by omega)]
      cases h : f lo with
      | none => simp only [ih]; rw [if_neg (by omega)]; rfl
      | some c => obtain ⟨k, v⟩ := c; obtain rfl := hf _ _ h; simp [cellFind]
    · have hc : (lo ≤ a ∧ a < lo + (n + 1)) ↔ (lo + 1 ≤ a ∧ a < lo + 1 + n) := by omega
      simp only [hc]
      cases h : f lo with
      | none => simp only [ih]
      | some c =>
        obtain ⟨k, v⟩ := c; obtain rfl := hf _ _ h
        simp only at e; simp only [cellFind, if_neg e, ih]

/-- INIT writes no null decoder id (R17). -/
theorem initRegistry_ne_zero {v : Fin Config.numVersions} {t : Byte} {d : DecId}
    (h : Config.initRegistry v t = some d) : d ≠ 0 := by
  simp only [Config.initRegistry] at h
  split at h
  · simp at h; subst h; decide
  · simp only [Option.map_eq_some_iff] at h
    obtain ⟨x, _, rfl⟩ := h
    intro h0
    have := congrArg BitVec.toNat h0
    have := x.isLt
    simp at *
    omega

/-- What INIT writes at a place of the store. -/
theorem initEntry_spec (k : Nat) (c : Nat × RegEntry) (h : initEntry k = some c) :
    c.1 = k ∧ k < Config.numVersions * Config.regSize ∧ entryUnlisted c.2 = false := by
  simp only [initEntry] at h
  split at h
  next hk =>
    have hk3 : k / 256 < 3 := hk
    have hb : k < 768 := by omega
    simp only [Option.map_eq_some_iff] at h
    obtain ⟨d, hd, rfl⟩ := h
    have := initRegistry_ne_zero hd
    refine ⟨rfl, hb, ?_⟩
    simpa [entryUnlisted] using this
  · simp at h

/-- The registry INIT builds, place by place. -/
theorem initRegistryCells_eq :
    initRegistryCells = (List.range' 0 (Config.numVersions * Config.regSize)).filterMap initEntry := by
  delta initRegistryCells; rw [List.range_eq_range']

/-- The registry INIT builds is canonical (R17, R201). -/
theorem initRegistryCells_wf : Registry.wf initRegistryCells = true := by
  unfold Registry.wf
  rw [initRegistryCells_eq]
  exact cellsWf_filterMap _ initEntry_spec _ _

/-- Reading the registry INIT builds (R201). -/
theorem regGet_initRegistryCells {s : State} (h : s.reg = initRegistryCells) (v : Fin Config.numVersions)
    (t : Byte) :
    regGet s v.val t = entryOf (Config.initRegistry v t) := by
  have hv : v.val < 3 := v.isLt
  have ht := t.isLt
  unfold regGet
  rw [h, initRegistryCells_eq]
  rw [cellFind_filterMap _ (fun k c h => (initEntry_spec k c h).1)]
  rw [if_pos (by simp only [regKey_eq, Config.regSize, Config.numVersions]; omega)]
  have e1 : regKey v.val t / Config.regSize = v.val := by
    simp only [regKey_eq, Config.regSize]; omega
  have e2 : BitVec.ofNat 8 (regKey v.val t) = t := by
    apply BitVec.eq_of_toNat_eq; simp only [regKey_eq, BitVec.toNat_ofNat]; omega
  simp only [initEntry, e1, v.isLt, dif_pos, e2]
  cases Config.initRegistry v t <;> rfl

/-! ### BODY -/

/-- Reading the written field. -/
theorem bodyGet_put_same {b : Body} (h : bodyWf b = true) (f : Byte) (v : Field) :
    bodyGet (bodyPut b f v) f = v := by
  simp only [bodyGet, bodyPut]
  rw [cellFind_put_same (bound := 256) (d := fieldUnlisted) (lo := 0) _ _ v h]
  by_cases hv : v = Field.absent <;> simp [hv]

/-- Reading any other field. -/
theorem bodyGet_put_other {b : Body} {f g : Byte} (v : Field) (hg : g ≠ f) :
    bodyGet (bodyPut b f v) g = bodyGet b g := by
  simp only [bodyGet, bodyPut]
  rw [cellFind_put_other _ v fun h => hg (BitVec.eq_of_toNat_eq h)]

/-- A field write keeps BODY canonical and its variant. -/
theorem bodyWf_put {b : Body} (h : bodyWf b = true) (f : Byte) (v : Field) :
    bodyWf (bodyPut b f v) = true :=
  cellsWf_put f.isLt (fun hv => by simpa [fieldUnlisted] using hv) (Nat.zero_le _) h

/-- The writes of a leaf decoder keep BODY canonical. -/
theorem bodyWf_putAll {b : Body} (h : bodyWf b = true) (ws : List (Byte × Field)) :
    bodyWf (bodyPutAll b ws) = true := by
  induction ws generalizing b with
  | nil => exact h
  | cons w r ih => exact ih (bodyWf_put h w.1 w.2)

/-- The writes of a leaf decoder keep the variant (R19). -/
@[simp] theorem bodyPutAll_variant (b : Body) (ws : List (Byte × Field)) :
    (bodyPutAll b ws).variant = b.variant := by
  induction ws generalizing b with
  | nil => rfl
  | cons w r ih => exact ih (bodyPut b w.1 w.2)

end Sys2Proof.Machine
end

