-- ==== Sys2Proof/Laws/Ops.lean ====
section
/-! SUPPORT. What each shared operation can do, said once: the guarded reads, the cursor, the error entry,
the frames, and big-endian values. -/

namespace Sys2Proof.Machine

/-! ### Frames -/

theorem SameBuffer.mk' {s t : State} (hb : t.buf = s.buf) (hl : t.bufLen = s.bufLen)
    (he : t.epoch = s.epoch) : SameBuffer s t := ⟨hb, hl, he, fun a => bufByte_congr hb he a⟩

theorem SameBuffer.refl (s : State) : SameBuffer s s := .mk' rfl rfl rfl

theorem SameBuffer.trans {s t u : State} (h : SameBuffer s t) (k : SameBuffer t u) :
    SameBuffer s u :=
  .mk' (k.buf.trans h.buf) (k.bufLen.trans h.bufLen) (k.epoch.trans h.epoch)

theorem SameHostSide.refl (s : State) : SameHostSide s s :=
  ⟨.refl s, ⟨rfl, rfl⟩, ⟨rfl, rfl, rfl⟩, ⟨rfl, rfl, rfl, rfl⟩⟩

theorem SameHostSide.trans {s t u : State} (h : SameHostSide s t) (k : SameHostSide t u) :
    SameHostSide s u :=
  ⟨h.buffer.trans k.buffer,
   ⟨k.registry.reg.trans h.registry.reg, k.registry.initDone.trans h.registry.initDone⟩,
   ⟨k.command.cmdArg.trans h.command.cmdArg, k.command.cmdResult.trans h.command.cmdResult,
    k.command.viol.trans h.command.viol⟩,
   ⟨k.bus.inputs.trans h.bus.inputs, k.bus.rdata.trans h.bus.rdata,
    k.bus.bodyData.trans h.bus.bodyData, k.bus.ans.trans h.bus.ans⟩⟩

/-- The host's side of a state from its fields. -/
theorem SameHostSide.of {s t : State} (hb : t.buf = s.buf) (hl : t.bufLen = s.bufLen)
    (he : t.epoch = s.epoch) (hr : t.reg = s.reg) (hi : t.initDone = s.initDone)
    (ha : t.cmdArg = s.cmdArg) (hc : t.cmdResult = s.cmdResult) (hv : t.viol = s.viol)
    (hin : t.inputs = s.inputs) (hrd : t.rdata = s.rdata) (hbd : t.bodyData = s.bodyData)
    (han : t.ans = s.ans) : SameHostSide s t :=
  ⟨.mk' hb hl he, ⟨hr, hi⟩, ⟨ha, hc, hv⟩, ⟨hin, hrd, hbd, han⟩⟩

/-- The host's side, field by field. -/
theorem sameHostSide_iff {s t : State} : SameHostSide s t ↔
    t.buf = s.buf ∧ t.bufLen = s.bufLen ∧ t.epoch = s.epoch ∧ t.reg = s.reg ∧
    t.initDone = s.initDone ∧ t.cmdArg = s.cmdArg ∧ t.cmdResult = s.cmdResult ∧ t.viol = s.viol ∧
    t.inputs = s.inputs ∧ t.rdata = s.rdata ∧ t.bodyData = s.bodyData ∧ t.ans = s.ans :=
  ⟨fun h => ⟨h.buffer.buf, h.buffer.bufLen, h.buffer.epoch, h.registry.reg, h.registry.initDone,
    h.command.cmdArg, h.command.cmdResult, h.command.viol, h.bus.inputs, h.bus.rdata,
    h.bus.bodyData, h.bus.ans⟩,
   fun ⟨hb, hl, he, hr, hi, ha, hc, hv, hin, hrd, hbd, han⟩ =>
    .of hb hl he hr hi ha hc hv hin hrd hbd han⟩

/-- BUF and what it reads as, field by field. -/
theorem sameBuffer_iff {s t : State} : SameBuffer s t ↔
    t.buf = s.buf ∧ t.bufLen = s.bufLen ∧ t.epoch = s.epoch :=
  ⟨fun h => ⟨h.buf, h.bufLen, h.epoch⟩, fun ⟨hb, hl, he⟩ => .mk' hb hl he⟩

/-- The registry reads the same. -/
theorem SameRegistry.regGet {s t : State} (h : SameRegistry s t) (v : Nat) (g : Byte) :
    Sys2Proof.Machine.regGet t v g = Sys2Proof.Machine.regGet s v g := by
  simp only [Sys2Proof.Machine.regGet, h.reg]

/-- The sub-buffer reads the same. -/
theorem SameBuffer.subBuf {s t : State} (h : SameBuffer s t) (a : Nat) :
    Sys2Proof.Machine.subBuf t a = Sys2Proof.Machine.subBuf s a := by
  simp only [Sys2Proof.Machine.subBuf, h.bufLen]
  exact bufBytes_congr fun i _ _ => h.bytes i

/-! ### The error entry and the answers -/

/-- The one error entry (R231, R8): all that `raise` does, from any state. -/
theorem raise_errorStep (e : DecodeError) (s : State) :
    ErrorStep { code := errCodeOf e, phase := errPhaseOf e, ver := errVerOf e s.ver,
                tag := errTagOf e, reason := errReasonOf e, off := errOffOf e } s (raise e s) :=
  ⟨⟨rfl, rfl, rfl, rfl, rfl, rfl, rfl, .of rfl rfl rfl rfl rfl rfl rfl rfl rfl rfl rfl rfl⟩,
   rfl, rfl, rfl, rfl, rfl, rfl, rfl, rfl⟩

/-- An error entry at the end of steps that changed the parser's side only. -/
theorem ErrorEntry.of_host {e : ErrRegs} {s s' t : State} (h : SameHostSide s s')
    (k : ErrorEntry e s' t) : ErrorEntry e s t :=
  ⟨k.err, k.msg, k.body, k.msgValid, k.result, k.st, k.leafReq, h.trans k.host⟩

/-- A unit's answer changes the answer lines only. -/
theorem answer_onlyAnswer (a : UnitAns) (s : State) : OnlyAnswer a s (answer a s) :=
  ⟨rfl, .mk' rfl rfl rfl, ⟨rfl, rfl⟩, ⟨rfl, rfl, rfl⟩, ⟨rfl, rfl, rfl, rfl, rfl⟩,
   ⟨rfl, rfl, rfl, rfl, rfl, rfl, rfl, rfl, rfl, rfl⟩, rfl, rfl, rfl⟩

/-! ### Guarded reads -/

theorem need_fits {s₀ s : State} {w : Nat} (k : State → Out)
    (h : s.pc.toNat + w ≤ s.bufLen.toNat) :
    need s₀ w s k = k s := if_neg (by omega)

theorem need_short {s₀ s : State} {w : Nat} (k : State → Out)
    (h : s.bufLen.toNat < s.pc.toNat + w) :
    need s₀ w s k = .next (raise (.truncated s.pc) s₀) := if_pos h

theorem readBuf_inside {a n : Nat} {s : State} (k : Nat → Out) (h : a + n ≤ s.bufLen.toNat) :
    readBuf a n s k = k (beNat (bufBytes s a n)) := by simp only [readBuf, memRead, if_pos h]

/-- A field that fits is read big-endian at the cursor and consumed. -/
theorem takeField_fits {s₀ s : State} {n : Nat} (k : Nat → State → Out)
    (h : s.pc.toNat + n ≤ s.bufLen.toNat) :
    takeField s₀ n s k = k (beNat (bufBytes s s.pc.toNat n)) (advance n s) := by
  simp only [takeField, need_fits _ h, readBuf_inside _ h]

/-- A field that does not fit raises Truncated at the cursor. -/
theorem takeField_short {s₀ s : State} {n : Nat} (k : Nat → State → Out)
    (h : s.bufLen.toNat < s.pc.toNat + n) :
    takeField s₀ n s k = .next (raise (.truncated s.pc) s₀) := need_short _ h

theorem skipField_fits {s₀ s : State} {n : Nat} (k : State → Out)
    (h : s.pc.toNat + n ≤ s.bufLen.toNat) : skipField s₀ n s k = k (advance n s) := need_fits _ h

theorem skipField_short {s₀ s : State} {n : Nat} (k : State → Out)
    (h : s.bufLen.toNat < s.pc.toNat + n) :
    skipField s₀ n s k = .next (raise (.truncated s.pc) s₀) := need_short _ h

/-- All that `takeField` can do. -/
theorem takeField_cases (s₀ : State) (n : Nat) (s : State) (k : Nat → State → Out) :
    (s.bufLen.toNat < s.pc.toNat + n ∧
      takeField s₀ n s k = .next (raise (.truncated s.pc) s₀)) ∨
    (s.pc.toNat + n ≤ s.bufLen.toNat ∧
      takeField s₀ n s k = k (beNat (bufBytes s s.pc.toNat n)) (advance n s)) := by
  by_cases h : s.bufLen.toNat < s.pc.toNat + n
  · exact .inl ⟨h, takeField_short k h⟩
  · exact .inr ⟨by omega, takeField_fits k (by omega)⟩

/-- All that `skipField` can do. -/
theorem skipField_cases (s₀ : State) (n : Nat) (s : State) (k : State → Out) :
    (s.bufLen.toNat < s.pc.toNat + n ∧
      skipField s₀ n s k = .next (raise (.truncated s.pc) s₀)) ∨
    (s.pc.toNat + n ≤ s.bufLen.toNat ∧ skipField s₀ n s k = k (advance n s)) := by
  by_cases h : s.bufLen.toNat < s.pc.toNat + n
  · exact .inl ⟨h, skipField_short k h⟩
  · exact .inr ⟨by omega, skipField_fits k (by omega)⟩

/-- `takeField` in a state that reads the same buffer, with the cursor at a known offset. -/
theorem takeField_at {n a : Nat} {s₀ s t : State} (k : Nat → State → Out) (hs : SameBuffer s t)
    (hp : t.pc.toNat = a) (h : a + n ≤ s.bufLen.toNat) :
    takeField s₀ n t k = k (beNat (bufBytes s a n)) (advance n t) := by
  subst hp
  rw [takeField_fits _ (by rw [hs.bufLen]; exact h), bufBytes_congr fun i _ _ => hs.bytes i]

/-- `skipField` in a state that reads the same buffer. -/
theorem skipField_at {n a : Nat} {s₀ s t : State} (k : State → Out) (hs : SameBuffer s t)
    (hp : t.pc.toNat = a) (h : a + n ≤ s.bufLen.toNat) : skipField s₀ n t k = k (advance n t) := by
  subst hp
  rw [skipField_fits _ (by rw [hs.bufLen]; exact h)]

/-- `readBuf` in a state that reads the same buffer. -/
theorem readBuf_at {n a a' : Nat} {s t : State} (k : Nat → Out) (hs : SameBuffer s t)
    (ha : a' = a) (h : a + n ≤ s.bufLen.toNat) :
    readBuf a' n t k = k (beNat (bufBytes s a n)) := by
  subst ha
  rw [readBuf_inside _ (by rw [hs.bufLen]; exact h), bufBytes_congr fun i _ _ => hs.bytes i]

/-- The cursor does not wrap inside the message. -/
theorem advance_toNat {n : Nat} {s : State} (h : s.pc.toNat + n ≤ s.bufLen.toNat) :
    (advance n s).pc.toNat = s.pc.toNat + n := by
  have := s.bufLen.isLt
  simp only [advance_pc, BitVec.toNat_ofNat]
  exact Nat.mod_eq_of_lt (by omega)

/-! ### Big-endian values -/

theorem foldl_be (l : List Byte) (acc : Nat) :
    l.foldl (fun acc b => acc * 256 + b.toNat) acc = acc * 256 ^ l.length + beNat l := by
  induction l generalizing acc with
  | nil => simp [beNat]
  | cons b r ih =>
    simp only [List.foldl_cons, List.length_cons, beNat]
    rw [ih, ih (0 * 256 + b.toNat)]
    ring

/-- The first byte is the most significant (R41). -/
theorem beNat_cons (b : Byte) (r : List Byte) :
    beNat (b :: r) = b.toNat * 256 ^ r.length + beNat r := by
  have := foldl_be r b.toNat
  simpa [beNat] using this

@[simp] theorem beNat_nil : beNat [] = 0 := rfl

/-- A value of `n` bytes is below `256 ^ n`. -/
theorem beNat_lt (l : List Byte) : beNat l < 256 ^ l.length := by
  induction l with
  | nil => simp
  | cons b r ih =>
    have hb := b.isLt
    rw [beNat_cons, List.length_cons, pow_succ]
    calc b.toNat * 256 ^ r.length + beNat r < b.toNat * 256 ^ r.length + 256 ^ r.length := by omega
      _ = (b.toNat + 1) * 256 ^ r.length := by ring
      _ ≤ 256 ^ r.length * 256 := by rw [Nat.mul_comm]; exact Nat.mul_le_mul_left _ (by omega)

/-- The bytes of a value are that value's (R41). -/
theorem beBytes_beNat (l : List Byte) : beBytes l.length (beNat l) = l := by
  induction l using List.reverseRecOn with
  | nil => rfl
  | append_singleton r b ih =>
    have h : beNat (r ++ [b]) = beNat r * 256 + b.toNat := by simp [beNat]
    have hb := b.isLt
    rw [List.length_append, List.length_singleton, beBytes, h,
      show (beNat r * 256 + b.toNat) / 256 = beNat r by omega, ih]
    congr 2
    exact BitVec.eq_of_toNat_eq (by rw [BitVec.toNat_ofNat]; omega)

@[simp] theorem beBytes_length (n v : Nat) : (beBytes n v).length = n := by
  induction n generalizing v with
  | zero => rfl
  | succ n ih => simp [beBytes, ih]

/-- The value of the bytes of a value. -/
theorem beNat_beBytes (n v : Nat) (h : v < 256 ^ n) : beNat (beBytes n v) = v := by
  induction n generalizing v with
  | zero => simpa [beBytes] using (by simpa using h : v = 0).symm
  | succ n ih =>
    have hd : v / 256 < 256 ^ n := by
      rw [Nat.div_lt_iff_lt_mul (by omega)]; rwa [pow_succ] at h
    have happ : beNat (beBytes n (v / 256) ++ [BitVec.ofNat 8 v]) =
        beNat (beBytes n (v / 256)) * 256 + v % 256 := by simp [beNat]
    rw [beBytes, happ, ih _ hd]
    omega

@[simp] theorem bufBytes_length (s : State) (a n : Nat) : (bufBytes s a n).length = n := by
  simp [bufBytes]

/-- A one-byte field. -/
theorem ofNat_beNat_one (s : State) (a : Nat) :
    BitVec.ofNat 8 (beNat (bufBytes s a 1)) = bufByte s a := by
  simp [bufBytes, beNat]

/-- A two-byte field. -/
theorem ofNat_beNat_two (s : State) (a : Nat) :
    BitVec.ofNat 16 (beNat (bufBytes s a 2)) = be16 (bufByte s a) (bufByte s (a + 1)) := by
  simp [bufBytes, beNat, be16, List.range_succ]

/-- The top 24 bits of a four-byte field are its first three bytes (R105). -/
theorem teidOfWord_field (s : State) (a : Nat) :
    teidOfWord (BitVec.ofNat 32 (beNat (bufBytes s a 4))) =
      BitVec.ofNat 32 (beNat (bufBytes s a 3)) := by
  have h := beNat_lt (bufBytes s a 4)
  have h3 := beNat_lt (bufBytes s a 3)
  have e : beNat (bufBytes s a 4) =
      beNat (bufBytes s a 3) * 256 + (bufByte s (a + 3)).toNat := by
    rw [bufBytes_append s a 3 1]
    simp [beNat, bufBytes]
  rw [bufBytes_length] at h h3
  have := (bufByte s (a + 3)).isLt
  apply BitVec.eq_of_toNat_eq
  simp only [teidOfWord, BitVec.toNat_ushiftRight, BitVec.toNat_ofNat, Nat.shiftRight_eq_div_pow]
  omega

/-- The value of a two-byte field. -/
theorem be16_toNat (hi lo : Byte) : (be16 hi lo).toNat = 256 * hi.toNat + lo.toNat := by
  have h1 := hi.isLt
  have h2 := lo.isLt
  simp only [be16, BitVec.toNat_ofNat]
  omega

/-! ### The header byte and the tag -/

theorem headerByte_toNat (v : BitVec 3) (low : BitVec 5) :
    (headerByte v low).toNat = 32 * v.toNat + low.toNat := by
  have := low.isLt
  simp only [headerByte, BitVec.toNat_append, Nat.shiftLeft_eq]
  rw [Nat.mul_comm, ← Nat.two_pow_add_eq_or_of_lt this]

/-- A header byte falls apart into its version and low bits (R61). -/
@[simp] theorem versionBits_headerByte (v : BitVec 3) (low : BitVec 5) :
    versionBits (headerByte v low) = v := by
  have := low.isLt
  apply BitVec.eq_of_toNat_eq
  simp only [versionBits, BitVec.extractLsb'_toNat, headerByte_toNat, Nat.shiftRight_eq_div_pow]
  have := v.isLt
  omega

@[simp] theorem lowBits_headerByte (v : BitVec 3) (low : BitVec 5) :
    lowBits (headerByte v low) = low := by
  have := low.isLt
  apply BitVec.eq_of_toNat_eq
  simp only [lowBits, BitVec.extractLsb'_toNat, headerByte_toNat, Nat.shiftRight_eq_div_pow]
  omega

@[simp] theorem headerByte_split (b : Byte) : headerByte (versionBits b) (lowBits b) = b := by
  have := b.isLt
  apply BitVec.eq_of_toNat_eq
  simp only [headerByte_toNat, versionBits, lowBits, BitVec.extractLsb'_toNat,
    Nat.shiftRight_eq_div_pow]
  omega

theorem versionBits_toNat (b : Byte) : (versionBits b).toNat = b.toNat / 32 := by
  have := b.isLt
  simp only [versionBits, BitVec.extractLsb'_toNat, Nat.shiftRight_eq_div_pow]
  omega

theorem tagByte_toNat (c : Bool) (low : BitVec 7) :
    (tagByte c low).toNat = (if c then 128 else 0) + low.toNat := by
  have := low.isLt
  simp only [tagByte, BitVec.toNat_append, Nat.shiftLeft_eq]
  rw [Nat.mul_comm, ← Nat.two_pow_add_eq_or_of_lt this]
  cases c <;> simp

/-- Bit 7 of a tag (R68). -/
theorem tlvClass_iff (t : Byte) : tlvClass t = true ↔ 128 ≤ t.toNat := by
  simp [tlvClass, BitVec.msb_eq_decide]

@[simp] theorem tlvClass_tagByte (c : Bool) (low : BitVec 7) : tlvClass (tagByte c low) = c := by
  have := low.isLt
  have h := tlvClass_iff (tagByte c low)
  rw [tagByte_toNat] at h
  cases c
  · simp at h; cases hc : tlvClass (tagByte false low)
    · rfl
    · have := h.mp hc; omega
  · exact h.mpr (by simp)

@[simp] theorem tagByte_low (c : Bool) (low : BitVec 7) :
    (tagByte c low).extractLsb' 0 7 = low := by
  have := low.isLt
  apply BitVec.eq_of_toNat_eq
  simp only [BitVec.extractLsb'_toNat, tagByte_toNat, Nat.shiftRight_eq_div_pow]
  cases c <;> simp <;> omega

theorem tagByte_split (b : Byte) : tagByte (tlvClass b) (b.extractLsb' 0 7) = b := by
  have hb := b.isLt
  have h := tlvClass_iff b
  apply BitVec.eq_of_toNat_eq
  simp only [BitVec.extractLsb'_toNat, tagByte_toNat, Nat.shiftRight_eq_div_pow]
  cases hc : tlvClass b <;> simp [hc] at h ⊢ <;> omega

end Sys2Proof.Machine
end

