-- ==== Sys2Proof/Laws/Codec.lean ====
section
/-! SUPPORT. What the frame primitives, the generic skips and the codec do, said once. -/

namespace Sys2Proof.Machine

/-! ### Generic skips -/

/-- The length field of a frame that has one. -/
theorem lengthField_subBuf {s : State} {a : Nat} (h : a + 3 ≤ s.bufLen.toNat) :
    lengthField (subBuf s a) = some (be16 (bufByte s (a + 1)) (bufByte s (a + 2))) := by
  rw [subBuf_cons (by omega), subBuf_cons (by omega), subBuf_cons (by omega)]; rfl

/-- No length field where fewer than three bytes remain. -/
theorem lengthField_short {l : List Byte} (h : l.length < 3) : lengthField l = none := by
  match l, h with
  | [], _ => rfl
  | [_], _ => rfl
  | [_, _], _ => rfl

/-- The two length bytes at the cursor, as a number. -/
theorem beNat_length (s : State) (a : Nat) :
    beNat (bufBytes s (a + 1) 2) = (be16 (bufByte s (a + 1)) (bufByte s (a + 2))).toNat := by
  have h := beNat_lt (bufBytes s (a + 1) 2)
  rw [bufBytes_length] at h
  rw [← ofNat_beNat_two, BitVec.toNat_ofNat]
  exact (Nat.mod_eq_of_lt (by omega)).symm

/-- All that a generic skip at the cursor can do: it is the primitive on the sub-buffer, Malformed
becoming Truncated (R138, R139). -/
theorem skipIe_eq_skipFrame (size : Nat → Nat) (t : Byte) (s : State) :
    skipIe size t s =
      match skipFrame size (subBuf s s.pc.toNat) with
      | .matched n _ _ _ =>
        .next (goto .bFetch (advance n
          (latchLength ((lengthField (subBuf s s.pc.toNat)).getD s.lenfld) s)))
      | _ => .next (raise (.truncatedIe t (bodyIdx s)) s) := by
  by_cases h : remBytes s < 3
  · have e := lengthField_short (l := subBuf s s.pc.toNat) (by simpa [remBytes] using h)
    simp only [skipIe, if_pos h, skipFrame, e, boundsFailure]
  · have hl : (subBuf s s.pc.toNat).length = remBytes s := by simp [remBytes]
    simp only [remBytes] at h
    have hb : s.pc.toNat + 1 + 2 ≤ s.bufLen.toNat := by omega
    have e := lengthField_subBuf (s := s) (a := s.pc.toNat) (by omega)
    simp only [skipIe, remBytes, if_neg h, readBuf_inside _ hb, beNat_length, skipFrame, e,
      Option.getD_some, BitVec.ofNat_toNat, BitVec.setWidth_eq]
    rw [hl, remBytes]
    split <;> simp only [boundsFailure]

/-- A generic skip whose frame fits. -/
theorem skipIe_fits {size : Nat → Nat} (tag : Byte) {s : State} {len : BitVec 16}
    (hl : len = be16 (bufByte s (s.pc.toNat + 1)) (bufByte s (s.pc.toNat + 2)))
    (hs : 3 ≤ size len.toNat) (h : s.pc.toNat + size len.toNat ≤ s.bufLen.toNat) :
    skipIe size tag s = .next (goto .bFetch (advance (size len.toNat) (latchLength len s))) := by
  have e := lengthField_subBuf (s := s) (a := s.pc.toNat) (by omega)
  rw [← hl] at e
  rw [skipIe_eq_skipFrame, skipFrame, e]
  simp only
  rw [if_neg (by simp; omega)]; rfl

/-- A generic skip that does not fit raises Truncated (R138, R139). -/
theorem skipIe_short {size : Nat → Nat} (tag : Byte) {s : State} {len : BitVec 16}
    (hl : len = be16 (bufByte s (s.pc.toNat + 1)) (bufByte s (s.pc.toNat + 2)))
    (h : s.bufLen.toNat < s.pc.toNat + 3 ∨ s.bufLen.toNat < s.pc.toNat + size len.toNat) :
    skipIe size tag s = .next (raise (.truncatedIe tag (bodyIdx s)) s) := by
  rw [skipIe_eq_skipFrame, skipFrame]
  by_cases h3 : s.bufLen.toNat < s.pc.toNat + 3
  · simp only [lengthField_short (l := subBuf s s.pc.toNat) (by simp; omega), boundsFailure]
  · simp only [lengthField_subBuf (s := s) (a := s.pc.toNat) (by omega), ← hl]
    rw [if_pos (by simp; omega)]; rfl

/-! ### The codec -/

@[simp] theorem nibbles_cons (b : Byte) (r : List Byte) :
    nibbles (b :: r) = lowNibble b :: highNibble b :: nibbles r := rfl

@[simp] theorem nibbles_append (x y : List Byte) : nibbles (x ++ y) = nibbles x ++ nibbles y := by
  simp [nibbles]

@[simp] theorem nibbles_length (l : List Byte) : (nibbles l).length = 2 * l.length := by
  induction l with
  | nil => rfl
  | cons b r ih => simp [ih]; omega

/-- The `k`-th nibble, low nibble first (R42, R180). -/
theorem nibbles_get? (l : List Byte) (k : Nat) :
    (nibbles l)[k]? = (l[k / 2]?).map fun b =>
      if k % 2 = 0 then b.extractLsb' 0 4 else b.extractLsb' 4 4 := by
  induction l generalizing k with
  | nil => simp [nibbles]
  | cons b r ih =>
    match k with
    | 0 => simp [lowNibble]
    | 1 => simp [highNibble]
    | k + 2 =>
      simp only [nibbles_cons, List.getElem?_cons_succ, ih]
      rw [show (k + 2) / 2 = k / 2 + 1 by omega, show (k + 2) % 2 = k % 2 by omega]; simp

theorem nibbleChars_append (p : Params) (x y : List (BitVec 4)) :
    nibbleChars p (x ++ y) = match nibbleChars p x, nibbleChars p y with
      | some a, some b => some (a ++ b)
      | _, _ => none := by
  induction x with
  | nil => simp only [List.nil_append, nibbleChars]; cases nibbleChars p y <;> rfl
  | cons c r ih =>
    simp only [List.cons_append, nibbleChars, ih]
    cases nibbleChar p c <;> cases nibbleChars p r <;> cases nibbleChars p y <;> rfl

/-- As many characters as nibbles. -/
theorem nibbleChars_length {p : Params} {l : List (BitVec 4)} {ds : List Byte}
    (h : nibbleChars p l = some ds) : ds.length = l.length := by
  induction l generalizing ds with
  | nil => simp [nibbleChars] at h; subst h; rfl
  | cons x r ih =>
    simp only [nibbleChars] at h
    cases hx : nibbleChar p x <;> simp [hx] at h
    cases hr : nibbleChars p r <;> simp [hr] at h
    subst h; simp [ih hr]

/-- No characters exactly when one nibble is Invalid (R183). -/
theorem nibbleChars_none (p : Params) (l : List (BitVec 4)) :
    nibbleChars p l = none ↔ ∃ k, k < l.length ∧ (l[k]?).bind (nibbleChar p) = none := by
  induction l with
  | nil => simp [nibbleChars]
  | cons x r ih =>
    simp only [nibbleChars]
    constructor
    · intro h
      cases hx : nibbleChar p x with
      | none => exact ⟨0, by simp, by simpa using hx⟩
      | some c =>
        cases hr : nibbleChars p r with
        | none => obtain ⟨k, hk, e⟩ := ih.mp hr; exact ⟨k + 1, by simpa using hk, by simpa using e⟩
        | some cs => simp [hx, hr] at h
    · rintro ⟨k, hk, e⟩
      cases k with
      | zero => simp at e; simp [e]
      | succ k =>
        have : nibbleChars p r = none := ih.mpr ⟨k, by simpa using hk, by simpa using e⟩
        rw [this]; cases nibbleChar p x <;> rfl

/-- The characters stand where their nibbles stand. -/
theorem nibbleChars_get? {p : Params} {l : List (BitVec 4)} {ds : List Byte}
    (h : nibbleChars p l = some ds) (k : Nat) (hk : k < l.length) :
    ds[k]? = (l[k]?).bind (nibbleChar p) := by
  induction l generalizing ds k with
  | nil => simp at hk
  | cons x r ih =>
    simp only [nibbleChars] at h
    cases hx : nibbleChar p x <;> simp [hx] at h
    cases hr : nibbleChars p r <;> simp [hr] at h
    subst h
    cases k with
    | zero => simp [hx]
    | succ k => simpa using ih hr k (by simpa using hk)

/-- The two nibbles of a byte. -/
theorem nibbles_of_append (a b : BitVec 4) : lowNibble (a ++ b) = b ∧ highNibble (a ++ b) = a := by
  revert a b; decide

/-- A BCD count never exceeds the nibbles (R182). -/
theorem bcdCount_le (src : List Byte) : bcdCount src ≤ 2 * src.length := by
  simp only [bcdCount]
  split
  · split <;> omega
  · omega

end Sys2Proof.Machine
end

