-- ==== Sys2Proof/Laws/PerInstr.lean ====
section
/-! SUPPORT. Laws made instruction by instruction. -/

open Sys2Proof Sys2Proof.Machine

/-- RoundTrip: the unit that reads an operation reads it back from its encoding. -/
def Sys2Proof.Laws.RoundTrip.Statement (i : Instr) : Prop :=
  i.wf = true → decode (selOf i) (encode i) = .ok i

namespace Sys2Proof.Laws.RoundTrip

theorem initCmd : Statement .initCmd := fun _ => rfl

theorem registerCmd : Statement .registerCmd := fun _ => rfl

theorem decodeCmd : Statement .decodeCmd := fun _ => rfl

theorem cmdIllegal (op : BitVec 4) : Statement (.cmdIllegal op) := by
  revert op; unfold Statement; decide

theorem hdrFlags (b : Byte) : Statement (.hdrFlags b) := by
  intro h
  simp only [Instr.wf, decide_eq_true_eq] at h
  have hv : ¬ 3 ≤ (versionBits b).toNat := by rw [versionBits_toNat]; omega
  simp only [selOf, encode, decode, decodeBytes, decodeOne, decodeByte, if_neg hv]

theorem hdrUnsup (v : BitVec 3) (low : BitVec 5) : Statement (.hdrUnsup v low) := by
  intro h
  simp only [Instr.wf, decide_eq_true_eq] at h
  simp only [selOf, encode, decode, decodeBytes, decodeOne, decodeByte, versionBits_headerByte,
    lowBits_headerByte, if_pos h]

theorem hdrV0 (low : BitVec 5) : Statement (.hdrV0 low) := fun _ => by
  simp only [selOf, encode, decode, decodeBytes, decodeOne, decodeByte, versionBits_headerByte,
    lowBits_headerByte, if_true]

theorem hdrV1 (low : BitVec 5) : Statement (.hdrV1 low) := fun _ => by
  simp only [selOf, encode, decode, decodeBytes, decodeOne, decodeByte, versionBits_headerByte,
    lowBits_headerByte, if_true]

theorem hdrV1Ext (m : Byte) : Statement (.hdrV1Ext m) := fun _ => rfl

theorem hdrV2 (low : BitVec 5) : Statement (.hdrV2 low) := fun _ => by
  simp only [selOf, encode, decode, decodeBytes, decodeOne, decodeByte, versionBits_headerByte,
    lowBits_headerByte, if_true]

theorem hdrEnd (v : BitVec 3) (low : BitVec 5) : Statement (.hdrEnd v low) := by
  intro h
  simp only [Instr.wf, decide_eq_true_eq] at h
  simp only [selOf, encode, decode, decodeBytes, decodeOne, decodeByte, versionBits_headerByte,
    lowBits_headerByte, if_pos h]

theorem ieFetch (t : Byte) : Statement (.ieFetch t) := fun _ => rfl

theorem ieCall (t : Byte) : Statement (.ieCall t) := fun _ => rfl

theorem ieSkip01 (low : BitVec 7) : Statement (.ieSkip01 low) := fun _ => by
  simp only [selOf, encode, decode, decodeBytes, decodeOne, decodeByte, tlvClass_tagByte,
    tagByte_low, if_true]

theorem ieSkip2 (t : Byte) : Statement (.ieSkip2 t) := fun _ => rfl

theorem ieStop (low : BitVec 7) : Statement (.ieStop low) := fun _ => by
  simp only [selOf, encode, decode, decodeBytes, decodeOne, decodeByte, tlvClass_tagByte,
    tagByte_low, Bool.false_eq_true, if_false]

theorem rdU8 (v : BitVec 8) : Statement (.rdU8 v) := fun _ => by
  simp only [selOf, encode, decode, decodeBytes, decodeOne, decodeByte, beBytes, List.nil_append,
    BitVec.ofNat_toNat, BitVec.setWidth_eq]

theorem rdBe16 (v : BitVec 16) : Statement (.rdBe16 v) := fun _ => by
  have h := beNat_beBytes 2 v.toNat (by have := v.isLt; omega)
  simp only [selOf, encode, decode, decodeBytes, beBytes_length, if_true, h, BitVec.ofNat_toNat,
    BitVec.setWidth_eq]

theorem rdBe32 (v : BitVec 32) : Statement (.rdBe32 v) := fun _ => by
  have h := beNat_beBytes 4 v.toNat (by have := v.isLt; omega)
  simp only [selOf, encode, decode, decodeBytes, beBytes_length, if_true, h, BitVec.ofNat_toNat,
    BitVec.setWidth_eq]

theorem rdBe64 (v : BitVec 64) : Statement (.rdBe64 v) := fun _ => by
  have h := beNat_beBytes 8 v.toNat (by have := v.isLt; omega)
  simp only [selOf, encode, decode, decodeBytes, beBytes_length, if_true, h, BitVec.ofNat_toNat,
    BitVec.setWidth_eq]

theorem tv (sub : List Byte) (e : Byte) (n : BitVec 16) : Statement (.tv sub e n) := fun h => by
  simp only [Instr.wf] at h
  simp only [selOf, encode, decode, decodeBytes, decodeSub, h, if_true]

theorem tlv01 (sub : List Byte) (e : Byte) : Statement (.tlv01 sub e) := fun h => by
  simp only [Instr.wf] at h
  simp only [selOf, encode, decode, decodeBytes, decodeSub, h, if_true]

theorem tlv2 (sub : List Byte) (e : Byte) : Statement (.tlv2 sub e) := fun h => by
  simp only [Instr.wf] at h
  simp only [selOf, encode, decode, decodeBytes, decodeSub, h, if_true]

theorem skip01 (sub : List Byte) : Statement (.skip01 sub) := fun h => by
  simp only [Instr.wf] at h
  simp only [selOf, encode, decode, decodeBytes, decodeSub, h, if_true]

theorem skip2 (sub : List Byte) : Statement (.skip2 sub) := fun h => by
  simp only [Instr.wf] at h
  simp only [selOf, encode, decode, decodeBytes, decodeSub, h, if_true]

theorem bcdDec (src : List Byte) (cap : Nat) : Statement (.bcdDec src cap) := fun h => by
  simp only [Instr.wf] at h
  simp only [selOf, encode, decode, decodeBytes, decodeSub, h, if_true]

theorem plmnLac (src : List Byte) : Statement (.plmnLac src) := fun h => by
  simp only [Instr.wf] at h
  simp only [selOf, encode, decode, decodeBytes, decodeSub, h, if_true]

theorem leafImsi (sub : List Byte) : Statement (.leafImsi sub) := fun h => by
  simp only [Instr.wf] at h
  simp only [selOf, encode, decode, decodeBytes, decodeSub, h, if_true]

end Sys2Proof.Laws.RoundTrip
end

