-- ==== Sys2Proof/Laws/Step.lean ====
section
/-! SUPPORT. The step and runs of steps. -/

namespace Sys2Proof.Machine

/-- The block at the defaults of R5. -/
@[simp] theorem execWith_default (i : Instr) (s : State) :
    execWith Config.params i s = exec i s := by
  cases i <;> rfl

/-- A word that decodes runs its operation. -/
theorem runWord_ok {c : Sel} {w : RawWord} {i : Instr} (h : decode c w = .ok i) (s : State) :
    runWord Config.params c w s = exec i s := by
  simp only [runWord, h, execWith_default]

/-- With nothing at the pins a step is the parser's. -/
theorem step_quiet {s : State} (h : s.inputs = []) : step s = parserEdge Config.params s := by
  simp only [step, stepWith, nextInput, h, edge]

/-- Otherwise it is the next input's. -/
theorem step_input {s : State} {i : Input} {r : List Input} (h : s.inputs = i :: r) :
    step s = edge Config.params i { s with inputs := r } := by
  simp only [step, stepWith, nextInput, h]

@[simp] theorem runSteps_zero (s : State) : runSteps 0 s = .next s := rfl

/-- One step first. -/
theorem runSteps_succ {s t : State} (k : Nat) (h : step s = .next t) :
    runSteps (k + 1) s = runSteps k t := by
  simp only [runSteps, Host.Core.run, core, h]

/-- Runs compose. -/
theorem runSteps_add {s t : State} {k : Nat} (m : Nat) (h : runSteps k s = .next t) :
    runSteps (k + m) s = runSteps m t := by
  induction k generalizing s with
  | zero =>
    simp only [runSteps_zero, Host.Outcome.next.injEq] at h
    rw [h, Nat.zero_add]
  | succ k ih =>
    cases hs : step s with
    | next u =>
      rw [runSteps_succ _ hs] at h
      rw [show k + 1 + m = (k + m) + 1 by omega, runSteps_succ _ hs, ih h]
    | fault r => simp only [runSteps, Host.Core.run, core, hs, reduceCtorEq] at h
    | refused r => simp only [runSteps, Host.Core.run, core, hs, reduceCtorEq] at h

/-- A quiescent state stays (R240). -/
theorem step_done {s : State} (hi : s.inputs = []) (hs : s.st = .idle ∨ s.st = .done) :
    step s = .next s := by
  rw [step_quiet hi]
  rcases hs with hs | hs <;> simp only [parserEdge, parserFetch, hs]

/-- A finished decode stays finished. -/
theorem runSteps_done {s : State} (hi : s.inputs = []) (hs : s.st = .done) (k : Nat) :
    runSteps k s = .next s := by
  induction k with
  | zero => rfl
  | succ k ih => rw [runSteps_succ _ (step_done hi (.inr hs)), ih]

end Sys2Proof.Machine
end

