-- ==== Sys2Proof/Laws/Reads.lean ====
section
/-! SUPPORT. The BUF bytes the core reads (R266 (4)): what the reads of a header rule's lines are, where
they lie and how many they can be; the sums over a run. -/

namespace Sys2Proof.Machine

@[simp] theorem mem_byteReads {a n x : Nat} : x ∈ byteReads a n ↔ a ≤ x ∧ x < a + n := by
  simp [byteReads]

@[simp] theorem byteReads_length (a n : Nat) : (byteReads a n).length = n := by simp [byteReads]

/-- Two states whose bytes agree where a field is read read the same field. -/
theorem bufBytes_of_reads {s t : State} {a n : Nat}
    (h : ∀ x ∈ byteReads a n, bufByte t x = bufByte s x) : bufBytes t a n = bufBytes s a n :=
  bufBytes_congr fun i _ hi => h i (by simp; omega)

/-! ### The lines of a header rule -/

/-- A line that fits is read, and the next one stands behind it. -/
theorem linesReads_fits {bufLen pc : Nat} {l : HeaderLine} (r : List HeaderLine)
    (h : pc + l.width ≤ bufLen) :
    linesReads bufLen pc (l :: r) = l.reads pc ++ linesReads bufLen (pc + l.width) r :=
  if_neg (by omega)

/-- A line that does not fit reads nothing, nor do those behind it. -/
theorem linesReads_short {bufLen pc : Nat} {l : HeaderLine} (r : List HeaderLine)
    (h : bufLen < pc + l.width) : linesReads bufLen pc (l :: r) = [] := if_pos h

/-- A line that consumes a byte reads inside what it consumes. -/
theorem HeaderLine.reads_inside {l : HeaderLine} {pc a : Nat} (hl : l ≠ .lastByte 0)
    (h : a ∈ l.reads pc) : pc ≤ a ∧ a < pc + l.width := by
  cases l with
  | field n => simpa [HeaderLine.reads, HeaderLine.width] using h
  | unread n => simp [HeaderLine.reads] at h
  | lastByte n =>
    have : n ≠ 0 := by rintro rfl; exact hl rfl
    simp [HeaderLine.reads, HeaderLine.width] at h ⊢; omega

/-- A line that consumes a byte reads no more bytes than it consumes. -/
theorem HeaderLine.reads_length {l : HeaderLine} (pc : Nat) (hl : l ≠ .lastByte 0) :
    (l.reads pc).length ≤ l.width := by
  cases l with
  | field n => simp [HeaderLine.reads, HeaderLine.width]
  | unread n => simp [HeaderLine.reads]
  | lastByte n =>
    have : n ≠ 0 := by rintro rfl; exact hl rfl
    simp [HeaderLine.reads, HeaderLine.width]; omega

/-- The reads of lines lie inside the message (R46). -/
theorem linesReads_inside {bufLen : Nat} {ls : List HeaderLine} (hl : .lastByte 0 ∉ ls) :
    ∀ {pc a : Nat}, a ∈ linesReads bufLen pc ls → pc ≤ a ∧ a < bufLen := by
  induction ls with
  | nil => intro pc a h; simp [linesReads] at h
  | cons l r ih =>
    intro pc a h
    simp only [List.mem_cons, not_or] at hl
    by_cases hf : bufLen < pc + l.width
    · rw [linesReads_short r hf] at h; simp at h
    · rw [linesReads_fits r (by omega), List.mem_append] at h
      rcases h with h | h
      · have := HeaderLine.reads_inside (Ne.symm hl.1) h; omega
      · have := ih hl.2 h; omega

/-- Lines read no more bytes than the message has behind the cursor. -/
theorem linesReads_length {bufLen : Nat} {ls : List HeaderLine} (hl : .lastByte 0 ∉ ls) :
    ∀ {pc : Nat}, pc ≤ bufLen → pc + (linesReads bufLen pc ls).length ≤ bufLen := by
  induction ls with
  | nil => intro pc h; simpa [linesReads] using h
  | cons l r ih =>
    intro pc h
    simp only [List.mem_cons, not_or] at hl
    by_cases hf : bufLen < pc + l.width
    · rw [linesReads_short r hf]; simpa using h
    · rw [linesReads_fits r (by omega), List.length_append]
      have := HeaderLine.reads_length pc (Ne.symm hl.1)
      have := ih hl.2 (pc := pc + l.width) (by omega)
      omega

/-! ### Whose step it is -/

/-- With nothing at the pins the core's reads are the parser's. -/
theorem coreReads_quiet {p : Params} {s : State} (h : s.inputs = []) :
    coreReads p s = parserReads p s := by
  simp only [coreReads, parserMoves, nextInput, h, if_true]

/-- A turn begins only at a tag. -/
theorem turnBegins_iff {s : State} : turnBegins s = true ↔
    parserMoves s = true ∧ s.st = .bFetch ∧ s.pc.toNat < s.bufLen.toNat := by
  simp [turnBegins, and_assoc]

/-! ### Sums over a run -/

@[simp] theorem sumSteps_zero (f : State → Nat) (s : State) : sumSteps f 0 s = 0 := rfl

/-- One step first. -/
theorem sumSteps_succ {s t : State} (f : State → Nat) (k : Nat) (h : step s = .next t) :
    sumSteps f (k + 1) s = f s + sumSteps f k t := by
  simp only [sumSteps, h]

end Sys2Proof.Machine
end

