-- ==== Sys2Proof/Tests/Slice0.lean ====
section
/-! SUPPORT. Tests: the smoke test of the well-formedness checks, words written out from the layouts of
`30_encoding.md`, one step of each operation, and for every statement with hypotheses states that meet
them. Expected values come from the worked rows of `95_test_vectors.md` (V-..) and from the numbered
rules, by hand. -/

namespace Sys2Proof.Tests

open Sys2Proof Sys2Proof.Machine

/-! ### Helpers -/

/-- The state an outcome goes to, if it is a next state. -/
def after : Out → Option State
  | .next t => some t
  | .fault _ => none
  | .refused _ => none

/-- What the answer lines show after an operation. -/
def answered (o : Out) : Option UnitAns := (after o).map State.ans

/-- Initialised, with the one entry (1, 0x02) -> DEC_IMSI, and a message in the buffer. -/
def ready (l : List Byte) : State :=
  { storeBytes State.reset l with initDone := true, reg := [(258, { valid := true, decId := 1 })] }

/-- The start of a decode of a message. -/
def started (l : List Byte) : State := startDecode (ready l)

/-- A header state of that decode, byte 0 having been read. -/
def inHeader (x : St) (l : List Byte) : State := { latchByte0 (l.headD 0) (started l) with st := x }

/-- A body state: version `v`, the IEs from `ie`, the cursor at `pc`, the tag latched. -/
def atIe (x : St) (v : BitVec 2) (ie pc : Off) (l : List Byte) : State :=
  { started l with
    st := x, ver := v.setWidth 3, flags := l.headD 0, pc := pc, ieOff := ie
    tag := l.getD pc.toNat 0
    msg := { Msg.empty with version := v, flags := l.headD 0, ieOff := ie }
    body := { emptyBody with variant := v } }

/-- With an input at the pins. -/
def withInput (i : Input) (s : State) : State := { s with inputs := [i] }

/-- The state with the request of the tag at the cursor on the leaf decoder port. -/
def calling (s : State) : State := { s with leafReq := some (leafRequest s.tag s) }

/-- The IMSI IE of the document's scenario. -/
def imsiIe : List Byte := [0x02, 0x21, 0x43, 0x65, 0x87, 0x09, 0x21, 0x43, 0xF5]

/-- H1: a version 1 header of ten bytes. -/
def h1Bytes : List Byte := [0x30, 0x10, 0x00, 0x00, 0x00, 0x00, 0x00, 0x01, 0x00, 0x00]

/-- H0: a version 0 header of twenty bytes. -/
def h0Bytes : List Byte :=
  [0x1E, 0x01, 0x00, 0x00, 0x00, 0x07, 0x00, 0x00, 0xFF, 0xFF, 0xFF, 0xFF, 0x21, 0x43, 0x65, 0x87,
   0x09, 0x21, 0x43, 0xF5]

/-- V-H8: a version 2 message with no IE. -/
def h2Bytes : List Byte := [0x48, 0x20, 0x00, 0x08, 0x11, 0x22, 0x33, 0x44, 0x00, 0x00, 0x07, 0x00]

/-- "123456789012345". -/
def digits15 : List Byte :=
  [0x31, 0x32, 0x33, 0x34, 0x35, 0x36, 0x37, 0x38, 0x39, 0x30, 0x31, 0x32, 0x33, 0x34, 0x35]

/-! ### Well-formedness: each check refuses an ill-formed term -/

/-- A byte string as long as the buffer has cells, which no sub-buffer is. -/
def tooLong : List Byte := List.replicate 131072 0

theorem smoke_tooLong : fitsBuffer tooLong = false := by
  rw [fitsBuffer, tooLong, List.length_replicate]; decide

theorem smoke_cmdIllegal : (Instr.cmdIllegal 1).wf = false ∧ (Instr.cmdIllegal 2).wf = false ∧
    (Instr.cmdIllegal 3).wf = false := by decide
theorem smoke_hdrFlags : (Instr.hdrFlags 0x60).wf = false := by decide
theorem smoke_hdrUnsup : (Instr.hdrUnsup 2 0).wf = false := by decide
theorem smoke_hdrEnd : (Instr.hdrEnd 3 0).wf = false := by decide
theorem smoke_tv : (Instr.tv tooLong 0x02 8).wf = false := smoke_tooLong
theorem smoke_tlv01 : (Instr.tlv01 tooLong 0x85).wf = false := smoke_tooLong
theorem smoke_tlv2 : (Instr.tlv2 tooLong 0x01).wf = false := smoke_tooLong
theorem smoke_skip01 : (Instr.skip01 tooLong).wf = false := smoke_tooLong
theorem smoke_skip2 : (Instr.skip2 tooLong).wf = false := smoke_tooLong
theorem smoke_bcdDec : (Instr.bcdDec tooLong 16).wf = false := smoke_tooLong
theorem smoke_plmnLac : (Instr.plmnLac tooLong).wf = false := smoke_tooLong
theorem smoke_leafImsi : (Instr.leafImsi tooLong).wf = false := smoke_tooLong

/-! ### Decoding: words written out bit by bit from the layouts -/

/-- R71: `op` = 3:0 selects, 31:4 are ignored; V-C12 for 0x13. -/
theorem test_decode_commands :
    decode .cmd (.cmd 0b00000000000000000000000000000001) = .ok .initCmd ∧
    decode .cmd (.cmd 0b00000000000000000000000000000010) = .ok .registerCmd ∧
    decode .cmd (.cmd 0b00000000000000000000000000010011) = .ok .decodeCmd ∧
    decode .cmd (.cmd 0b00000000000000000000000000000000) = .ok (.cmdIllegal 0) ∧
    decode .cmd (.cmd 0b11111111111111111111111111110100) = .ok (.cmdIllegal 4) ∧
    decode .cmd (.cmd 0b00000000000000000000000000001111) = .ok (.cmdIllegal 15) := by decide

/-- R61: the version is bits 7:5 of byte 0. -/
theorem test_decode_header :
    decode .hFlags (.bytes [0b00110010]) = .ok (.hdrFlags 0x32) ∧
    decode .hFlags (.bytes [0b01110000]) = .ok (.hdrUnsup 3 0b10000) ∧
    decode .hFlags (.bytes [0b11100001]) = .ok (.hdrUnsup 7 0b00001) ∧
    decode .h0 (.bytes [0b00011110]) = .ok (.hdrV0 0b11110) ∧
    decode .h1 (.bytes [0b00110010]) = .ok (.hdrV1 0b10010) ∧
    decode .h1Ext (.bytes [0b00000010]) = .ok (.hdrV1Ext 0x02) ∧
    decode .h2 (.bytes [0b01001000]) = .ok (.hdrV2 0b01000) ∧
    decode .hEnd (.bytes [0b00110010]) = .ok (.hdrEnd 1 0b10010) := by decide

/-- R65 to R68: the tag is the first byte of an IE and its bit 7 the class. -/
theorem test_decode_dispatch :
    decode .bFetch (.bytes [0b00000010]) = .ok (.ieFetch 0x02) ∧
    decode .bCall (.bytes [0b10000101]) = .ok (.ieCall 0x85) ∧
    decode .fallback01 (.bytes [0b10000101]) = .ok (.ieSkip01 0b0000101) ∧
    decode .fallback2 (.bytes [0b00000101]) = .ok (.ieSkip2 0x05) ∧
    decode .fallback01 (.bytes [0b00000101]) = .ok (.ieStop 0b0000101) := by decide

/-- R41, R160 to R163: big-endian; V-F1, V-F2, V-F3. -/
theorem test_decode_fields :
    decode .rdU8 (.bytes [0b10000101]) = .ok (.rdU8 0x85) ∧
    decode .rdBe16 (.bytes [0x12, 0x34]) = .ok (.rdBe16 0x1234) ∧
    decode .rdBe32 (.bytes [0x12, 0x34, 0x56, 0x78]) = .ok (.rdBe32 0x12345678) ∧
    decode .rdBe64 (.bytes [0x21, 0x43, 0x65, 0x87, 0x09, 0x21, 0x43, 0xF5]) =
      .ok (.rdBe64 0x21436587092143F5) := by decide

/-- R65 to R67, R69, R70: the units that take a sub-buffer take it as it stands. -/
theorem test_decode_sub_buffers :
    decode (.tv 0x0E 1) (.bytes [0x0E, 0x01]) = .ok (.tv [0x0E, 0x01] 0x0E 1) ∧
    decode (.tlv01 0x85) (.bytes [0x85, 0x00, 0x00]) = .ok (.tlv01 [0x85, 0x00, 0x00] 0x85) ∧
    decode (.tlv2 0x01) (.bytes [0x01, 0x00, 0x00, 0x05]) =
      .ok (.tlv2 [0x01, 0x00, 0x00, 0x05] 0x01) ∧
    decode .skip01 (.bytes [0x85, 0x00, 0x00]) = .ok (.skip01 [0x85, 0x00, 0x00]) ∧
    decode .skip2 (.bytes [0x4D, 0x00, 0x00, 0x00]) = .ok (.skip2 [0x4D, 0x00, 0x00, 0x00]) ∧
    decode (.bcdDec 2) (.bytes [0xF5]) = .ok (.bcdDec [0xF5] 2) ∧
    decode .plmnLac (.bytes [0x64, 0xF0, 0x00, 0x12, 0x34]) =
      .ok (.plmnLac [0x64, 0xF0, 0x00, 0x12, 0x34]) ∧
    decode .leafImsi (.bytes imsiIe) = .ok (.leafImsi imsiIe) := by decide

/-- What a unit does not read is rejected by name. -/
theorem test_decode_rejects :
    decode .h0 (.bytes [0x32]) = .reject .wrongPattern ∧
    decode .hFlags (.bytes [0x32, 0x10]) = .reject .wrongLength ∧
    decode .rdBe16 (.bytes [0x12]) = .reject .wrongLength ∧
    decode .cmd (.bytes [0x01]) = .reject .wrongPort ∧
    decode .bFetch (.cmd 1) = .reject .wrongPort ∧
    decode .skip01 (.bytes tooLong) = .reject .wrongLength := by
  refine ⟨by decide, by decide, by decide, by decide, by decide, ?_⟩
  simp only [decode, decodeBytes, decodeSub, smoke_tooLong, Bool.false_eq_true, if_false]

/-! ### Operations, one step each -/

/-- V-C4, V-C5: InitOk, then InitFail. -/
theorem test_init : (after (exec .initCmd State.reset)).map (fun t => (t.cmdResult, t.initDone)) =
      some (.initOk, true) ∧
    (after (exec .initCmd (ready []))).map (fun t => (t.cmdResult, t.reg)) =
      some (.initFail, (ready []).reg) := by
  refine ⟨?_, by decide⟩
  simp [after, exec, execInit, State.reset, busy, reply, loadRegistry]

/-- V-C6: REGISTER 1, 0x85, 7 adds REG[1][0x85] = (1, 7). -/
theorem test_register_added :
    (after (exec .registerCmd { ready [] with cmdArg := cmdArgOf 0x00078501 })).map
      (fun t => (t.cmdResult, regGet t 1 0x85, regGet t 1 0x02, regGet t 0 0x85)) =
    some (.added, { valid := true, decId := 7 }, { valid := true, decId := 1 }, RegEntry.empty) := by
  decide

/-- V-C10, V-C8, V-C9: Replaced; version 3 and decoder 0 are errors. -/
theorem test_register_replaced_and_refused :
    (after (exec .registerCmd { ready [] with cmdArg := cmdArgOf 0x00010201 })).map State.cmdResult =
      some .replaced ∧
    (after (exec .registerCmd { ready [] with cmdArg := cmdArgOf 0x00078503 })).map State.cmdResult =
      some .error ∧
    (after (exec .registerCmd { ready [] with cmdArg := cmdArgOf 0x00008501 })).map State.cmdResult =
      some .error := by decide

/-- V-C2, V-C12: refused before INIT; accepted with an empty buffer. -/
theorem test_decode_command :
    (after (exec .decodeCmd State.reset)).map (fun t => (t.cmdResult, t.st)) =
      some (.refused, .idle) ∧
    (after (exec .decodeCmd (ready []))).map (fun t => (t.cmdResult, t.st, t.pc)) =
      some (.decodeStarted, .hFlags, 0) := by decide

/-- V-C11: refused, in a running decode too, which is not disturbed. -/
theorem test_cmdIllegal :
    (after (exec (.cmdIllegal 0xF) (started h1Bytes))).map (fun t => (t.cmdResult, t.st)) =
      some (.refused, .hFlags) := by decide

/-- R100 on byte 0 of V-H3; V-E1, an empty buffer. -/
theorem test_hdrFlags :
    (after (exec (.hdrFlags 0x32) (started [0x32]))).map
      (fun t => (t.st, t.ver, t.flags, t.pc, t.last)) = some (.h1, 1, 0x32, 1, 0x32) ∧
    (after (exec (.hdrFlags 0x00) (started []))).map
      (fun t => (errImage t.err, t.err.off, statusImage t)) = some (0x00000003, 0, 0x00000026) := by
  decide

/-- V-E2, V-E4: UnsupportedVersion(3), (7). -/
theorem test_hdrUnsup :
    (after (exec (.hdrUnsup 3 0b10000) (started [0x70, 0x00, 0x00, 0x00]))).map
      (fun t => (errImage t.err, t.result)) = some (0x00000031, .headerError) ∧
    (after (exec (.hdrUnsup 7 0) (started [0xE0]))).map (fun t => errImage t.err) =
      some 0x00000071 := by decide

/-- V-H1: the version 0 header. -/
theorem test_hdrV0 :
    (after (exec (.hdrV0 0b11110) (inHeader .h0 h0Bytes))).map
      (fun t => (t.st, t.pc, t.msg.msgType, msgLenSeqImage t.msg, t.msg.tid, t.msg.tidValid)) =
    some (.hEnd, 20, 0x01, 0x00070000, 0x21436587092143F5, true) := by decide

/-- V-E12, V-E7: the 8-byte tid does not fit; the protocol-type test comes first. -/
theorem test_hdrV0_errors :
    (after (exec (.hdrV0 0b11110) (inHeader .h0 (h0Bytes.take 19)))).map
      (fun t => (errImage t.err, t.err.off)) = some (0x00000003, 12) ∧
    (after (exec (.hdrV0 0) (inHeader .h0 [0x00]))).map (fun t => errImage t.err) =
      some 0x00000002 := by decide

/-- V-H3: the sequence flag set, one marker to walk. -/
theorem test_hdrV1 :
    (after (exec (.hdrV1 0b10010) (inHeader .h1
      [0x32, 0x10, 0x00, 0x00, 0x00, 0x00, 0x00, 0x2A, 0x12, 0x34, 0x00, 0x02]))).map
      (fun t => (t.st, t.pc, t.last, t.msg.teid, msgLenSeqImage t.msg, t.msg.seqValid)) =
    some (.h1Ext, 12, 0x02, 0x2A, 0x12340000, true) := by decide

/-- H1: no sequence number; V-E13: the pair has one of two bytes. -/
theorem test_hdrV1_no_seq_and_error :
    (after (exec (.hdrV1 0b10000) (inHeader .h1 h1Bytes))).map
      (fun t => (t.pc, t.last, t.msg.teid, t.msg.seqValid)) = some (10, 0x00, 1, false) ∧
    (after (exec (.hdrV1 0b10010) (inHeader .h1
      [0x32, 0x10, 0x00, 0x00, 0x00, 0x00, 0x00, 0x2A, 0x12, 0x34, 0x00]))).map
      (fun t => (errImage t.err, t.err.off)) = some (0x00000013, 10) := by decide

/-- V-H4, V-H5: one turn reads the marker at its end; three bytes are too few. -/
theorem test_hdrV1Ext :
    (after (exec (.hdrV1Ext 0x02) { inHeader .h1Ext [0x32, 0xAA, 0xBB, 0xCC, 0x07] with
      last := 0x02 })).map (fun t => (t.st, t.pc, t.last)) = some (.h1Ext, 5, 0x07) ∧
    (after (exec (.hdrV1Ext 0x02) { inHeader .h1Ext [0x32, 0xAA, 0xBB, 0xCC] with
      last := 0x02 })).map (fun t => (t.err.code, t.err.off)) = some (.truncated, 1) := by decide

/-- V-H8: the value read first is overwritten and lost. -/
theorem test_hdrV2 :
    (after (exec (.hdrV2 0b01000) (inHeader .h2 h2Bytes))).map
      (fun t => (t.st, t.pc, t.msg.teid, t.msg.teidValid)) = some (.hEnd, 12, 0x00000007, true) := by
  decide

/-- V-E10 (4 = 4 + 0, the secondary field missing), and P3's length field 0x000F with 18 bytes. -/
theorem test_hdrV2_errors :
    (after (exec (.hdrV2 0) (inHeader .h2 [0x40, 0x20, 0x00, 0x00]))).map
      (fun t => (errImage t.err, t.err.off)) = some (0x00000023, 4) ∧
    (after (exec (.hdrV2 0b01000) (inHeader .h2 [0x48, 0x20, 0x00, 0x0F, 0x11, 0x22, 0x33, 0x44,
      0x00, 0x00, 0x07, 0x00, 0x01, 0x00, 0x02, 0x00, 0xAA, 0xBB]))).map
      (fun t => (errImage t.err, t.err.off, statusImage t)) = some (0x00000024, 4, 0x00000026) := by
  decide

/-- R106: the end of the header of V-S1. -/
theorem test_hdrEnd :
    (after (exec (.hdrEnd 1 0b10000) { inHeader .hEnd h1Bytes with pc := 10 })).map
      (fun t => (t.st, t.ieOff, t.msg.ieOff, t.msg.version, t.msg.flags, t.body.variant)) =
    some (.bFetch, 10, 10, 1, 0x30, 1) := by decide

/-- V-S1: the registered tag is called; V-H11: the end of the body is Success. -/
theorem test_ieFetch :
    (after (exec (.ieFetch 0x02) (atIe .bFetch 1 10 10 (h1Bytes ++ imsiIe)))).map
      (fun t => (t.st, t.tag, t.leafReq)) =
      some (.bCall, 0x02, some { decId := 1, ver := 1, tag := 0x02, pc := 10, rem := 9 }) ∧
    (after (exec (.ieFetch 0) (atIe .bFetch 1 10 10 h1Bytes))).map
      (fun t => (t.result, t.msgValid, statusImage t)) = some (.success, true, 0x0000001E) := by
  decide

/-- V-S1: CALL(0x02, 0, 9); V-D3: a rejected nibble. -/
theorem test_ieCall :
    (after (exec (.ieCall 0x02) (atIe .bCall 1 10 10 (h1Bytes ++ imsiIe)))).map
      (fun t => (t.st, t.pc, bodyGet t.body 0x02)) =
      some (.bFetch, 19, { present := true, len := 15, data := digits15 }) ∧
    (after (exec (.ieCall 0x02) (atIe .bCall 1 10 10
      (h1Bytes ++ [0x02, 0x21, 0x43, 0x65, 0x87, 0x09, 0x21, 0x43, 0xC5])))).map
      (fun t => (errImage t.err, t.body)) = some (0x0002021D, emptyBody) := by decide

/-- R133, R135: V-D9, V-D10, V-D11, and the legal count 9. -/
theorem test_leafAnswered :
    let s := atIe .bCall 1 10 10 (h1Bytes ++ imsiIe)
    errImage (leafAnswered 0x02 (.matched 0) s).err = 0x00FE021D ∧
    errImage (leafAnswered 0x02 (.matched 10) s).err = 0x00FE021D ∧
    errImage (leafAnswered 0x02 (leafAnsOf { kind := 3, n := 9, reason := 0x12 }) s).err =
      0x00FF021D ∧
    (leafAnswered 0x02 (.matched 9) s).pc = 19 := by decide

/-- V-U1, V-U4: the whole frame is passed; a frame that does not fit is Truncated. -/
theorem test_ieSkip01 :
    (after (exec (.ieSkip01 0x05) (atIe .bFallback 1 10 10
      (h1Bytes ++ [0x85, 0x00, 0x02, 0xAA, 0xBB] ++ imsiIe)))).map (fun t => (t.st, t.pc, t.lenfld)) =
      some (.bFetch, 15, 2) ∧
    (after (exec (.ieSkip01 0x05) (atIe .bFallback 1 10 10
      (h1Bytes ++ [0x85, 0x00, 0x03, 0xAA, 0xBB])))).map (fun t => errImage t.err) =
      some 0x0000851B := by decide

/-- V-D15, V-D17: SKIP(0x4D, 6, 5); a frame of three bytes is Truncated. -/
theorem test_ieSkip2 :
    (after (exec (.ieSkip2 0x4D) (atIe .bFallback 2 8 14 [0x40, 0x20, 0x00, 0x0F, 0x00, 0x00, 0x2A,
      0x00, 0x01, 0x00, 0x02, 0x00, 0xAA, 0xBB, 0x4D, 0x00, 0x01, 0x00, 0x7F]))).map
      (fun t => (t.st, t.pc)) = some (.bFetch, 19) ∧
    (after (exec (.ieSkip2 0x01) (atIe .bFallback 2 8 8 [0x40, 0x20, 0x00, 0x07, 0x00, 0x00, 0x2A,
      0x00, 0x01, 0x00, 0x00]))).map (fun t => errImage t.err) = some 0x0000012B := by decide

/-- V-U2, V-U7: the stop, at idx 0 and behind an IE. -/
theorem test_ieStop :
    (after (exec (.ieStop 0x05) (atIe .bFallback 1 10 10 (h1Bytes ++ [0x05])))).map
      (fun t => (errImage t.err, t.err.off)) = some (0x0000051E, 0) ∧
    (after (exec (.ieStop 0x05) (atIe .bFallback 1 10 19 (h1Bytes ++ imsiIe ++ [0x05])))).map
      (fun t => (t.err.off, t.msg, t.body)) = some (9, Msg.empty, emptyBody) := by decide

/-- R160. -/
theorem test_rdU8 : answered (exec (.rdU8 0x85) State.reset) = some (.field 0x85) := by decide

/-- V-F1, read inside an invocation; the caller's guard one byte further. -/
theorem test_rdBe16 :
    (let s := calling (atIe .bCall 1 0 0 [0x02, 0x12, 0x34])
     answered (step (withInput (.unitCall (.rdBe16 1)) s)) = some (.field 4660) ∧
     answered (step (withInput (.unitCall (.rdBe16 2)) s)) =
       some (.frame (.malformed 0x01))) := by decide

/-- V-F2. -/
theorem test_rdBe32 :
    answered (step (withInput (.unitCall (.rdBe32 1))
      (calling (atIe .bCall 1 0 0 [0x02, 0x12, 0x34, 0x56, 0x78])))) = some (.field 0x12345678) := by
  decide

/-- V-F3. -/
theorem test_rdBe64 :
    answered (step (withInput (.unitCall (.rdBe64 1)) (calling (atIe .bCall 1 0 0 imsiIe)))) =
      some (.field 0x21436587092143F5) := by decide

/-- V-F4, V-F8. -/
theorem test_tv :
    answered (exec (.tv imsiIe 0x02 8) State.reset) =
      some (.frame (.matched 9 none none [0x21, 0x43, 0x65, 0x87, 0x09, 0x21, 0x43, 0xF5])) ∧
    answered (exec (.tv [0x0E] 0x0E 0) State.reset) = some (.frame (.matched 1 none none [])) := by
  decide

/-- V-F5, V-F7, V-F10: bounds, the tag before the bounds, an empty sub-buffer. -/
theorem test_tv_failures :
    answered (exec (.tv (imsiIe.take 8) 0x02 8) State.reset) = some (.frame (.malformed 0x01)) ∧
    answered (exec (.tv [0x03] 0x02 8) State.reset) = some (.frame .notMatched) ∧
    answered (exec (.tv [] 0x02 8) State.reset) = some (.frame (.malformed 0x01)) := by decide

/-- V-F11, V-F14. -/
theorem test_tlv01 :
    answered (exec (.tlv01 [0x85, 0x00, 0x04, 0xC0, 0xA8, 0x00, 0x01] 0x85) State.reset) =
      some (.frame (.matched 7 (some 4) none [0xC0, 0xA8, 0x00, 0x01])) ∧
    answered (exec (.tlv01 [0x85, 0x00, 0x00] 0x85) State.reset) =
      some (.frame (.matched 3 (some 0) none [])) := by decide

/-- V-F12, V-F13, V-F15. -/
theorem test_tlv01_failures :
    answered (exec (.tlv01 [0x85, 0x00, 0x04, 0xC0, 0xA8, 0x00] 0x85) State.reset) =
      some (.frame (.malformed 0x01)) ∧
    answered (exec (.tlv01 [0x85, 0x00] 0x86) State.reset) = some (.frame .notMatched) ∧
    answered (exec (.tlv01 [0x85, 0xFF, 0xFF, 0x00] 0x85) State.reset) =
      some (.frame (.malformed 0x01)) := by decide

/-- V-F16, V-F18: the instance byte is delivered. -/
theorem test_tlv2 :
    answered (exec (.tlv2 [0x01, 0x00, 0x02, 0x00, 0xAA, 0xBB] 0x01) State.reset) =
      some (.frame (.matched 6 (some 2) (some 0x00) [0xAA, 0xBB])) ∧
    answered (exec (.tlv2 [0x01, 0x00, 0x00, 0x05] 0x01) State.reset) =
      some (.frame (.matched 4 (some 0) (some 0x05) [])) := by decide

/-- V-F17, V-F19. -/
theorem test_tlv2_failures :
    answered (exec (.tlv2 [0x01, 0x00, 0x00] 0x01) State.reset) = some (.frame (.malformed 0x01)) ∧
    answered (exec (.tlv2 [0x01, 0x00, 0x02, 0x00, 0xAA] 0x01) State.reset) =
      some (.frame (.malformed 0x01)) ∧
    answered (exec (.tlv2 [0x01, 0x00, 0x02, 0x00, 0xAA, 0xBB] 0x02) State.reset) =
      some (.frame .notMatched) := by decide

/-- V-F21. -/
theorem test_skip01 :
    answered (exec (.skip01 [0x85, 0x00, 0x02, 0xAA, 0xBB]) State.reset) =
      some (.frame (.matched 5 none none [])) ∧
    answered (exec (.skip01 [0x85, 0x00, 0x02, 0xAA]) State.reset) =
      some (.frame (.malformed 0x01)) ∧
    answered (exec (.skip01 [0x85, 0x00]) State.reset) = some (.frame (.malformed 0x01)) := by decide

/-- R167, R11, R48: the parser's call latches the length field, a leaf decoder's call does not. -/
theorem test_skip_lenfld :
    (after (exec (.skip01 [0x85, 0x00, 0x02, 0xAA, 0xBB]) State.reset)).map State.lenfld = some 2 ∧
    (after (step (withInput (.unitCall (.skip01 0))
      (calling (atIe .bCall 1 0 0 [0x85, 0x00, 0x02, 0xAA, 0xBB]))))).map
      (fun t => (t.ans, t.lenfld)) = some (.frame (.matched 5 none none []), 0) := by decide

/-- The MemReads of R102 (PT set) and of R105 up to a framing check that fails. -/
theorem test_coreReads_header :
    coreReads Config.params (inHeader .h0 h0Bytes) = [1, 2, 3, 4, 5, 12, 13, 14, 15, 16, 17, 18, 19] ∧
    coreReads Config.params (inHeader .h2 (h2Bytes.take 11)) = [1, 2, 3] := by decide

/-- Three per turn (R266): the tag, and the two length bytes, if they fit. -/
theorem test_coreReads_turn :
    coreReads Config.params (atIe .bFetch 1 10 10 (h1Bytes ++ imsiIe)) = [10] ∧
    coreReads Config.params (atIe .bCall 1 10 10 (h1Bytes ++ imsiIe)) = [] ∧
    coreReads Config.params (atIe .bFallback 1 10 10 (h1Bytes ++ [0x85, 0x00, 0x02])) = [11, 12] ∧
    coreReads Config.params (atIe .bFallback 1 10 10 (h1Bytes ++ [0x85, 0x00])) = [] := by decide

/-- V-F22. -/
theorem test_skip2 :
    answered (exec (.skip2 [0x4D, 0x00, 0x01, 0x00, 0x7F]) State.reset) =
      some (.frame (.matched 5 none none [])) ∧
    answered (exec (.skip2 [0x4D, 0x00, 0x01, 0x00]) State.reset) =
      some (.frame (.malformed 0x01)) := by decide

/-- V-B1, V-B6. -/
theorem test_bcdDec :
    answered (exec (.bcdDec [0x21, 0x43, 0x65, 0x87, 0x09, 0x21, 0x43, 0xF5] 16) State.reset) =
      some (.bcd (.ok 8 15 digits15)) ∧
    answered (exec (.bcdDec [0xA1, 0xFB] 4) State.reset) =
      some (.bcd (.ok 2 3 [0x31, 0x2A, 0x23])) := by decide

/-- V-B7, V-B9, V-B10, V-B12, V-B13. -/
theorem test_bcdDec_rejects :
    answered (exec (.bcdDec [0xFF] 2) State.reset) = some (.bcd .reject) ∧
    answered (exec (.bcdDec [0xF1, 0x32] 4) State.reset) = some (.bcd .reject) ∧
    answered (exec (.bcdDec [0x1C] 2) State.reset) = some (.bcd .reject) ∧
    answered (exec (.bcdDec [0x21, 0x43, 0x65, 0x87, 0x09, 0x21, 0x43, 0xF5] 15) State.reset) =
      some (.bcd .reject) ∧
    answered (exec (.bcdDec [] 4) State.reset) = some (.bcd .reject) := by decide

/-- V-P1, V-P2: an MNC of two digits, and of three. -/
theorem test_plmnLac :
    answered (exec (.plmnLac [0x64, 0xF0, 0x00, 0x12, 0x34]) State.reset) =
      some (.plmn (.ok 5 [0x34, 0x36, 0x30] [0x30, 0x30] 0x1234)) ∧
    answered (exec (.plmnLac [0x13, 0x00, 0x14, 0x00, 0x01]) State.reset) =
      some (.plmn (.ok 5 [0x33, 0x31, 0x30] [0x34, 0x31, 0x30] 1)) := by decide

/-- V-P4, V-P5, called with `avail` = 5 of six bytes left, and with `avail` = 4. -/
theorem test_plmnLac_avail :
    (let s := calling (atIe .bCall 1 0 0 [0x64, 0xF0, 0x00, 0x12, 0x34, 0x99])
     answered (step (withInput (.unitCall (.plmnLac 0 5)) s)) =
       some (.plmn (.ok 5 [0x34, 0x36, 0x30] [0x30, 0x30] 0x1234)) ∧
     answered (step (withInput (.unitCall (.plmnLac 0 4)) s)) =
       some (.plmn (.malformed 0x01))) := by decide

/-- V-P5, V-P6. -/
theorem test_plmnLac_failures :
    answered (exec (.plmnLac [0x64, 0xF0, 0x00, 0x12]) State.reset) =
      some (.plmn (.malformed 0x01)) ∧
    answered (exec (.plmnLac [0x64, 0xF0, 0xF0, 0x12, 0x34]) State.reset) =
      some (.plmn (.malformed 0x02)) := by decide

/-- R145 on the IMSI IE of V-S1. -/
theorem test_leafImsi :
    (after (exec (.leafImsi imsiIe) State.reset)).map (fun t => (t.ans, bodyGet t.body 0x02)) =
      some (.leaf { kind := 1, n := 9, reason := 0 },
        { present := true, len := 15, data := digits15 }) := by decide

/-- V-D2, V-D7 (a tag that is not 0x02): nothing is written. -/
theorem test_leafImsi_failures :
    (after (exec (.leafImsi (imsiIe.take 8)) State.reset)).map (fun t => (t.ans, t.body)) =
      some (.leaf { kind := 2, n := 0, reason := 0x01 }, emptyBody) ∧
    (after (exec (.leafImsi [0x85, 0x00, 0x02, 0xAA, 0xBB]) State.reset)).map
      (fun t => (t.ans, t.body)) =
      some (.leaf { kind := 0, n := 0, reason := 0 }, emptyBody) := by decide

/-- R146 on the frames of V-F16 and V-F11: the instance byte reaches the interpretation in version 2. -/
theorem test_tlvShaped :
    tlvShaped 2 0x01 (fun inst value => .writes [(0x01, ⟨true, value.length, inst.toList ++ value⟩)])
      [0x01, 0x00, 0x02, 0x07, 0xAA, 0xBB] =
      ({ kind := 1, n := 6, reason := 0 },
        [(0x01, { present := true, len := 2, data := [0x07, 0xAA, 0xBB] })]) ∧
    tlvShaped 1 0x85 (fun inst _ => if inst.isSome then .malformed 0 else .writes [])
      [0x85, 0x00, 0x04, 0xC0, 0xA8, 0x00, 0x01] = ({ kind := 1, n := 7, reason := 0 }, []) := by
  decide

/-- R23: MSG_HDR of V-H1 and CMD_ARG of V-C6. -/
theorem test_images :
    msgHdrImage { Msg.empty with flags := 0x1E, msgType := 0x01, seqValid := true,
                                 tidValid := true } = 0x0A011E00 ∧
    cmdArgImage (cmdArgOf 0x00078501) = 0x00078501 := by decide

/-- Table words: what the decoder reads is what the very next step runs (log entry 12). -/
theorem test_withFetchWord :
    decodeTableWord 32 0x00000004 = some (.cmdIllegal 4) ∧
    (after (step (State.reset.withFetchWord 32 0x00000004))).map State.cmdResult = some .refused ∧
    decodeTableWord 16 0x3412 = some (.rdBe16 0x1234) ∧
    answered (step (State.reset.withFetchWord 16 0x3412)) = some (.field 0x1234) ∧
    decodeTableWord 8 0x70 = some (.hdrUnsup 3 0b10000) ∧
    (after (step (State.reset.withFetchWord 8 0x70))).map (fun t => errImage t.err) =
      some 0x00000031 := by decide

/-! ### Witnesses: for every statement with hypotheses, states and operands that meet them together -/

/-- A whole version 1 message, at the start of its decode. -/
def startedV1 : State := started (h1Bytes ++ imsiIe)

/-- The same decode at the IMSI IE. -/
def fetchV1 : State := atIe .bFetch 1 10 10 (h1Bytes ++ imsiIe)

/-- The same decode with the reference decoder's invocation outstanding. -/
def callV1 : State := calling (atIe .bCall 1 10 10 (h1Bytes ++ imsiIe))

/-- A finished decode of a message with no IE. -/
def doneV1 : State := finishSuccess (atIe .bFetch 1 10 10 h1Bytes)

/-- A started decode of an empty buffer, which ends in an error. -/
def startedEmpty : State := started []

/-- An unregistered tag with bit 7 clear at the cursor, which ends in an error. -/
def fetchStop : State := atIe .bFetch 1 10 10 (h1Bytes ++ [0x05])

/-- The cell written behind the message of `startedV1`. -/
def staleV1 : State := { startedV1 with buf := startedV1.buf ++ [(19, 0xAA)] }

/-- The invariant at the start of a decode, from its checks. -/
theorem blockInv_of_started {s : State} (hs : s.st = .hFlags)
    (hb : Memory.wf s.buf = true) (hr : Registry.wf s.reg = true)
    (hi : s.initDone = true ∧ s.msgValid = false ∧ s.result = .none ∧ s.err = ErrRegs.clear)
    (ha : s.pc = 0 ∧ s.ver = 0 ∧ s.msg = Msg.empty ∧ s.body = emptyBody)
    (hq : s.leafReq = none) : BlockInv s where
  bufCanonical := hb
  regCanonical := hr
  bodyCanonical := by rw [ha.2.2.2]; decide
  cursorInside := by rw [ha.1]; simp
  busyInitialised := fun _ => hi.1
  busyClear := fun _ => hi.2
  atStart := fun _ => ha
  version := by simp [versionKnown, hs]
  headerState := by simp [headerVersion, hs]
  fixedHeader := by simp [hs]
  headerBody := by simp [hs]
  bodyPhase := by simp [inBody, hs]
  tagAtCursor := by simp [tagPending, hs]
  request := by simp [hs]
  noRequest := fun _ => hq
  idleClear := by simp [hs]
  doneOutcome := by simp [hs]

/-- The invariant in B_FETCH, from its checks. -/
theorem blockInv_of_fetch {s : State} (hs : s.st = .bFetch)
    (hw : Memory.wf s.buf = true ∧ Registry.wf s.reg = true ∧ bodyWf s.body = true)
    (hi : s.initDone = true ∧ s.msgValid = false ∧ s.result = .none ∧ s.err = ErrRegs.clear)
    (hp : s.ieOff.toNat ≤ s.pc.toNat ∧ s.pc.toNat ≤ s.bufLen.toNat)
    (hv : s.ver = versionBits s.flags ∧ s.ver.toNat ≤ 2) (hm : successMessage s)
    (hq : s.leafReq = none) : BlockInv s where
  bufCanonical := hw.1
  regCanonical := hw.2.1
  bodyCanonical := hw.2.2
  cursorInside := fun _ => hp.2
  busyInitialised := fun _ => hi.1
  busyClear := fun _ => hi.2
  atStart := by simp [hs]
  version := fun _ => hv
  headerState := by simp [headerVersion, hs]
  fixedHeader := by simp [hs]
  headerBody := by simp [hs]
  bodyPhase := fun _ => ⟨hp.1, hm⟩
  tagAtCursor := by simp [tagPending, hs]
  request := by simp [hs]
  noRequest := fun _ => hq
  idleClear := by simp [hs]
  doneOutcome := by simp [hs]

theorem blockInv_startedV1 : BlockInv startedV1 :=
  blockInv_of_started (by decide) (by decide) (by decide) (by decide) (by decide) (by decide)

theorem blockInv_startedEmpty : BlockInv startedEmpty :=
  blockInv_of_started (by decide) (by decide) (by decide) (by decide) (by decide) (by decide)

theorem blockInv_staleV1 : BlockInv staleV1 :=
  blockInv_of_started (by decide) (by decide) (by decide) (by decide) (by decide) (by decide)

theorem blockInv_fetchV1 : BlockInv fetchV1 :=
  blockInv_of_fetch (by decide) (by decide) (by decide) (by decide) (by decide)
    (by unfold successMessage; decide) (by decide)

theorem blockInv_fetchStop : BlockInv fetchStop :=
  blockInv_of_fetch (by decide) (by decide) (by decide) (by decide) (by decide)
    (by unfold successMessage; decide) (by decide)

/-! #### Encoding and stepping -/

theorem witness_DecodeOfEncodeIsTheOperation :
    (Instr.cmdIllegal 0).wf = true ∧ (Instr.cmdIllegal 15).wf = true ∧
    (Instr.hdrFlags 0x5F).wf = true ∧ (Instr.hdrUnsup 3 0).wf = true ∧
    (Instr.hdrUnsup 7 31).wf = true ∧ (Instr.hdrEnd 2 31).wf = true ∧
    (Instr.tv imsiIe 0x02 65535).wf = true ∧ (Instr.skip01 []).wf = true := by decide

theorem witness_DecodedWordIsTheEncodingOfItsOperation :
    decode .fallback01 (.bytes [0x7F]) = .ok (.ieStop 0x7F) ∧
    decode .cmd (.cmd 0xFFFFFFF0) = .ok (.cmdIllegal 0) := by decide

/-- A parser step with nothing at the pins and with a clock edge, a command, a call, and the two inputs
that come with no request outstanding. -/
theorem witness_StepRunsTheDecodedOperation :
    (startedV1.inputs = [] ∧ parserFetch startedV1 = some (.hFlags, 0x30) ∧
      decode .hFlags (.bytes [0x30]) = .ok (.hdrFlags 0x30)) ∧
    ((withInput .clk fetchV1).inputs = [.clk] ∧ parserFetch fetchV1 = some (.bFetch, 0x02) ∧
      decode .bFetch (.bytes [0x02]) = .ok (.ieFetch 0x02)) ∧
    doneV1.st = .done ∧ doneV1.inputs = [] ∧
    ((withInput (.host (.regWrite 0x00000 0x13)) doneV1).inputs =
        [.host (.regWrite 0x00000 0x13)] ∧ decode .cmd (.cmd 0x13) = .ok .decodeCmd) ∧
    (∃ q, callV1.leafReq = some q ∧ callWord q .leafImsi callV1 = .word .leafImsi imsiIe ∧
      decode .leafImsi (.bytes imsiIe) = .ok (.leafImsi imsiIe)) ∧
    ((withInput .leafAnswer callV1).inputs = [.leafAnswer] ∧ callV1.leafReq.isSome = true ∧
      parserFetch callV1 = some (.bCall, 0x02) ∧ decode .bCall (.bytes [0x02]) = .ok (.ieCall 0x02)) ∧
    doneV1.leafReq = none := by
  refine ⟨by decide, by decide, by decide, by decide, by decide, ⟨_, rfl, by decide, by decide⟩,
    by decide, by decide⟩

theorem witness_ParserReadsTheSelectedByte :
    (startedV1.st = .hFlags ∧ 0 < startedV1.bufLen.toNat) ∧
    (fetchV1.st = .bFetch ∧ fetchV1.pc.toNat < fetchV1.bufLen.toNat) ∧
    ((atIe .bFallback 2 8 8 h2Bytes).st = .bFallback ∧ (atIe .bFallback 2 8 8 h2Bytes).ver = 2) ∧
    ((atIe .bFallback 0 8 8 h0Bytes).st = .bFallback ∧ (atIe .bFallback 0 8 8 h0Bytes).ver ≠ 2) := by
  decide

theorem witness_ResetEdgeResetsFromAnyState :
    (withInput (.rst (some (.regRead 0x0000C))) startedV1).inputs =
      [.rst (some (.regRead 0x0000C))] ∧ (withInput (.rst none) doneV1).inputs = [.rst none] := by
  decide

theorem witness_StepKeepsTheInvariantAndNeverStops : BlockInv startedV1 ∧ BlockInv fetchV1 :=
  ⟨blockInv_startedV1, blockInv_fetchV1⟩

theorem witness_BusyStepsKeepBufferAndRegistry :
    ∃ t, busy startedV1 = true ∧ (∀ a r, startedV1.inputs ≠ .rst a :: r) ∧
      step startedV1 = .next t := ⟨_, by decide, (by intro a r h; cases h), rfl⟩

theorem witness_CursorNeverMovesBack :
    ∃ t, BlockInv startedV1 ∧ busy startedV1 = true ∧ (∀ a r, startedV1.inputs ≠ .rst a :: r) ∧
      step startedV1 = .next t ∧ startedV1.pc.toNat < t.pc.toNat :=
  ⟨_, blockInv_startedV1, by decide, (by intro a r h; cases h), rfl, by decide⟩

/-- Both endings: Success at the end of the body, and an error. -/
theorem witness_ADecodeEndsInSuccessOrWithTheEmptyMessage :
    (∃ s t, selOf (.ieFetch 0) ≠ .cmd ∧ busy s = true ∧ s.err = ErrRegs.clear ∧
      exec (.ieFetch 0) s = .next t ∧ t.st = .done ∧ t.result = .success) ∧
    (∃ s t, selOf (.ieStop 0x05) ≠ .cmd ∧ busy s = true ∧ s.err = ErrRegs.clear ∧
      exec (.ieStop 0x05) s = .next t ∧ t.st = .done ∧ t.err.code = .bodyIncomplete) :=
  ⟨⟨atIe .bFetch 1 10 10 h1Bytes, _, by decide, by decide, by decide, rfl, by decide, by decide⟩,
    ⟨fetchStop, _, by decide, by decide, by decide, rfl, by decide, by decide⟩⟩

/-! #### Progress and refinement -/

/-- The run to DONE, from the header and from the body, where one turn reads the tag. -/
theorem witness_EveryDecodeReachesDone :
    (BlockInv startedEmpty ∧ busy startedEmpty = true ∧ startedEmpty.inputs = [] ∧
      hostAway startedEmpty ∧ startedEmpty.st = .hFlags ∧ ∃ t, runSteps 1 startedEmpty = .next t) ∧
    (BlockInv fetchStop ∧ busy fetchStop = true ∧ hostAway fetchStop ∧ fetchStop.st = .bFetch ∧
      (∃ t, runSteps 2 fetchStop = .next t ∧ t.st = .done) ∧ readsIn 2 fetchStop = 1 ∧
      turnsIn 2 fetchStop = 1) :=
  ⟨⟨blockInv_startedEmpty, by decide, by decide, (by intro i h; cases h), by decide, _, rfl⟩,
    ⟨blockInv_fetchStop, by decide, (by intro i h; cases h), by decide, ⟨_, rfl, by decide⟩,
      by decide, by decide⟩⟩

theorem witness_HeaderEndsWithinItsBound :
    (BlockInv startedV1 ∧ startedV1.st = .hFlags ∧ startedV1.inputs = [] ∧
      versionBits (wordAt startedV1 0) = 1) ∧
    (BlockInv startedEmpty ∧ startedEmpty.st = .hFlags ∧ startedEmpty.inputs = [] ∧
      versionBits (wordAt startedEmpty 0) ≠ 1) :=
  ⟨⟨blockInv_startedV1, by decide, by decide, by decide⟩,
    ⟨blockInv_startedEmpty, by decide, by decide, by decide⟩⟩

/-- Both outcomes of HeaderDecode. -/
theorem witness_HeaderStepsComputeHeaderDecode :
    (BlockInv startedV1 ∧ startedV1.st = .hFlags ∧ startedV1.inputs = [] ∧
      ∃ m, headerDecode Config.params (messageBytes startedV1) = .ok m ∧ m.ieOff = 10) ∧
    (BlockInv startedEmpty ∧ startedEmpty.st = .hFlags ∧ startedEmpty.inputs = [] ∧
      headerDecode Config.params (messageBytes startedEmpty) = .err .truncated 0 0) :=
  ⟨⟨blockInv_startedV1, by decide, by decide, _, rfl, by decide⟩,
    ⟨blockInv_startedEmpty, by decide, by decide, by decide⟩⟩

theorem witness_BodyStepsComputeBody :
    (BlockInv fetchV1 ∧ fetchV1.st = .bFetch ∧ fetchV1.pc = fetchV1.ieOff ∧ fetchV1.inputs = []) ∧
    (BlockInv fetchStop ∧ fetchStop.st = .bFetch ∧ fetchStop.pc = fetchStop.ieOff ∧
      fetchStop.inputs = []) :=
  ⟨⟨blockInv_fetchV1, by decide, by decide, by decide⟩,
    ⟨blockInv_fetchStop, by decide, by decide, by decide⟩⟩

theorem witness_DecodeComputesTheDecodeFunction :
    BlockInv startedV1 ∧ startedV1.st = .hFlags ∧ startedV1.inputs = [] :=
  ⟨blockInv_startedV1, by decide, by decide⟩

/-- A stale cell behind the message, and a cell inside it that the step does not read. -/
theorem witness_CellsBeyondTheMessageDoNotMatter :
    (∃ s', sameMessage startedV1 staleV1 ∧ BlockInv startedV1 ∧ BlockInv staleV1 ∧
      startedV1.inputs = [] ∧ step startedV1 = .next s' ∧ staleV1 ≠ startedV1) ∧
    (BlockInv startedV1 ∧ 0 ∈ coreReads Config.params startedV1) ∧
    (∃ t, sameReads startedV1 t ∧ bufByte t 5 ≠ bufByte startedV1 5) := by
  refine ⟨⟨_, ⟨⟨staleV1.buf, rfl⟩, ?_⟩, blockInv_startedV1, blockInv_staleV1, rfl, rfl, by decide⟩,
    ⟨blockInv_startedV1, by decide⟩,
    { startedV1 with buf := cellPut false startedV1.buf 5 0xAA }, ⟨⟨_, rfl⟩, by decide, by decide⟩,
    by decide⟩
  decide

/-! #### Host commands and accesses -/

theorem witness_InitLoadsTheRegistry :
    busy State.reset = false ∧ State.reset.initDone = false := by decide

/-- The last entry of the last bank (Added), and the entry INIT left (Replaced). -/
theorem witness_RegisterWritesOneEntry :
    (let s := { ready [] with cmdArg := { version := 2, tag := 0xFF, decId := 0xFF } }
     Registry.wf s.reg = true ∧ busy s = false ∧ s.initDone = true ∧ s.cmdArg.version ≠ 3 ∧
       s.cmdArg.decId ≠ 0 ∧ (regGet s 2 0xFF).valid = false) ∧
    (let s := { ready [] with cmdArg := { version := 1, tag := 0x02, decId := 1 } }
     Registry.wf s.reg = true ∧ busy s = false ∧ s.initDone = true ∧ s.cmdArg.version ≠ 3 ∧
       s.cmdArg.decId ≠ 0 ∧ (regGet s 1 0x02).valid = true) := by decide

theorem witness_DecodeStartsFromACleanState :
    (busy (ready []) = false ∧ (ready []).initDone = true) ∧
    (busy doneV1 = false ∧ doneV1.initDone = true ∧ doneV1.msgValid = true) := by decide

theorem witness_RefusedCommandsChangeNothingElse :
    busy startedV1 = true ∧ doneV1.initDone = true ∧ State.reset.initDone = false ∧
    { ready [] with cmdArg := cmdArgOf 0x00078503 }.cmdArg.version = 3 ∧
    { ready [] with cmdArg := cmdArgOf 0x00008501 }.cmdArg.decId = 0 := by decide

theorem witness_IllegalCommandIsRefusedInAnyState :
    (∃ v : BitVec 32, (withInput (.host (.regWrite 0x00000 v)) startedV1).inputs =
      [.host (.regWrite 0x00000 v)] ∧ v.toNat % 16 = 0 ∧ v = 0xFFFFFFF0) ∧
    (∃ v : BitVec 32, 4 ≤ v.toNat % 16 ∧ v = 4) := ⟨⟨_, rfl, by decide, rfl⟩, ⟨_, by decide, rfl⟩⟩

theorem witness_BusyWritesAreIgnoredAndSetViol :
    (busy (withInput (.host (.bufWrite 0x1FFFF 0x48)) startedV1) = true) ∧
    (busy (withInput (.host (.regWrite 0x00010 0xFFFFFFFF)) startedV1) = true) ∧
    (withInput (.host (.regWrite 0x00004 0x00078501)) startedV1).inputs =
      [.host (.regWrite 0x00004 0x00078501)] ∧
    (∃ t, (violate startedV1).viol = true ∧ (∀ a r, (violate startedV1).inputs ≠ .rst a :: r) ∧
      step (violate startedV1) = .next t) :=
  ⟨by decide, by decide, by decide, ⟨_, by decide, (by intro a r h; cases h), rfl⟩⟩

/-- The last cell, and a length whose upper bits do not exist. -/
theorem witness_HostLoadsTheBuffer :
    (let s := withInput (.host (.bufWrite 0x1FFFF 0xAA)) doneV1
     Memory.wf s.buf = true ∧ busy s = false ∧ s.inputs = [.host (.bufWrite 0x1FFFF 0xAA)]) ∧
    (let s := withInput (.host (.regWrite 0x00010 0xFFFE0013)) doneV1
     Memory.wf s.buf = true ∧ busy s = false ∧ (after (step s)).map State.bufLen = some 19) := by
  decide

/-- One state for each value of `run` and of `result`. -/
theorem witness_StatusReportsItsFields :
    (State.reset.st = .idle ∧ State.reset.result = .none) ∧
    (startedV1.st ≠ .idle ∧ startedV1.st ≠ .done) ∧
    (doneV1.st = .done ∧ doneV1.result = .success) ∧
    (raise .notGtp startedV1).result = .headerError ∧
    (raise (.bodyIncomplete 0x05 0) fetchStop).result = .bodyIncomplete := by decide

/-- Each kind of access, and an offset of each clause: CMD, the hole, an odd one, the first and the
last beyond the list. -/
theorem witness_HostReadsHaveNoEffectAndUnlistedOffsetsReadZero :
    (∃ off : Off, (withInput (.host (.regRead off)) doneV1).inputs = [.host (.regRead off)] ∧
      off.toNat = 0) ∧
    (∃ off : Off, (withInput (.host (.bufRead off)) doneV1).inputs = [.host (.bufRead off)] ∧
      off.toNat = 0x1C) ∧
    ((withInput (.host (.bodyRead 0x02)) doneV1).inputs = [.host (.bodyRead 0x02)]) ∧
    (∃ off : Off, (withInput (.host (.regWrite off 1)) doneV1).inputs =
      [.host (.regWrite off 1)] ∧ off.toNat ≠ 0 ∧ off.toNat ≠ 4 ∧ off.toNat ≠ 0x10 ∧
        off.toNat = 0x34) ∧
    (∃ off : Off, 0x34 < off.toNat ∧ off.toNat = 0x38) ∧
    (∃ off : Off, 0x34 < off.toNat ∧ off.toNat = 0x1FFFF) ∧
    (∃ off : Off, off.toNat % 4 ≠ 0 ∧ off.toNat = 1) :=
  ⟨⟨0, by decide⟩, ⟨0x1C, by decide⟩, by decide, ⟨0x34, by decide⟩, ⟨0x38, by decide⟩,
    ⟨0x1FFFF, by decide⟩, ⟨1, by decide⟩⟩

/-! #### Header -/

theorem witness_HdrFlagsDispatchesOnTheVersion :
    (startedV1.pc = 0 ∧ 1 ≤ startedV1.bufLen.toNat ∧ (0x5F : Byte).toNat < 0x60) ∧
    ((started [0x00]).pc = 0 ∧ 1 ≤ (started [0x00]).bufLen.toNat ∧ (0x00 : Byte).toNat < 0x60) ∧
    (startedEmpty.pc = 0 ∧ startedEmpty.bufLen = 0) := by decide

theorem witness_HdrUnsupRaisesUnsupportedVersion :
    3 ≤ (3 : BitVec 3).toNat ∧ 3 ≤ (7 : BitVec 3).toNat ∧
    (started [0xE0]).pc.toNat < (started [0xE0]).bufLen.toNat := by decide

/-- The header exactly fits, with and without the SNDCP flag. -/
theorem witness_HdrV0StoresTheVersion0Header :
    (let s := inHeader .h0 h0Bytes
     s.pc = 1 ∧ ptSet Config.params (headerByte 0 0b11110) = true ∧
       20 + (if sndcpSet Config.params (headerByte 0 0b11110) then Config.params.v0SndcpBytes
         else 0) = s.bufLen.toNat) ∧
    (ptSet Config.params (headerByte 0 0b11111) = true ∧
      sndcpSet Config.params (headerByte 0 0b11111) = true) := by decide

/-- The header exactly fits, without and with the sequence number. -/
theorem witness_HdrV1StoresTheVersion1Header :
    (let s := inHeader .h1 h1Bytes
     s.pc = 1 ∧ ptSet Config.params (headerByte 1 0b10000) = true ∧
       seqSet Config.params (headerByte 1 0b10000) = false ∧ 10 + 0 = s.bufLen.toNat) ∧
    (let s := inHeader .h1 ([0x32] ++ h1Bytes.drop 1 ++ [0x00, 0x00])
     s.pc = 1 ∧ ptSet Config.params (headerByte 1 0b10010) = true ∧
       seqSet Config.params (headerByte 1 0b10010) = true ∧ 10 + 2 = s.bufLen.toNat) := by decide

/-- Another marker, a chained header that exactly fits, and one a byte too short. -/
theorem witness_HdrV1ExtTakesOneTurn :
    (0x01 : Byte) ≠ 0x02 ∧
    (let s := inHeader .h1Ext [0x32, 0xAA, 0xBB, 0xCC, 0x07]
     s.pc.toNat + 4 = s.bufLen.toNat) ∧
    (let s := inHeader .h1Ext [0x32, 0xAA, 0xBB, 0xCC]
     s.bufLen.toNat + 1 = s.pc.toNat + 4) := by decide

/-- With the tunnel endpoint id, and without. -/
theorem witness_HdrV2OverwritesTheTeid :
    (let s := inHeader .h2 h2Bytes
     s.pc = 1 ∧ teidSet Config.params (headerByte 2 0b01000) = true ∧ 8 + 4 = s.bufLen.toNat ∧
       s.bufLen.toNat = 4 + (be16 (bufByte s 2) (bufByte s 3)).toNat) ∧
    (let s := inHeader .h2 [0x40, 0x20, 0x00, 0x04, 0x12, 0x34, 0x56, 0x78]
     s.pc = 1 ∧ teidSet Config.params (headerByte 2 0) = false ∧ 8 + 0 = s.bufLen.toNat ∧
       s.bufLen.toNat = 4 + (be16 (bufByte s 2) (bufByte s 3)).toNat) := by decide

/-- One byte too few and one too many. -/
theorem witness_HdrV2RaisesLengthMismatch :
    (let s := inHeader .h2 [0x40, 0x20, 0x00, 0x01]
     s.pc = 1 ∧ 4 ≤ s.bufLen.toNat ∧
       s.bufLen.toNat + 1 = 4 + (be16 (bufByte s 2) (bufByte s 3)).toNat) ∧
    (let s := inHeader .h2 (h2Bytes ++ [0x00])
     s.pc = 1 ∧ 4 ≤ s.bufLen.toNat ∧
       s.bufLen.toNat = 4 + (be16 (bufByte s 2) (bufByte s 3)).toNat + 1) := by decide

theorem witness_ClearProtocolTypeRaisesNotGtp :
    ptSet Config.params (headerByte 0 0b01111) = false ∧
    ptSet Config.params (headerByte 1 0) = false := by decide

/-- A cut in each version; in version 2 before and behind the framing check (V-E12, V-E13, V-E9,
V-E11, V-E10). -/
theorem witness_TruncatedNamesTheFirstFieldThatDoesNotFit :
    (let s := inHeader .h0 (h0Bytes.take 19)
     s.pc = 1 ∧ ptSet Config.params (headerByte 0 0b11110) = true ∧
       firstOverrun s.bufLen.toNat [(1, 1), (2, 2), (4, 2), (6, 2), (8, 0), (8, 4), (12, 8)] =
         some 12) ∧
    (let s := inHeader .h1 [0x32, 0x10, 0x00, 0x00, 0x00, 0x00, 0x00, 0x2A, 0x12, 0x34, 0x00]
     s.pc = 1 ∧ ptSet Config.params (headerByte 1 0b10010) = true ∧
       firstOverrun s.bufLen.toNat (if seqSet Config.params (headerByte 1 0b10010)
         then [(1, 1), (2, 2), (4, 4), (8, 2), (10, 2)] else [(1, 1), (2, 2), (4, 4), (8, 2)]) =
         some 10) ∧
    (let s := inHeader .h2 [0x48, 0x20, 0x00]
     s.pc = 1 ∧ firstOverrun s.bufLen.toNat [(1, 1), (2, 2)] = some 2) ∧
    (let s := inHeader .h2 [0x48, 0x20, 0x00, 0x06, 0x11, 0x22, 0x33, 0x44, 0x00, 0x00]
     s.pc = 1 ∧ s.bufLen.toNat = 4 + (be16 (bufByte s 2) (bufByte s 3)).toNat ∧
       4 ≤ s.bufLen.toNat ∧
       firstOverrun s.bufLen.toNat (if teidSet Config.params (headerByte 2 0b01000)
         then [(4, 4), (8, 4)] else [(4, 4)]) = some 8) ∧
    (let s := inHeader .h2 [0x40, 0x20, 0x00, 0x00]
     s.pc = 1 ∧ s.bufLen.toNat = 4 + (be16 (bufByte s 2) (bufByte s 3)).toNat ∧
       4 ≤ s.bufLen.toNat ∧
       firstOverrun s.bufLen.toNat (if teidSet Config.params (headerByte 2 0)
         then [(4, 4), (8, 4)] else [(4, 4)]) = some 4) := by decide

theorem witness_HdrEndFixesTheBodyVariant :
    (let s := { inHeader .hEnd h1Bytes with pc := 10 }
     (1 : BitVec 3).toNat ≤ 2 ∧ s.ver = 1 ∧ s.flags = headerByte 1 0b10000) ∧
    (let s := { inHeader .hEnd h2Bytes with pc := 12 }
     (2 : BitVec 3).toNat ≤ 2 ∧ s.ver = 2 ∧ s.flags = headerByte 2 0b01000) := by decide

/-! #### Dispatch loop -/

/-- The end of the body, a registered tag, and an unregistered one in the last byte. -/
theorem witness_IeFetchLooksUpTheTag :
    (let s := atIe .bFetch 1 10 10 h1Bytes
     s.pc = s.bufLen) ∧
    (fetchV1.pc.toNat < fetchV1.bufLen.toNat ∧
      (regGet fetchV1 fetchV1.ver.toNat 0x02).valid = true) ∧
    (fetchStop.pc.toNat + 1 = fetchStop.bufLen.toNat ∧
      (regGet fetchStop fetchStop.ver.toNat 0x05).valid = false) := by decide

/-- Each kind of answer. -/
theorem witness_IeCallAppliesTheDecodersAnswer :
    ∀ k : BitVec 2, ({ kind := k, n := 9, reason := 0x12 } : LeafRsp).kind = k := by decide

/-- The smallest and the largest legal count, 0, and one too many. -/
theorem witness_AnswersAdvanceFallBackOrAbort :
    (1 ≤ 1 ∧ 1 ≤ remBytes callV1) ∧ (1 ≤ 9 ∧ 9 = remBytes callV1) ∧ remBytes callV1 < 10 := by
  decide

/-- Frames that exactly fit. -/
theorem witness_GenericSkipsPassTheWholeFrame :
    (let s := atIe .bFallback 1 10 10 (h1Bytes ++ [0x85, 0x00, 0x02, 0xAA, 0xBB])
     s.pc.toNat + 3 + (be16 (bufByte s (s.pc.toNat + 1)) (bufByte s (s.pc.toNat + 2))).toNat =
       s.bufLen.toNat) ∧
    (let s := atIe .bFallback 2 8 8 [0x40, 0x20, 0x00, 0x09, 0x00, 0x00, 0x2A, 0x00, 0x02, 0x00,
       0x01, 0x00, 0x99]
     s.pc.toNat + 4 + (be16 (bufByte s (s.pc.toNat + 1)) (bufByte s (s.pc.toNat + 2))).toNat =
       s.bufLen.toNat) := by decide

/-- Each of the two ways, in both versions: no length field (V-U5), and a frame one byte too long
(V-U4, V-D17). -/
theorem witness_GenericSkipsRaiseTruncated :
    (let s := atIe .bFallback 1 10 10 (h1Bytes ++ [0x85, 0x00])
     s.pc.toNat ≤ s.bufLen.toNat ∧ remBytes s < 3) ∧
    (let s := atIe .bFallback 1 10 10 (h1Bytes ++ [0x85, 0x00, 0x03, 0xAA, 0xBB])
     s.pc.toNat ≤ s.bufLen.toNat ∧ remBytes s + 1 =
       3 + (be16 (bufByte s (s.pc.toNat + 1)) (bufByte s (s.pc.toNat + 2))).toNat) ∧
    (let s := atIe .bFallback 2 8 8 [0x40, 0x20, 0x00, 0x07, 0x00, 0x00, 0x2A, 0x00, 0x01, 0x00,
       0x00]
     s.pc.toNat ≤ s.bufLen.toNat ∧ remBytes s = 3 ∧ remBytes s + 1 =
       4 + (be16 (bufByte s (s.pc.toNat + 1)) (bufByte s (s.pc.toNat + 2))).toNat) := by decide

/-- V-U1 and V-U2. -/
theorem witness_UnknownTagTolerance :
    (let s := atIe .bFetch 1 10 10 (h1Bytes ++ [0x85, 0x00, 0x02, 0xAA, 0xBB])
     s.st = .bFetch ∧ s.inputs = [] ∧ s.ver ≠ 2 ∧ s.pc.toNat < s.bufLen.toNat ∧
       0x85 = bufByte s s.pc.toNat ∧ (regGet s s.ver.toNat 0x85).valid = false ∧
       128 ≤ (0x85 : Byte).toNat ∧
       2 = be16 (bufByte s (s.pc.toNat + 1)) (bufByte s (s.pc.toNat + 2)) ∧
       s.pc.toNat + 3 + 2 = s.bufLen.toNat) ∧
    (let s := atIe .bFetch 1 10 10 (h1Bytes ++ [0x05, 0x00, 0x02, 0xAA, 0xBB])
     s.st = .bFetch ∧ s.inputs = [] ∧ s.ver ≠ 2 ∧ s.pc.toNat < s.bufLen.toNat ∧
       0x05 = bufByte s s.pc.toNat ∧ (regGet s s.ver.toNat 0x05).valid = false ∧
       (0x05 : Byte).toNat < 128) := by decide

/-! #### Primitives, codec, reference decoder -/

/-- The last bytes that fit, and one byte further. -/
theorem witness_FieldReadersDeliverBigEndianValues :
    (withInput (.unitCall (.rdBe64 1)) callV1).inputs = [.unitCall (.rdBe64 1)] ∧
    callV1.leafReq.isSome = true ∧
    callV1.pc.toNat + (1 : Off).toNat + 8 = callV1.bufLen.toNat ∧
    callV1.bufLen.toNat + 1 = callV1.pc.toNat + (2 : Off).toNat + 8 := by decide

theorem witness_TvSplitsTheFrame :
    ([] : List Byte).length = 0 ∧ (([0x03] : List Byte)[0]? = some 0x03 ∧ (0x03 : Byte) ≠ 0x02) ∧
    ((imsiIe.take 8)[0]? = some 0x02 ∧ (imsiIe.take 8).length < 1 + (8 : BitVec 16).toNat) ∧
    (imsiIe[0]? = some 0x02 ∧ 1 + (8 : BitVec 16).toNat = imsiIe.length) := by decide

theorem witness_Tlv01SplitsTheFrame :
    (([0x85, 0x00] : List Byte)[0]? = some 0x85 ∧ ([0x85, 0x00] : List Byte).length < 3) ∧
    (let sub : List Byte := [0x85, 0x00, 0x01]
     sub[0]? = some 0x85 ∧ sub[1]? = some 0x00 ∧ sub[2]? = some 0x01 ∧
       sub.length < 3 + (256 * (0x00 : Byte).toNat + (0x01 : Byte).toNat)) ∧
    (let sub : List Byte := [0x85, 0x00, 0x01, 0xAA]
     sub[0]? = some 0x85 ∧ sub[1]? = some 0x00 ∧ sub[2]? = some 0x01 ∧
       3 + (256 * (0x00 : Byte).toNat + (0x01 : Byte).toNat) = sub.length) := by decide

theorem witness_Tlv2SplitsTheFrame :
    (([0x01, 0x00] : List Byte)[0]? = some 0x01 ∧ ([0x01, 0x00] : List Byte).length < 3) ∧
    (let sub : List Byte := [0x01, 0x00, 0x00]
     sub[0]? = some 0x01 ∧ sub[1]? = some 0x00 ∧ sub[2]? = some 0x00 ∧
       sub.length < 4 + (256 * (0x00 : Byte).toNat + (0x00 : Byte).toNat)) ∧
    (let sub : List Byte := [0x01, 0x00, 0x00, 0x05]
     sub[0]? = some 0x01 ∧ sub[1]? = some 0x00 ∧ sub[2]? = some 0x00 ∧
       4 + (256 * (0x00 : Byte).toNat + (0x00 : Byte).toNat) = sub.length) := by decide

theorem witness_SkipPrimitivesAnswerTheFrameSize :
    ([0x85, 0x00] : List Byte).length < 3 ∧ doneV1.leafReq = none ∧ callV1.leafReq ≠ none ∧
    (let sub : List Byte := [0x85, 0x00, 0x00]
     sub[1]? = some 0x00 ∧ sub[2]? = some 0x00 ∧
       sub.length = 3 + (256 * (0x00 : Byte).toNat + (0x00 : Byte).toNat) ∧
       sub.length < 4 + (256 * (0x00 : Byte).toNat + (0x00 : Byte).toNat)) := by decide

theorem witness_MatchedCountsLieInsideTheSubBuffer :
    splitReference (.tv 0) [0x0E] 0x0E = .matched 1 none none [] ∧
    splitReference (.tv 65535) [0x0E] 0x0E = .malformed 0x01 ∧
    splitReference .skip2 [0x4D, 0x00, 0x01, 0x00, 0x7F] 0 = .matched 5 none none [] := by decide

/-- No input, a capacity one too small, an Invalid nibble, and an odd and an even string. -/
theorem witness_BcdDecDeliversTheDigits :
    bcdCount [0x21, 0xF3] = 3 ∧ bcdCount [0x21] = 2 ∧ (15 < 2 * 8) ∧
    (2 * ([0x21, 0xF3] : List Byte).length ≤ 4) ∧
    (∀ k, k < 3 → ((nibbles [0x21, 0xF3])[k]?.bind (nibbleChar Config.params)).isSome) ∧
    ((nibbles [0x1C])[0]?.bind (nibbleChar Config.params) = none) := by decide

theorem witness_NibbleCharTable :
    (0 : BitVec 4).toNat ≤ 9 ∧ (9 : BitVec 4).toNat ≤ 9 ∧ 0xC ≤ (0xC : BitVec 4).toNat ∧
    0xC ≤ (0xF : BitVec 4).toNat := by decide

theorem witness_BcdRoundTrip :
    digits15 ≠ [] ∧ (∀ c ∈ digits15, digitChar c = true) ∧ digitChar 0x2A = true ∧
    digitChar 0x23 = true := by decide

/-- V-P1, V-P2, and a bad flag nibble and a bad digit. -/
theorem witness_PlmnLacSplitsTheTriplet :
    ([0x64, 0xF0, 0x00, 0x12] : List Byte).length < 5 ∧
    (([0x64, 0xF0, 0x00, 0x12, 0x34] : List Byte) = (6#4 ++ 4#4) :: (0xF#4 ++ 0#4) ::
      (0#4 ++ 0#4) :: 0x12 :: 0x34 :: []) ∧
    ((0#4 : BitVec 4) ≠ 0xF ∧ nibbleChar Config.params 0#4 = some 0x30) ∧
    ((0xC#4 : BitVec 4) ≠ 0xF ∧ nibbleChar Config.params 0xC#4 = none) := by decide

theorem witness_LeafImsiWritesTheDigits :
    (imsiIe.drop 1).length = 8 ∧ bodyWf State.reset.body = true ∧
    bcdDecode Config.params (imsiIe.drop 1) 16 = .ok 8 15 digits15 := by decide

theorem witness_LeafImsiFailuresWriteNothing :
    (∃ x, ([0x85] : List Byte)[0]? = some x ∧ x ≠ 0x02) ∧
    ((imsiIe.take 8)[0]?.getD 0x02 = 0x02 ∧ (imsiIe.take 8).length < 9) ∧
    (([] : List Byte)[0]?.getD 0x02 = 0x02) ∧
    (let sub : List Byte := imsiIe.take 8 ++ [0xC5]
     sub[0]? = some 0x02 ∧ 9 ≤ sub.length ∧
       bcdDecode Config.params ((sub.drop 1).take 8) 16 = .reject) :=
  ⟨⟨0x85, by decide⟩, by decide, by decide, by decide⟩

theorem witness_ReferenceDecoderConforms :
    imsiIe.length < 131072 ∧ imsiIe ≠ [] ∧ ([0x85] : List Byte) ≠ [] ∧
    leafAnsOf (leafImsi Config.params (imsiIe.take 8)).1 = .malformed 0x01 ∧
    leafAnsOf (leafImsi Config.params (imsiIe.take 8 ++ [0xC5])).1 = .malformed 0x02 := by decide

end Sys2Proof.Tests
end

section
/-! The state after reset (R26, R27): what the two sparse stores and the sequencer's view read there,
and the reset table. -/

namespace Sys2Proof.Machine

/-- In a state that lists no registry entry, every tag of every version is unregistered. -/
theorem regGet_of_reg_nil {s : State} (h : s.reg = []) (v : Nat) (t : Byte) :
    regGet s v t = RegEntry.empty := by
  simp only [regGet, h, cellFind, Option.getD_none]

/-- A BODY that lists no field holds every field absent. -/
theorem bodyGet_of_fields_nil {b : Body} (h : b.fields = []) (f : Byte) :
    bodyGet b f = Field.absent := by
  simp only [bodyGet, h, cellFind, Option.getD_none]

/-- `run` reports 0 in IDLE (R20). -/
theorem runBits_of_idle {s : State} (h : s.st = .idle) : runBits s = 0 := by
  simp only [runBits, h]

/-- Settles O6. Each plain register is read off the reset state; the registry and BODY, which the
model lists sparsely, list nothing there, so every place of theirs reads as its default. -/
theorem resetLeavesTheStatedValues : Obligations.ResetLeavesTheStatedValues := by
  have hreg : ∀ v t, regGet State.reset v t = RegEntry.empty := regGet_of_reg_nil rfl
  have hbody : ∀ f, (bodyGet State.reset.body f).present = false ∧
      (bodyGet State.reset.body f).len = 0 := fun f => by
    rw [bodyGet_of_fields_nil rfl f]
    exact ⟨rfl, rfl⟩
  -- In the order of the table: `st`, `run`, `init_done`, `viol`; REG; `buf_len`, BUF; the working
  -- registers; `msg_valid`, the Message; its body; the result, error and command registers.
  exact ⟨rfl, runBits_of_idle rfl, rfl, rfl, hreg, rfl, rfl,
    rfl, rfl, rfl, rfl, rfl, rfl, rfl, rfl, rfl, rfl,
    rfl, hbody, rfl, rfl, rfl, rfl, rfl⟩

end Sys2Proof.Machine
end

section
/-! The end of the header (R106): what HDR.END writes, and what it leaves to the host. -/

namespace Sys2Proof.Machine

/-- HDR.END enters the dispatch loop with the header fixed from its operand (R106). -/
theorem exec_hdrEnd (v : BitVec 3) (low : BitVec 5) (s : State) :
    exec (.hdrEnd v low) s =
      .next (goto .bFetch (fixHeader (v.setWidth 2) (headerByte v low) s)) := rfl

/-- HDR.END is the parser's: its writes leave the host's side alone (R48). -/
theorem goto_fixHeader_sameHostSide (x : St) (v : BitVec 2) (b : Byte) (s : State) :
    SameHostSide s (goto x (fixHeader v b s)) :=
  .of rfl rfl rfl rfl rfl rfl rfl rfl rfl rfl rfl rfl

/-- A decodable version (R100) survives the narrowing to the two bits of MSG and BODY (R18, R19). -/
theorem version_toNat_setWidth {v : BitVec 3} (hv : v.toNat ≤ 2) :
    (v.setWidth 2).toNat = v.toNat := by
  rw [BitVec.toNat_setWidth]
  omega

/-- Settles O38. HDR.END is `fixHeader` with the operand's byte; the premises make that byte the
registers `ver` and `flags`, and the version is the same number in two bits as in three. -/
theorem hdrEndFixesTheBodyVariant : Obligations.HdrEndFixesTheBodyVariant := by
  intro v low s hv hver hflags
  have hmsg : (fixHeader (v.setWidth 2) (headerByte v low) s).msg =
      { s.msg with ieOff := s.pc, version := s.ver.setWidth 2, flags := s.flags } := by
    rw [fixHeader_msg, hver, hflags]
  have hversion : (v.setWidth 2).toNat = v.toNat := version_toNat_setWidth hv
  -- In the statement's order: the next unit and `ie_off`; the Message, its version and the body
  -- variant; then what is left unchanged, the host's side and the remaining parser registers.
  exact ⟨_, exec_hdrEnd v low s, rfl, rfl, hmsg, hversion, rfl, rfl,
    goto_fixHeader_sameHostSide .bFetch _ _ s,
    rfl, rfl, rfl, rfl, rfl, rfl, rfl, rfl, rfl, rfl, rfl⟩

end Sys2Proof.Machine
end

section
/-! An IE that no decoder is registered for, in versions 0 and 1 (R144): IE.FETCH hands its tag to
the fallback, whose operation the tag's class bit (R68) selects. -/

namespace Sys2Proof.Machine

/-! ### The parser's step -/

/-- With nothing at the pins a step runs the operation that the byte read decodes to (R265). -/
theorem step_of_parserFetch {s : State} {c : Sel} {b : Byte} {i : Instr} (hi : s.inputs = [])
    (hf : parserFetch s = some (c, b)) (hd : decode c (.bytes [b]) = .ok i) :
    step s = exec i s := by
  rw [step_quiet hi, ← runWord_ok hd]
  simp only [parserEdge, hf]

/-- A run of one step is that step. -/
theorem runSteps_one (s : State) : runSteps 1 s = step s := by
  cases h : step s <;> simp only [runSteps, Host.Core.run, core, h]

/-- Before the end of the message B_FETCH reads the byte at the cursor (R131). -/
theorem parserFetch_bFetch {s : State} (hs : s.st = .bFetch)
    (hpc : s.pc.toNat < s.bufLen.toNat) :
    parserFetch s = some (.bFetch, bufByte s s.pc.toNat) := by
  simp only [parserFetch, hs, wordAt, if_pos hpc]

/-- In versions 0 and 1 the fallback reads the latched tag by its class bit (R136). -/
theorem parserFetch_fallback01 {s : State} (hs : s.st = .bFallback) (hv : s.ver ≠ 2) :
    parserFetch s = some (.fallback01, s.tag) := by
  simp only [parserFetch, hs, if_neg hv]

/-! ### The fetch of an unregistered tag -/

/-- IE.FETCH sends an unregistered tag to the fallback (R131). -/
theorem exec_ieFetch_unregistered {t : Byte} {s : State} (hpc : s.pc.toNat < s.bufLen.toNat)
    (hr : (regGet s s.ver.toNat t).valid = false) :
    exec (.ieFetch t) s = .next (goto .bFallback (latchTag t s)) := by
  have hne : s.pc ≠ s.bufLen := fun h => by simp [h] at hpc
  have hle : ¬ s.bufLen.toNat < s.pc.toNat := by omega
  simp only [exec, execIeFetch, if_neg hne, if_neg hle, hr, Bool.false_eq_true, if_false]

/-- The step that reads an unregistered tag. -/
theorem step_bFetch_unregistered {t : Byte} {s : State} (hi : s.inputs = []) (hs : s.st = .bFetch)
    (hpc : s.pc.toNat < s.bufLen.toNat) (ht : t = bufByte s s.pc.toNat)
    (hr : (regGet s s.ver.toNat t).valid = false) :
    step s = .next (goto .bFallback (latchTag t s)) := by
  have hfetch : parserFetch s = some (.bFetch, t) := by rw [parserFetch_bFetch hs hpc, ht]
  rw [step_of_parserFetch hi hfetch rfl, exec_ieFetch_unregistered hpc hr]

/-! ### The fallback of versions 0 and 1 -/

/-- IE.SKIP01 is the generic skip of the tag its operand came from (R138). -/
theorem exec_ieSkip01_of_tag {t : Byte} (ht : 128 ≤ t.toNat) (s : State) :
    exec (.ieSkip01 (t.extractLsb' 0 7)) s = skipIe tlv01Size t s := by
  have hsplit := tagByte_split t
  rw [(tlvClass_iff t).mpr ht] at hsplit
  simp only [exec, execIeSkip01, hsplit]

/-- IE.STOP raises BodyIncomplete on the tag its operand came from (R140). -/
theorem exec_ieStop_of_tag {t : Byte} (ht : t.toNat < 128) (s : State) :
    exec (.ieStop (t.extractLsb' 0 7)) s = .next (raise (.bodyIncomplete t (bodyIdx s)) s) := by
  have hclass : tlvClass t = false := by
    rw [Bool.eq_false_iff, Ne, tlvClass_iff]
    omega
  have hsplit := tagByte_split t
  rw [hclass] at hsplit
  simp only [exec, execIeStop, hsplit]

/-- The fallback on a tag with the high bit set skips the frame (R136, R138). -/
theorem step_fallback01_tlv {s : State} (hi : s.inputs = []) (hs : s.st = .bFallback)
    (hv : s.ver ≠ 2) (ht : 128 ≤ s.tag.toNat) : step s = skipIe tlv01Size s.tag s := by
  have hd : decode .fallback01 (.bytes [s.tag]) = .ok (.ieSkip01 (s.tag.extractLsb' 0 7)) :=
    if_pos ((tlvClass_iff s.tag).mpr ht)
  rw [step_of_parserFetch hi (parserFetch_fallback01 hs hv) hd, exec_ieSkip01_of_tag ht]

/-- The fallback on a tag with the high bit clear stops the decode (R136, R140). -/
theorem step_fallback01_tv {s : State} (hi : s.inputs = []) (hs : s.st = .bFallback)
    (hv : s.ver ≠ 2) (ht : s.tag.toNat < 128) :
    step s = .next (raise (.bodyIncomplete s.tag (bodyIdx s)) s) := by
  have hd : decode .fallback01 (.bytes [s.tag]) = .ok (.ieStop (s.tag.extractLsb' 0 7)) :=
    if_neg (by rw [tlvClass_iff]; omega)
  rw [step_of_parserFetch hi (parserFetch_fallback01 hs hv) hd, exec_ieStop_of_tag ht]

/-! ### The turn of an unregistered tag -/

/-- The way to the fallback is the parser's: it leaves the host's side alone (R48). -/
theorem goto_latchTag_sameHostSide (x : St) (t : Byte) (s : State) :
    SameHostSide s (goto x (latchTag t s)) :=
  .of rfl rfl rfl rfl rfl rfl rfl rfl rfl rfl rfl rfl

/-- A generic skip is the parser's: it leaves the host's side alone (R48). -/
theorem goto_advance_latchLength_sameHostSide (x : St) (n : Nat) (len : BitVec 16) (s : State) :
    SameHostSide s (goto x (advance n (latchLength len s))) :=
  .of rfl rfl rfl rfl rfl rfl rfl rfl rfl rfl rfl rfl

/-- Settles O45. The first step latches the tag and enters the fallback, where nothing else that the
second one looks at has changed; the tag's high bit says whether that one is IE.SKIP01, whose frame
fits, or IE.STOP. -/
theorem unknownTagTolerance : Obligations.UnknownTagTolerance := by
  intro s tag len hst hin hver hpc htag hreg hlen
  have hturn : runSteps 2 s = step (goto .bFallback (latchTag tag s)) :=
    (runSteps_succ 1 (step_bFetch_unregistered hin hst hpc htag hreg)).trans (runSteps_one _)
  have hhost := goto_latchTag_sameHostSide .bFallback tag s
  constructor
  · intro htlv hfits
    have hframe : s.pc.toNat + tlv01Size len.toNat ≤ s.bufLen.toNat := by
      rwa [tlv01Size, ← Nat.add_assoc]
    have hstep := step_fallback01_tlv (s := goto .bFallback (latchTag tag s)) hin rfl hver htlv
    have hskip := skipIe_fits (s := goto .bFallback (latchTag tag s)) tag hlen
      (Nat.le_add_right 3 len.toNat) hframe
    have hcursor := advance_toNat (s := latchLength len (goto .bFallback (latchTag tag s))) hframe
    exact ⟨_, hturn.trans (hstep.trans hskip), rfl, hcursor.trans (Nat.add_assoc _ _ _).symm,
      hhost.trans (goto_advance_latchLength_sameHostSide _ _ _ _), rfl, rfl, rfl, rfl, rfl⟩
  · intro htv
    have hstop := step_fallback01_tv (s := goto .bFallback (latchTag tag s)) hin rfl hver htv
    have herr := raise_errorStep (.bodyIncomplete tag (bodyIdx s))
      (goto .bFallback (latchTag tag s))
    exact ⟨_, hturn.trans hstop, .of_host hhost herr.entry⟩

end Sys2Proof.Machine
end

section
/-! The nibble-to-character table (R181): what each row of it reads, for every choice of BCD_OTHER, and
the table under the default. -/

namespace Sys2Proof.Machine

/-- A decimal nibble reads as its ASCII digit (R181). -/
theorem nibbleChar_of_le_nine (p : Params) {nib : BitVec 4} (h : nib.toNat ≤ 9) :
    nibbleChar p nib = some (BitVec.ofNat 8 (0x30 + nib.toNat)) :=
  if_pos h

/-- Nibble 0xA reads as `'*'` (R181). -/
theorem nibbleChar_star (p : Params) : nibbleChar p 0xA = some 0x2A := rfl

/-- Nibble 0xB reads as `'#'` (R181). -/
theorem nibbleChar_hash (p : Params) : nibbleChar p 0xB = some 0x23 := rfl

/-- BCD_OTHER gives the character of every nibble above 0xB (R5, R181). -/
theorem nibbleChar_of_twelve_le (p : Params) {nib : BitVec 4} (h : 0xC ≤ nib.toNat) :
    nibbleChar p nib = p.bcdOther nib := by
  have hdigit : ¬ nib.toNat ≤ 9 := by omega
  have hstar : nib ≠ 0xA := by rintro rfl; exact absurd h (by decide)
  have hhash : nib ≠ 0xB := by rintro rfl; exact absurd h (by decide)
  rw [nibbleChar, if_neg hdigit, if_neg hstar, if_neg hhash]

/-- Settles O54, row by row. A digit's character code fits a byte, so it is 0x30 plus the nibble; the
default BCD_OTHER is Invalid for every nibble, which settles the last row. -/
theorem nibbleCharTable : Obligations.NibbleCharTable := by
  refine ⟨fun nib h => ⟨_, nibbleChar_of_le_nine _ h, ?_⟩, nibbleChar_star _, nibbleChar_hash _,
    fun nib h => nibbleChar_of_twelve_le _ h⟩
  rw [BitVec.toNat_ofNat]
  omega

end Sys2Proof.Machine
end

section
/-! Host accesses that the block refuses or always takes (R206, R207, R72): what one step makes of each,
and the sticky bit `viol`, which no step but a reset edge clears (R20). -/

namespace Sys2Proof.Machine

/-! ### The step of a host access -/

/-- A write to CMD executes the operation its word decodes to (R71, R200). -/
theorem step_cmdWrite {s : State} {v : BitVec 32} {r : List Input}
    (h : s.inputs = .host (.regWrite cmdOffset v) :: r) :
    step s = exec (decodeCmdWord v) { s with inputs := r } := by
  rw [step_input h]
  exact runWord_ok (c := .cmd) (w := .cmd v) rfl _

/-- A write of the register window other than to CMD is its transaction (R23). -/
theorem step_regWrite {s : State} {off : Off} {v : BitVec 32} {r : List Input}
    (h : s.inputs = .host (.regWrite off v) :: r) (hoff : off ≠ cmdOffset) :
    step s = .next (hostRegWrite off v { s with inputs := r }) := by
  rw [step_input h]
  exact if_neg hoff

/-- A write of the BUF window is its transaction (R204). -/
theorem step_bufWrite {s : State} {a : Off} {v : Byte} {r : List Input}
    (h : s.inputs = .host (.bufWrite a v) :: r) :
    step s = .next (hostBufWrite a v { s with inputs := r }) :=
  step_input h

/-! ### Illegal commands (R206) -/

/-- CMD.ILLEGAL answers Refused and does nothing else (R206). -/
theorem exec_cmdIllegal (op : BitVec 4) (s : State) :
    exec (.cmdIllegal op) s = .next { s with cmdResult := .refused } := rfl

/-- A command word whose `op` is 0 or 4 to 15 is illegal, whatever its other bits (R71). -/
theorem decodeCmdWord_illegal {v : BitVec 32} (h : v.toNat % 16 = 0 ∨ 4 ≤ v.toNat % 16) :
    decodeCmdWord v = .cmdIllegal (v.extractLsb' 0 4) := by
  have hop : (v.extractLsb' 0 4).toNat = v.toNat % 16 := by simp
  have hne : ∀ op : BitVec 4, 1 ≤ op.toNat → op.toNat ≤ 3 → v.extractLsb' 0 4 ≠ op := by
    rintro op h1 h3 rfl
    omega
  simp only [decodeCmdWord, if_neg (hne 1 (by decide) (by decide)),
    if_neg (hne 2 (by decide) (by decide)), if_neg (hne 3 (by decide) (by decide))]

/-- Settles O23. The operation is one reply; a write of an illegal word reaches it through the decoder,
which looks at `op` only, and no state register is asked. -/
theorem illegalCommandIsRefusedInAnyState : Obligations.IllegalCommandIsRefusedInAnyState := by
  refine ⟨exec_cmdIllegal, fun s v r hin hop => ?_⟩
  rw [step_cmdWrite hin, decodeCmdWord_illegal hop, exec_cmdIllegal]

/-! ### Writes while BUSY, and CMD_ARG (R207, R72) -/

/-- A write of a BUF cell while BUSY does nothing but set `viol` (R207). -/
theorem hostBufWrite_busy {s : State} (h : busy s = true) (a : Off) (v : Byte) :
    hostBufWrite a v s = violate s := if_pos h

/-- A write of BUF_LEN while BUSY does nothing but set `viol` (R207). -/
theorem hostRegWrite_bufLen_busy {s : State} (h : busy s = true) (v : BitVec 32) :
    hostRegWrite 0x00010 v s = violate s := by
  have hoff : (0x00010 : Off) ≠ 0x00004 := by decide
  rw [hostRegWrite, if_neg hoff, if_pos rfl, if_pos h]

/-- A write of CMD_ARG latches its fields in any state (R207). -/
theorem hostRegWrite_cmdArg (v : BitVec 32) (s : State) :
    hostRegWrite 0x00004 v s = { s with cmdArg := cmdArgOf v } := if_pos rfl

/-- The version of CMD_ARG is bits 1:0 (R72). -/
theorem cmdArgOf_version_toNat (v : BitVec 32) : (cmdArgOf v).version.toNat = v.toNat % 4 := by
  simp [cmdArgOf]

/-- The tag of CMD_ARG is bits 15:8 (R72). -/
theorem cmdArgOf_tag_toNat (v : BitVec 32) : (cmdArgOf v).tag.toNat = v.toNat / 2 ^ 8 % 256 := by
  simp [cmdArgOf, Nat.shiftRight_eq_div_pow]

/-- The decoder identifier of CMD_ARG is bits 23:16 (R72). -/
theorem cmdArgOf_decId_toNat (v : BitVec 32) :
    (cmdArgOf v).decId.toNat = v.toNat / 2 ^ 16 % 256 := by
  simp [cmdArgOf, Nat.shiftRight_eq_div_pow]

/-! ### What an operation leaves of `viol` -/

/-- Wherever the outcome goes on, it goes on with `viol` = `b`. -/
def ViolIs (b : Bool) (o : Out) : Prop := ∀ t, o = .next t → t.viol = b

namespace ViolIs

variable {b : Bool} {s₀ s : State}

theorem next {t : State} (h : t.viol = b) : ViolIs b (.next t) := by
  rintro u ⟨⟩
  exact h

theorem fault (f : Fault) : ViolIs b (.fault f) := by
  rintro u ⟨⟩

theorem refused (f : Refusal) : ViolIs b (.refused f) := by
  rintro u ⟨⟩

/-- A choice keeps `viol` when both its branches do. -/
theorem ite {c : Prop} [Decidable c] {o o' : Out} (h : ViolIs b o) (h' : ViolIs b o') :
    ViolIs b (if c then o else o') := by
  split
  · exact h
  · exact h'

/-- A guard raises in the state its step began with, or goes on. -/
theorem need {w : Nat} {k : State → Out} (h₀ : s₀.viol = b) (hk : ViolIs b (k s)) :
    ViolIs b (need s₀ w s k) :=
  .ite (.next h₀) hk

/-- A read of BUF stops, or goes on with the value read. -/
theorem readBuf {a n : Nat} {k : Nat → Out} (hk : ∀ v, ViolIs b (k v)) :
    ViolIs b (readBuf a n s k) := by
  unfold Machine.readBuf
  split
  · exact hk _
  · exact .fault _

/-- A field that does not fit raises in the state its step began with; one that fits is consumed, which
leaves `viol`. -/
theorem takeField {n : Nat} {k : Nat → State → Out} (h₀ : s₀.viol = b) (h : s.viol = b)
    (hk : ∀ v t, t.viol = b → ViolIs b (k v t)) : ViolIs b (takeField s₀ n s k) :=
  .need h₀ (.readBuf fun v => hk v _ h)

/-- The same of a field that is not stored. -/
theorem skipField {n : Nat} {k : State → Out} (h₀ : s₀.viol = b) (h : s.viol = b)
    (hk : ∀ t, t.viol = b → ViolIs b (k t)) : ViolIs b (skipField s₀ n s k) :=
  .need h₀ (hk _ h)

end ViolIs

/-! ### The operations -/

/-- INIT leaves `viol` (R201). -/
theorem execInit_violIs (s : State) : ViolIs s.viol (execInit s) := .ite (.next rfl) (.next rfl)

/-- REGISTER leaves `viol` (R202). -/
theorem execRegister_violIs (s : State) : ViolIs s.viol (execRegister s) :=
  .ite (.next rfl) (.next rfl)

/-- DECODE leaves `viol` (R203). -/
theorem execDecode_violIs (s : State) : ViolIs s.viol (execDecode s) := .ite (.next rfl) (.next rfl)

/-- HDR.FLAGS leaves `viol` (R100). -/
theorem execHdrFlags_violIs (b : Byte) (s : State) : ViolIs s.viol (execHdrFlags b s) := by
  refine .need rfl ?_
  split
  · exact .next rfl
  · exact .next rfl

/-- HDR.V0 leaves `viol`: each of its lines does (R102). -/
theorem headerV0_violIs (p : Params) (flags : Byte) (s : State) :
    ViolIs s.viol (headerV0 p flags s) := by
  refine .ite ?_ (.next rfl)
  -- Message type, length, sequence number; the flow label, the N-PDU part and the four bytes after it,
  -- which are not stored; the tunnel identifier.
  exact .takeField rfl rfl fun _ _ h => .takeField rfl h fun _ _ h => .takeField rfl h fun _ _ h =>
    .skipField rfl h fun _ h => .skipField rfl h fun _ h => .skipField rfl h fun _ h =>
    .takeField rfl h fun _ _ h => .next h

/-- The reserved/N-PDU pair leaves `viol` (R103). -/
theorem headerV1Pair_violIs {b : Bool} {s₀ s : State} (h₀ : s₀.viol = b) (h : s.viol = b) :
    ViolIs b (headerV1Pair s₀ s) :=
  .need h₀ (.readBuf fun _ => .next h)

/-- The conditional sequence number and the pair leave `viol` (R103). -/
theorem headerV1Seq_violIs {p : Params} {flags : Byte} {b : Bool} {s₀ s : State}
    (h₀ : s₀.viol = b) (h : s.viol = b) : ViolIs b (headerV1Seq p flags s₀ s) :=
  .ite (.takeField h₀ h fun _ _ h => headerV1Pair_violIs h₀ h) (headerV1Pair_violIs h₀ h)

/-- HDR.V1 leaves `viol`: each of its lines does (R103). -/
theorem headerV1_violIs (p : Params) (flags : Byte) (s : State) :
    ViolIs s.viol (headerV1 p flags s) := by
  refine .ite ?_ (.next rfl)
  exact .takeField rfl rfl fun _ _ h => .takeField rfl h fun _ _ h => .takeField rfl h fun _ _ h =>
    headerV1Seq_violIs rfl h

/-- HDR.V1.EXT leaves `viol` (R104). -/
theorem headerV1Ext_violIs (p : Params) (m : Byte) (s : State) :
    ViolIs s.viol (headerV1Ext p m s) :=
  .ite (.need rfl (.readBuf fun _ => .next rfl)) (.next rfl)

/-- The secondary field of version 2 leaves `viol` (R105). -/
theorem headerV2Secondary_violIs {b : Bool} {s₀ s : State} (h₀ : s₀.viol = b) (h : s.viol = b) :
    ViolIs b (headerV2Secondary s₀ s) :=
  .takeField h₀ h fun _ _ h => .next h

/-- The conditional tunnel endpoint id and the secondary field leave `viol` (R105). -/
theorem headerV2Teid_violIs {p : Params} {flags : Byte} {b : Bool} {s₀ s : State}
    (h₀ : s₀.viol = b) (h : s.viol = b) : ViolIs b (headerV2Teid p flags s₀ s) :=
  .ite (.takeField h₀ h fun _ _ h => headerV2Secondary_violIs h₀ h) (headerV2Secondary_violIs h₀ h)

/-- HDR.V2 leaves `viol`: each of its lines does, and so does the framing check (R105). -/
theorem headerV2_violIs (p : Params) (flags : Byte) (s : State) :
    ViolIs s.viol (headerV2 p flags s) :=
  .takeField rfl rfl fun _ _ h => .takeField rfl h fun _ _ h =>
    .ite (headerV2Teid_violIs rfl h) (.next rfl)

/-- IE.FETCH leaves `viol` (R131). -/
theorem execIeFetch_violIs (t : Byte) (s : State) : ViolIs s.viol (execIeFetch t s) :=
  .ite (.next rfl) (.ite (.fault _) (.ite (.next rfl) (.next rfl)))

/-- Each answer of a leaf decoder leaves `viol` (R133 to R135). -/
theorem leafAnswered_viol (t : Byte) (a : LeafAns) (s : State) :
    (leafAnswered t a s).viol = s.viol := by
  cases a with
  | matched n =>
    rw [leafAnswered]
    split
    · rfl
    · rfl
  | notMatched => rfl
  | malformed r => rfl

/-- IE.CALL leaves `viol` (R132). -/
theorem execIeCall_violIs (t : Byte) (s : State) : ViolIs s.viol (execIeCall t s) :=
  .next (leafAnswered_viol _ _ _)

/-- A generic skip leaves `viol` (R138, R139). -/
theorem skipIe_violIs (size : Nat → Nat) (t : Byte) (s : State) :
    ViolIs s.viol (skipIe size t s) :=
  .ite (.next rfl) (.readBuf fun _ => .ite (.next rfl) (.next rfl))

/-- No operation changes `viol` (R20). -/
theorem exec_violIs (i : Instr) (s : State) : ViolIs s.viol (exec i s) := by
  cases i with
  | initCmd => exact execInit_violIs s
  | registerCmd => exact execRegister_violIs s
  | decodeCmd => exact execDecode_violIs s
  | hdrFlags b => exact execHdrFlags_violIs b s
  | hdrV0 low => exact headerV0_violIs _ _ s
  | hdrV1 low => exact headerV1_violIs _ _ s
  | hdrV1Ext m => exact headerV1Ext_violIs _ m s
  | hdrV2 low => exact headerV2_violIs _ _ s
  | ieFetch t => exact execIeFetch_violIs t s
  | ieCall t => exact execIeCall_violIs t s
  | ieSkip01 low => exact skipIe_violIs _ _ s
  | ieSkip2 t => exact skipIe_violIs _ t s
  -- The operations that are one transition of named updates: an error, the end of the header, an answer.
  | cmdIllegal | hdrUnsup | hdrEnd | ieStop | rdU8 | rdBe16 | rdBe32 | rdBe64 | tv | tlv01 | tlv2
  | skip01 | skip2 | bcdDec | plmnLac | leafImsi => exact .next rfl

/-! ### The inputs at the pins -/

/-- Whatever word a unit is given, `viol` stays. -/
theorem runWord_violIs (c : Sel) (w : RawWord) (s : State) :
    ViolIs s.viol (runWord Config.params c w s) := by
  unfold runWord
  split
  · rw [execWith_default]
    exact exec_violIs _ s
  · exact .refused _

/-- The parser's step leaves `viol`. -/
theorem parserEdge_violIs (s : State) : ViolIs s.viol (parserEdge Config.params s) := by
  unfold parserEdge
  split
  · exact .next rfl
  · exact runWord_violIs _ _ s

/-- A leaf decoder's call of a unit leaves `viol` (R48). -/
theorem unitEdge_violIs (call : UnitCall) (s : State) :
    ViolIs s.viol (unitEdge Config.params call s) := by
  unfold unitEdge
  split
  · exact .next rfl
  · split
    · exact runWord_violIs _ _ s
    · exact .next rfl
    · exact .next rfl

/-- The answer strobe leaves `viol` (R251). -/
theorem leafEdge_violIs (s : State) : ViolIs s.viol (leafEdge Config.params s) := by
  unfold leafEdge
  split
  · exact .next rfl
  · exact parserEdge_violIs s

/-- No register write clears `viol` (R20). -/
theorem hostRegWrite_keeps_viol {s : State} (h : s.viol = true) (off : Off) (v : BitVec 32) :
    (hostRegWrite off v s).viol = true := by
  unfold hostRegWrite
  split
  · exact h
  · split
    · split
      · rfl
      · exact h
    · exact h

/-- No host access clears `viol`: STATUS has no write, and a write can only set the bit (R20, R207). -/
theorem hostAccess_keeps_viol {s : State} (h : s.viol = true) (a : HostAccess) :
    (hostAccess a s).viol = true := by
  cases a with
  | regWrite off v => exact hostRegWrite_keeps_viol h off v
  | bufWrite a v =>
    rw [hostAccess, hostBufWrite]
    split
    · rfl
    · exact h
  | regRead off => exact h
  | bufRead a => exact h
  | bodyRead f => exact h

/-- Nor does a command (R200). -/
theorem hostEdge_keeps_viol {s : State} (h : s.viol = true) (a : HostAccess) :
    ViolIs true (hostEdge Config.params a s) := by
  have haccess : ViolIs true (.next (hostAccess a s)) := .next (hostAccess_keeps_viol h a)
  cases a with
  | regWrite off v => exact .ite (h ▸ runWord_violIs _ _ s) haccess
  | regRead off => exact haccess
  | bufWrite a v => exact haccess
  | bufRead a => exact haccess
  | bodyRead f => exact haccess

/-- Of the inputs at the pins a reset edge alone clears `viol` (R20, R250). -/
theorem edge_keeps_viol {i : Input} {s : State} (h : s.viol = true) (hi : ∀ a, i ≠ .rst a) :
    ViolIs true (edge Config.params i s) := by
  cases i with
  | clk => exact h ▸ parserEdge_violIs s
  | host a => exact hostEdge_keeps_viol h a
  | rst a => exact absurd rfl (hi a)
  | unitCall c => exact h ▸ unitEdge_violIs c s
  | leafAnswer => exact h ▸ leafEdge_violIs s

/-- `viol` is sticky: a step that is no reset edge keeps it (R20). -/
theorem step_keeps_viol {s : State} (h : s.viol = true) (hr : ∀ a r, s.inputs ≠ .rst a :: r) :
    ViolIs true (step s) := by
  cases hin : s.inputs with
  | nil =>
    rw [step_quiet hin, ← h]
    exact parserEdge_violIs s
  | cons i r =>
    have hi : ∀ a, i ≠ .rst a := fun a ha => hr a r (by rw [hin, ha])
    rw [step_input hin]
    exact edge_keeps_viol (s := { s with inputs := r }) h hi

/-- Settles O24. A step serves the access in the state with that input taken off, where BUSY is as
before; that `viol` is sticky is `step_keeps_viol`. -/
theorem busyWritesAreIgnoredAndSetViol : Obligations.BusyWritesAreIgnoredAndSetViol := by
  refine ⟨fun s r hbusy => ⟨fun a v hin => ?_, fun v hin => ?_⟩, fun s r v hin => ?_,
    fun s t hv hr => step_keeps_viol hv hr t⟩
  · rw [step_bufWrite hin, hostBufWrite_busy (s := { s with inputs := r }) hbusy]
    rfl
  · rw [step_regWrite hin (by decide), hostRegWrite_bufLen_busy (s := { s with inputs := r }) hbusy]
    rfl
  · exact ⟨_, (step_regWrite hin (by decide)).trans (congrArg _ (hostRegWrite_cmdArg v _)), rfl,
      cmdArgOf_version_toNat v, cmdArgOf_tag_toNat v, cmdArgOf_decId_toNat v⟩

end Sys2Proof.Machine
end

section
/-! The encoding (`30_encoding.md`): each unit reads back what the encoder writes for it, and what a unit
reads is well formed and determines the word. -/

namespace Sys2Proof.Machine

/-- Settles O1: each word is a literal of the layouts. -/
theorem writtenOutWordsDecode : Obligations.WrittenOutWordsDecode := by
  unfold Obligations.WrittenOutWordsDecode
  decide

/-- Settles O2: the round trip of each operation, one case for each constructor. -/
theorem decodeOfEncodeIsTheOperation : Obligations.DecodeOfEncodeIsTheOperation := by
  intro i
  cases i with
  | initCmd => exact Laws.RoundTrip.initCmd
  | registerCmd => exact Laws.RoundTrip.registerCmd
  | decodeCmd => exact Laws.RoundTrip.decodeCmd
  | cmdIllegal op => exact Laws.RoundTrip.cmdIllegal op
  | hdrFlags b => exact Laws.RoundTrip.hdrFlags b
  | hdrUnsup v low => exact Laws.RoundTrip.hdrUnsup v low
  | hdrV0 low => exact Laws.RoundTrip.hdrV0 low
  | hdrV1 low => exact Laws.RoundTrip.hdrV1 low
  | hdrV1Ext m => exact Laws.RoundTrip.hdrV1Ext m
  | hdrV2 low => exact Laws.RoundTrip.hdrV2 low
  | hdrEnd v low => exact Laws.RoundTrip.hdrEnd v low
  | ieFetch t => exact Laws.RoundTrip.ieFetch t
  | ieCall t => exact Laws.RoundTrip.ieCall t
  | ieSkip01 low => exact Laws.RoundTrip.ieSkip01 low
  | ieSkip2 t => exact Laws.RoundTrip.ieSkip2 t
  | ieStop low => exact Laws.RoundTrip.ieStop low
  | rdU8 v => exact Laws.RoundTrip.rdU8 v
  | rdBe16 v => exact Laws.RoundTrip.rdBe16 v
  | rdBe32 v => exact Laws.RoundTrip.rdBe32 v
  | rdBe64 v => exact Laws.RoundTrip.rdBe64 v
  | tv sub e n => exact Laws.RoundTrip.tv sub e n
  | tlv01 sub e => exact Laws.RoundTrip.tlv01 sub e
  | tlv2 sub e => exact Laws.RoundTrip.tlv2 sub e
  | skip01 sub => exact Laws.RoundTrip.skip01 sub
  | skip2 sub => exact Laws.RoundTrip.skip2 sub
  | bcdDec src cap => exact Laws.RoundTrip.bcdDec src cap
  | plmnLac src => exact Laws.RoundTrip.plmnLac src
  | leafImsi sub => exact Laws.RoundTrip.leafImsi sub

/-- An operation that unit `c` reads from the word `w`: well formed, that unit's, and with that word as
its encoding. -/
def SpelledBy (c : Sel) (w : RawWord) (i : Instr) : Prop :=
  i.wf = true ∧ selOf i = c ∧ encode i = w

/-- A choice that rejects on one side spells what it accepts on the other. -/
theorem spelledBy_of_ite {c : Sel} {w : RawWord} {p : Prop} [Decidable p] {i j : Instr} {why : Reject}
    (h : (if p then Decoded.ok i else .reject why) = .ok j) (hi : p → SpelledBy c w i) :
    SpelledBy c w j := by
  split at h
  next hp => cases h; exact hi hp
  next => cases h

/-- In `H_FLAGS` bits 7:5 say whether byte 0 is HDR.FLAGS or HDR.UNSUP (R61, R101). -/
theorem decodeByte_hFlags_spelled {b : Byte} {i : Instr} (h : decodeByte .hFlags b = .ok i) :
    SpelledBy .hFlags (.bytes [b]) i := by
  simp only [decodeByte] at h
  split at h
  next hv => cases h; exact ⟨decide_eq_true hv, rfl, by rw [encode, headerByte_split]⟩
  next hv =>
    cases h
    rw [versionBits_toNat] at hv
    exact ⟨decide_eq_true (by omega), rfl, rfl⟩

/-- In the fallback of versions 0 and 1 bit 7 of the tag says whether it is IE.SKIP01 or IE.STOP
(R68, R136). -/
theorem decodeByte_fallback01_spelled {b : Byte} {i : Instr} (h : decodeByte .fallback01 b = .ok i) :
    SpelledBy .fallback01 (.bytes [b]) i := by
  have hsplit := tagByte_split b
  simp only [decodeByte] at h
  split at h
  next hc => cases h; rw [hc] at hsplit; exact ⟨rfl, rfl, by rw [encode, hsplit]⟩
  next hc =>
    cases h
    rw [Bool.eq_false_iff.mpr hc] at hsplit
    exact ⟨rfl, rfl, by rw [encode, hsplit]⟩

/-- A header byte with a known version is that version's encoding. -/
theorem encode_headerByte {b : Byte} {v : BitVec 3} (h : versionBits b = v) :
    RawWord.bytes [headerByte v (lowBits b)] = .bytes [b] := by
  rw [← h, headerByte_split]

/-- What a unit that reads one byte reads. -/
theorem decodeByte_spelled {c : Sel} {b : Byte} {i : Instr} (h : decodeByte c b = .ok i) :
    SpelledBy c (.bytes [b]) i := by
  cases c with
  | hFlags => exact decodeByte_hFlags_spelled h
  | fallback01 => exact decodeByte_fallback01_spelled h
  | h0 => exact spelledBy_of_ite h fun hv => ⟨rfl, rfl, encode_headerByte hv⟩
  | h1 => exact spelledBy_of_ite h fun hv => ⟨rfl, rfl, encode_headerByte hv⟩
  | h2 => exact spelledBy_of_ite h fun hv => ⟨rfl, rfl, encode_headerByte hv⟩
  | hEnd => exact spelledBy_of_ite h fun hv => ⟨decide_eq_true hv, rfl, encode_headerByte rfl⟩
  | h1Ext | bFetch | bCall | fallback2 => cases h; exact ⟨rfl, rfl, rfl⟩
  | rdU8 => cases h; exact ⟨rfl, rfl, by simp [encode, beBytes]⟩
  | cmd | rdBe16 | rdBe32 | rdBe64 | tv | tlv01 | tlv2 | skip01 | skip2 | bcdDec | plmnLac
  | leafImsi => cases h

/-- A unit that reads one byte reads no other number of bytes. -/
theorem decodeOne_spelled {c : Sel} {l : List Byte} {i : Instr} (h : decodeOne c l = .ok i) :
    SpelledBy c (.bytes l) i := by
  unfold decodeOne at h
  split at h
  · exact decodeByte_spelled h
  · cases h

/-- A field reader reads the big-endian value of its bytes (R160 to R163). -/
theorem encode_field {n : Nat} {l : List Byte} (h : l.length = n) :
    RawWord.bytes (beBytes n (BitVec.ofNat (8 * n) (beNat l)).toNat) = .bytes l := by
  have hlt := beNat_lt l
  rw [h, show 256 ^ n = 2 ^ (8 * n) by rw [Nat.pow_mul]] at hlt
  rw [BitVec.toNat_ofNat, Nat.mod_eq_of_lt hlt, ← h, beBytes_beNat]

/-- A unit that takes a sub-buffer takes one that lies in the buffer, as it stands (R45). -/
theorem decodeSub_spelled {c : Sel} {l : List Byte} {i j : Instr} (h : decodeSub l i = .ok j)
    (hi : fitsBuffer l = true → SpelledBy c (.bytes l) i) : SpelledBy c (.bytes l) j :=
  spelledBy_of_ite h hi

/-- What a byte unit reads. -/
theorem decodeBytes_spelled {c : Sel} {l : List Byte} {i : Instr} (h : decodeBytes c l = .ok i) :
    SpelledBy c (.bytes l) i := by
  cases c with
  | cmd => cases h
  | rdBe16 => exact spelledBy_of_ite h fun hl => ⟨rfl, rfl, encode_field hl⟩
  | rdBe32 => exact spelledBy_of_ite h fun hl => ⟨rfl, rfl, encode_field hl⟩
  | rdBe64 => exact spelledBy_of_ite h fun hl => ⟨rfl, rfl, encode_field hl⟩
  | tv | tlv01 | tlv2 | skip01 | skip2 | bcdDec | plmnLac | leafImsi =>
    exact decodeSub_spelled h fun hl => ⟨hl, rfl, rfl⟩
  | hFlags | h0 | h1 | h1Ext | h2 | hEnd | bFetch | bCall | fallback01 | fallback2 | rdU8 =>
    exact decodeOne_spelled h

/-- CMD[3:0], as the word with the ignored bits 0. -/
theorem cmd_and_low (v : BitVec 32) : (v.extractLsb' 0 4).setWidth 32 = v &&& 0xF := by
  apply BitVec.eq_of_toNat_eq
  have hmask := Nat.and_two_pow_sub_one_eq_mod v.toNat 4
  simp only [BitVec.toNat_setWidth, BitVec.extractLsb'_toNat, BitVec.toNat_and, Nat.shiftRight_zero]
  rw [show (0xF : BitVec 32).toNat = 2 ^ 4 - 1 from rfl, hmask]
  omega

/-- The command unit reads `op` alone (R71). -/
theorem decodeCmdWord_spelled (v : BitVec 32) :
    SpelledBy .cmd (.cmd (v &&& 0xF)) (decodeCmdWord v) := by
  rw [← cmd_and_low]
  generalize hop : v.extractLsb' 0 4 = op
  simp only [decodeCmdWord, hop]
  clear hop
  revert op
  unfold SpelledBy
  decide

/-- Settles O3: the byte units by `decodeBytes_spelled`, the command unit by its four bits. -/
theorem decodedWordIsTheEncodingOfItsOperation :
    Obligations.DecodedWordIsTheEncodingOfItsOperation := by
  refine ⟨fun c l i h => decodeBytes_spelled h, fun c v i h => ?_⟩
  simp only [decode] at h
  split at h
  next hc => cases h; rw [hc]; exact decodeCmdWord_spelled v
  next => cases h

end Sys2Proof.Machine
end

section
/-! The header rules (`41_header_fsm.md`) as equations: a rule consumes its fields one behind the other,
Truncated at the first that overruns the buffer (R109, R223), and its last line leaves a state that is
written out. -/

namespace Sys2Proof.Machine

/-! ### Fields one behind the other -/

/-- The first field is the one that overruns, or it fits and the others decide. -/
theorem firstOverrun_cons (len a n : Nat) (r : List (Nat × Nat)) :
    firstOverrun len ((a, n) :: r) = if len < a + n then some a else firstOverrun len r := by
  by_cases h : len < a + n <;> simp [firstOverrun, h]

/-- Where every field ends inside the buffer, none overruns. -/
theorem firstOverrun_none {len : Nat} {fields : List (Nat × Nat)}
    (h : ∀ f ∈ fields, f.1 + f.2 ≤ len) : firstOverrun len fields = none := by
  simp only [firstOverrun, Option.map_eq_none_iff, List.find?_eq_none, decide_eq_true_eq]
  exact fun f hf => Nat.not_lt.mpr (h f hf)

/-- Where no field overruns, every field ends inside the buffer. -/
theorem le_of_firstOverrun_none {len : Nat} {fields : List (Nat × Nat)}
    (h : firstOverrun len fields = none) {f : Nat × Nat} (hf : f ∈ fields) : f.1 + f.2 ≤ len := by
  simp only [firstOverrun, Option.map_eq_none_iff, List.find?_eq_none, decide_eq_true_eq] at h
  exact Nat.not_lt.mp (h f hf)

/-- The outcome `o` behind fields given as (offset, bytes): Truncated at the first that overruns the
buffer, raised in the state the step began with (R8, R223). -/
def guardFields (s₀ : State) (fields : List (Nat × Nat)) (o : Out) : Out :=
  match firstOverrun s₀.bufLen.toNat fields with
  | some off => .next (raise (.truncated (BitVec.ofNat Config.lenW off)) s₀)
  | none => o

theorem guardFields_some {s₀ : State} {fields : List (Nat × Nat)} {off : Nat} (o : Out)
    (h : firstOverrun s₀.bufLen.toNat fields = some off) :
    guardFields s₀ fields o = .next (raise (.truncated (BitVec.ofNat Config.lenW off)) s₀) := by
  simp only [guardFields, h]

theorem guardFields_none {s₀ : State} {fields : List (Nat × Nat)} (o : Out)
    (h : firstOverrun s₀.bufLen.toNat fields = none) : guardFields s₀ fields o = o := by
  simp only [guardFields, h]

theorem guardFields_fits {s₀ : State} {a n : Nat} (r : List (Nat × Nat)) (o : Out)
    (h : a + n ≤ s₀.bufLen.toNat) : guardFields s₀ ((a, n) :: r) o = guardFields s₀ r o := by
  simp only [guardFields, firstOverrun_cons, if_neg (Nat.not_lt.mpr h)]

theorem guardFields_short {s₀ : State} {a n : Nat} (r : List (Nat × Nat)) (o : Out)
    (h : s₀.bufLen.toNat < a + n) :
    guardFields s₀ ((a, n) :: r) o =
      .next (raise (.truncated (BitVec.ofNat Config.lenW a)) s₀) :=
  guardFields_some o (by rw [firstOverrun_cons, if_pos h])

/-! ### Inside a rule -/

/-- What the lines of a rule have reached: the cursor at offset `a`, the length and secondary fields
latched so far, and the Message so far; all else is as the step found it. -/
def reached (s₀ : State) (a : Nat) (l : BitVec 16) (w : BitVec 32) (m : Msg) : State :=
  { s₀ with pc := BitVec.ofNat Config.lenW a, lenfld := l, word := w, msg := m }

/-- A header state is entered with the cursor behind byte 0. -/
theorem reached_one {s : State} (h : s.pc = 1) : reached s 1 s.lenfld s.word s.msg = s := by
  rw [reached, show BitVec.ofNat Config.lenW 1 = s.pc from h.symm]

section
variable {s₀ : State} {a n : Nat} {l l' : BitVec 16} {w w' : BitVec 32} {m : Msg}

theorem putMsg_reached (f : Msg → Msg) :
    putMsg f (reached s₀ a l w m) = reached s₀ a l w (f m) := rfl

theorem latchMsgLen_reached :
    latchMsgLen l' (reached s₀ a l w m) = reached s₀ a l' w { m with msgLen := l' } := rfl

theorem latchWord_reached : latchWord w' (reached s₀ a l w m) = reached s₀ a l w' m := rfl

theorem reached_bufLen : (reached s₀ a l w m).bufLen = s₀.bufLen := rfl

theorem reached_sameBuffer : SameBuffer s₀ (reached s₀ a l w m) := .mk' rfl rfl rfl

/-- An offset that fits the register stands in it. -/
theorem reached_pc_toNat (h : a < 131072) : (reached s₀ a l w m).pc.toNat = a :=
  Nat.mod_eq_of_lt h

theorem advance_reached (h : a < 131072) :
    advance n (reached s₀ a l w m) = reached s₀ (a + n) l w m := by
  rw [advance, reached_pc_toNat h]
  rfl

/-- A guard for `n` bytes is a field of `n` bytes. -/
theorem need_guard {r : List (Nat × Nat)} {k : State → Out} {o : Out} (ha : a < 131072)
    (hk : a + n ≤ s₀.bufLen.toNat → k (reached s₀ a l w m) = guardFields s₀ r o) :
    need s₀ n (reached s₀ a l w m) k = guardFields s₀ ((a, n) :: r) o := by
  have hp := reached_pc_toNat (s₀ := s₀) (l := l) (w := w) (m := m) ha
  by_cases hf : a + n ≤ s₀.bufLen.toNat
  · rw [need_fits _ (by rw [hp, reached_bufLen]; exact hf), guardFields_fits r o hf, hk hf]
  · rw [need_short _ (by rw [hp, reached_bufLen]; omega), guardFields_short r o (by omega)]
    rfl

/-- A field that is read: its value and the state behind it go on to the other lines. -/
theorem takeField_guard {r : List (Nat × Nat)} {k : Nat → State → Out} {o : Out}
    (ha : a < 131072)
    (hk : a + n < 131072 →
      k (beNat (bufBytes s₀ a n)) (reached s₀ (a + n) l w m) = guardFields s₀ r o) :
    takeField s₀ n (reached s₀ a l w m) k = guardFields s₀ ((a, n) :: r) o := by
  refine need_guard ha fun hf => ?_
  rw [readBuf_at _ reached_sameBuffer (reached_pc_toNat ha) hf, advance_reached ha,
    hk (hf.trans_lt s₀.bufLen.toNat_lt)]

/-- A field that is consumed and not stored. -/
theorem skipField_guard {r : List (Nat × Nat)} {k : State → Out} {o : Out}
    (ha : a < 131072)
    (hk : a + n < 131072 → k (reached s₀ (a + n) l w m) = guardFields s₀ r o) :
    skipField s₀ n (reached s₀ a l w m) k = guardFields s₀ ((a, n) :: r) o := by
  refine need_guard ha fun hf => ?_
  rw [advance_reached ha, hk (hf.trans_lt s₀.bufLen.toNat_lt)]

end

/-! ### Version 0 -/

/-- The fields of a version 0 header with `k` SNDCP bytes (R62). -/
def fieldsV0 (k : Nat) : List (Nat × Nat) :=
  [(1, 1), (2, 2), (4, 2), (6, 2), (8, k), (8 + k, 4), (12 + k, 8)]

/-- The bytes of the SNDCP field (R62, D5). -/
def sndcpBytes (p : Params) (flags : Byte) : Nat := if sndcpSet p flags then p.v0SndcpBytes else 0

/-- What HDR.V0 leaves (R102). -/
def storedV0 (p : Params) (flags : Byte) (s : State) : State :=
  { s with
    st := .hEnd, pc := BitVec.ofNat Config.lenW (20 + sndcpBytes p flags)
    lenfld := be16 (bufByte s 2) (bufByte s 3)
    msg := { s.msg with
      msgType := bufByte s 1, msgLen := be16 (bufByte s 2) (bufByte s 3)
      seq := be16 (bufByte s 4) (bufByte s 5), seqValid := true, sndcp := sndcpSet p flags
      tid := BitVec.ofNat 64 (beNat (bufBytes s (12 + sndcpBytes p flags) 8)), tidValid := true } }

/-- HDR.V0 under its protocol-type flag (R102). -/
theorem headerV0_eq {p : Params} {flags : Byte} {s : State} (hp : ptSet p flags = true)
    (hpc : s.pc = 1) :
    headerV0 p flags s =
      guardFields s (fieldsV0 (sndcpBytes p flags)) (.next (storedV0 p flags s)) := by
  have hstart : headerV0 p flags s =
      headerV0Fields p flags s (reached s 1 s.lenfld s.word s.msg) := by
    rw [reached_one hpc, headerV0, if_pos hp]
  rw [hstart, headerV0Fields, fieldsV0, ← sndcpBytes]
  -- Message type, length, sequence number, flow label; the SNDCP bytes; four reserved bytes; the TID.
  refine takeField_guard (by omega) fun h => ?_
  dsimp only [putMsg_reached]
  refine takeField_guard h fun h => ?_
  dsimp only [latchMsgLen_reached]
  refine takeField_guard h fun h => ?_
  dsimp only [putMsg_reached]
  refine skipField_guard h fun h => ?_
  dsimp only [putMsg_reached]
  refine skipField_guard h fun h => skipField_guard (a := 8 + sndcpBytes p flags) h fun h => ?_
  rw [show 8 + sndcpBytes p flags + 4 = 12 + sndcpBytes p flags by omega] at h ⊢
  refine takeField_guard h fun h => ?_
  rw [guardFields_none _ rfl, ofNat_beNat_one, ofNat_beNat_two, ofNat_beNat_two,
    show 12 + sndcpBytes p flags + 8 = 20 + sndcpBytes p flags by omega]
  rfl

/-! ### Version 1 -/

/-- The bytes of the conditional sequence number (R63). -/
def seqBytes (p : Params) (flags : Byte) : Nat := if seqSet p flags then 2 else 0

/-- The fields of a version 1 header up to the first marker (R63). -/
def fieldsV1 (p : Params) (flags : Byte) : List (Nat × Nat) :=
  if seqSet p flags then [(1, 1), (2, 2), (4, 4), (8, 2), (10, 2)]
  else [(1, 1), (2, 2), (4, 4), (8, 2)]

/-- What HDR.V1 leaves (R103). -/
def storedV1 (p : Params) (flags : Byte) (s : State) : State :=
  { s with
    st := .h1Ext, pc := BitVec.ofNat Config.lenW (10 + seqBytes p flags)
    lenfld := be16 (bufByte s 2) (bufByte s 3), last := bufByte s (9 + seqBytes p flags)
    word := BitVec.ofNat 32 (beNat (bufBytes s 4 4))
    msg := { s.msg with
      msgType := bufByte s 1, msgLen := be16 (bufByte s 2) (bufByte s 3)
      teid := BitVec.ofNat 32 (beNat (bufBytes s 4 4)), teidValid := true
      seq := if seqSet p flags then be16 (bufByte s 8) (bufByte s 9) else s.msg.seq
      seqValid := if seqSet p flags then true else s.msg.seqValid } }

/-- The reserved/N-PDU pair, whose second byte is the first marker (R103). -/
theorem headerV1Pair_guard {s₀ : State} {a : Nat} {l : BitVec 16} {w : BitVec 32} {m : Msg}
    (ha : a < 131072) :
    headerV1Pair s₀ (reached s₀ a l w m) = guardFields s₀ [(a, 2)]
      (.next (goto .h1Ext (latchLast (bufByte s₀ (a + 1)) (reached s₀ (a + 2) l w m)))) := by
  refine need_guard ha fun hf => ?_
  rw [readBuf_at (a := a + 1) _ reached_sameBuffer (by rw [reached_pc_toNat ha]) (by omega),
    guardFields_none _ rfl, ofNat_beNat_one, ← advance_reached ha]
  rfl

/-- HDR.V1 under its protocol-type flag (R103). -/
theorem headerV1_eq {p : Params} {flags : Byte} {s : State} (hp : ptSet p flags = true)
    (hpc : s.pc = 1) :
    headerV1 p flags s = guardFields s (fieldsV1 p flags) (.next (storedV1 p flags s)) := by
  have hstart : headerV1 p flags s =
      headerV1Fields p flags s (reached s 1 s.lenfld s.word s.msg) := by
    rw [reached_one hpc, headerV1, if_pos hp]
  have hcons : fieldsV1 p flags = (1, 1) :: (2, 2) :: (4, 4) ::
      if seqSet p flags then [(8, 2), (10, 2)] else [(8, 2)] := by
    rw [fieldsV1]
    split <;> rfl
  rw [hstart, headerV1Fields, hcons]
  -- Message type, length and TEID; then the conditional sequence number and the pair.
  refine takeField_guard (by omega) fun h => ?_
  dsimp only [putMsg_reached]
  refine takeField_guard h fun h => ?_
  dsimp only [latchMsgLen_reached]
  refine takeField_guard h fun h => ?_
  dsimp only [putMsg_reached, latchWord_reached]
  rw [headerV1Seq, ofNat_beNat_one, ofNat_beNat_two]
  cases hq : seqSet p flags with
  | false =>
    simp only [storedV1, seqBytes, hq, Bool.false_eq_true, if_false]
    exact headerV1Pair_guard h
  | true =>
    simp only [storedV1, seqBytes, hq, if_true]
    refine takeField_guard h fun h => ?_
    rw [putMsg_reached, ofNat_beNat_two]
    exact headerV1Pair_guard h

/-! ### Version 2 -/

/-- The bytes of the conditional TEID (R64). -/
def teidBytes (p : Params) (flags : Byte) : Nat := if teidSet p flags then 4 else 0

/-- The fields of a version 2 header behind the framing check (R64). -/
def fieldsV2 (p : Params) (flags : Byte) : List (Nat × Nat) :=
  if teidSet p flags then [(4, 4), (8, 4)] else [(4, 4)]

/-- What HDR.V2 leaves (R105). -/
def storedV2 (p : Params) (flags : Byte) (s : State) : State :=
  { s with
    st := .hEnd, pc := BitVec.ofNat Config.lenW (8 + teidBytes p flags)
    lenfld := be16 (bufByte s 2) (bufByte s 3)
    word := BitVec.ofNat 32 (beNat (bufBytes s (4 + teidBytes p flags) 4))
    msg := { s.msg with
      msgType := bufByte s 1, msgLen := be16 (bufByte s 2) (bufByte s 3)
      teid := BitVec.ofNat 32 (beNat (bufBytes s (4 + teidBytes p flags) 3)), teidValid := true } }

/-- HDR.V2 behind the framing check (R224): the conditional TEID and the secondary field, or
LengthMismatch. -/
def framedV2 (p : Params) (flags : Byte) (s : State) : Out :=
  if s.bufLen.toNat = 4 + (be16 (bufByte s 2) (bufByte s 3)).toNat then
    guardFields s (fieldsV2 p flags) (.next (storedV2 p flags s))
  else .next (raise .lengthMismatch s)

/-- The secondary field, whose top 24 bits are the TEID (R105). -/
theorem headerV2Secondary_guard {s₀ : State} {a : Nat} {l : BitVec 16} {w : BitVec 32} {m : Msg}
    (ha : a < 131072) :
    headerV2Secondary s₀ (reached s₀ a l w m) = guardFields s₀ [(a, 4)]
      (.next (goto .hEnd (reached s₀ (a + 4) l (BitVec.ofNat 32 (beNat (bufBytes s₀ a 4)))
        { m with teid := BitVec.ofNat 32 (beNat (bufBytes s₀ a 3)), teidValid := true }))) := by
  refine takeField_guard ha fun hf => ?_
  rw [guardFields_none _ rfl, teidOfWord_field, putMsg_reached, latchWord_reached]

/-- HDR.V2 (R105): message type and length, the framing check, the rest. -/
theorem headerV2_eq (p : Params) (flags : Byte) {s : State} (hpc : s.pc = 1) :
    headerV2 p flags s = guardFields s [(1, 1), (2, 2)] (framedV2 p flags s) := by
  have hstart : headerV2 p flags s =
      takeField s 1 (reached s 1 s.lenfld s.word s.msg) fun t u =>
        takeField s 2 (putMsg (fun m => { m with msgType := BitVec.ofNat 8 t }) u) fun l u =>
        headerV2Framed p flags l s (latchMsgLen (BitVec.ofNat 16 l) u) := by
    rw [reached_one hpc, headerV2]
  rw [hstart]
  refine takeField_guard (by omega) fun h => ?_
  dsimp only [putMsg_reached]
  refine takeField_guard h fun h => ?_
  dsimp only [latchMsgLen_reached]
  rw [guardFields_none _ rfl, headerV2Framed, reached_pc_toNat h, reached_bufLen, ofNat_beNat_one,
    ofNat_beNat_two, beNat_length s 1, framedV2]
  split
  next hframe =>
    rw [headerV2Teid]
    cases hq : teidSet p flags with
    | false =>
      simp only [storedV2, teidBytes, fieldsV2, hq, Bool.false_eq_true, if_false]
      exact headerV2Secondary_guard h
    | true =>
      simp only [storedV2, teidBytes, fieldsV2, hq, if_true]
      refine takeField_guard h fun h => ?_
      rw [putMsg_reached, latchWord_reached]
      exact headerV2Secondary_guard h
  next => rfl

end Sys2Proof.Machine
end

section
/-! What each header operation does (R100 to R105, R221 to R224): the obligations, read off the equations
of the rules. -/

namespace Sys2Proof.Machine

/-! ### HDR.FLAGS and HDR.UNSUP -/

/-- A supported version selects its header state (R100). -/
theorem headerStateOf_eq {v : BitVec 3} (h : v.toNat ≤ 2) :
    headerStateOf v = some (if v = 0 then .h0 else if v = 1 then .h1 else .h2) := by
  revert v
  decide

/-- No other version has a header state (R100). -/
theorem headerStateOf_none {v : BitVec 3} (h : 3 ≤ v.toNat) : headerStateOf v = none := by
  revert v
  decide

/-- HDR.FLAGS on a supported version (R100). -/
theorem exec_hdrFlags_supported {b : Byte} {s : State} (hl : s.pc.toNat + 1 ≤ s.bufLen.toNat)
    (hv : (versionBits b).toNat ≤ 2) :
    exec (.hdrFlags b) s = .next (goto
      (if versionBits b = 0 then .h0 else if versionBits b = 1 then .h1 else .h2)
      (latchByte0 b s)) := by
  simp only [exec, execHdrFlags, need_fits _ hl, headerStateOf_eq hv]

/-- HDR.FLAGS on an unsupported version does what HDR.UNSUP does (R100, R101). -/
theorem exec_hdrFlags_unsupported {b : Byte} {s : State} (hl : s.pc.toNat + 1 ≤ s.bufLen.toNat)
    (hv : 3 ≤ (versionBits b).toNat) :
    exec (.hdrFlags b) s = .next (raise (.unsupportedVersion (versionBits b)) s) := by
  simp only [exec, execHdrFlags, need_fits _ hl, headerStateOf_none hv]

/-- HDR.FLAGS on an empty rest (R100). -/
theorem exec_hdrFlags_empty (b : Byte) {s : State} (hl : s.bufLen.toNat < s.pc.toNat + 1) :
    exec (.hdrFlags b) s = .next (raise (.truncated s.pc) s) := by
  rw [exec, execHdrFlags, need_short _ hl]

/-- Settles O29. -/
theorem hdrFlagsDispatchesOnTheVersion : Obligations.HdrFlagsDispatchesOnTheVersion := by
  refine fun b s => ⟨fun hpc hl hb => ?_, fun hpc hl => ?_⟩
  · have hn := versionBits_toNat b
    have hver : versionBits b = BitVec.ofNat 3 (b.toNat / 32) :=
      BitVec.eq_of_toNat_eq (by rw [hn, BitVec.toNat_ofNat]; omega)
    have h0 : versionBits b = 0 ↔ b.toNat < 0x20 := by
      rw [← BitVec.toNat_inj, hn]; change _ = 0 ↔ _; omega
    have h1 : versionBits b = 1 ↔ 0x20 ≤ b.toNat ∧ b.toNat < 0x40 := by
      rw [← BitVec.toNat_inj, hn]; change _ = 1 ↔ _; omega
    have hst : (if versionBits b = 0 then St.h0 else if versionBits b = 1 then .h1 else .h2) =
        if b.toNat < 0x20 then .h0 else if b.toNat < 0x40 then .h1 else .h2 := by
      simp only [h0, h1]
      split
      · rfl
      · simp only [show 0x20 ≤ b.toNat by omega, true_and]
    rw [exec_hdrFlags_supported (by rw [hpc]; exact hl) (by omega), hst, ← hver]
    rfl
  · have herr := raise_errorStep (.truncated s.pc) s
    rw [hpc] at herr
    exact ⟨_, exec_hdrFlags_empty b (by rw [hpc, hl]; decide), hpc ▸ herr⟩

/-- Settles O30. -/
theorem hdrUnsupRaisesUnsupportedVersion : Obligations.HdrUnsupRaisesUnsupportedVersion := by
  refine fun v low s hv => ⟨⟨_, rfl, raise_errorStep (.unsupportedVersion v) s⟩, fun hpc => ?_⟩
  have hexec := exec_hdrFlags_unsupported (b := headerByte v low) hpc
    (by rwa [versionBits_headerByte])
  rw [versionBits_headerByte] at hexec
  exact ⟨_, hexec, raise_errorStep (.unsupportedVersion v) s⟩

/-! ### HDR.V0, HDR.V1 and HDR.V2 where the header fits -/

/-- A register value inside the buffer. -/
theorem toNat_ofNat_of_le {s : State} {a : Nat} (h : a ≤ s.bufLen.toNat) :
    (BitVec.ofNat Config.lenW a).toNat = a :=
  Nat.mod_eq_of_lt (h.trans_lt s.bufLen.toNat_lt)

/-- A header rule changes the parser's side only (R48). -/
theorem storedV0_sameHostSide (p : Params) (flags : Byte) (s : State) :
    SameHostSide s (storedV0 p flags s) :=
  .of rfl rfl rfl rfl rfl rfl rfl rfl rfl rfl rfl rfl

theorem storedV1_sameHostSide (p : Params) (flags : Byte) (s : State) :
    SameHostSide s (storedV1 p flags s) :=
  .of rfl rfl rfl rfl rfl rfl rfl rfl rfl rfl rfl rfl

theorem storedV2_sameHostSide (p : Params) (flags : Byte) (s : State) :
    SameHostSide s (storedV2 p flags s) :=
  .of rfl rfl rfl rfl rfl rfl rfl rfl rfl rfl rfl rfl

/-- A version 0 header of `20 + k` bytes has room for its fields (R62). -/
theorem fieldsV0_fit {len k : Nat} (h : 20 + k ≤ len) : firstOverrun len (fieldsV0 k) = none := by
  refine firstOverrun_none ?_
  simp only [fieldsV0, List.forall_mem_cons, List.not_mem_nil, false_imp_iff, implies_true, and_true]
  omega

/-- A version 1 header of `10 + n` bytes has room for its fields (R63). -/
theorem fieldsV1_fit {p : Params} {flags : Byte} {len : Nat} (h : 10 + seqBytes p flags ≤ len) :
    firstOverrun len (fieldsV1 p flags) = none := by
  refine firstOverrun_none ?_
  cases hq : seqSet p flags with
  | false => simp [fieldsV1, seqBytes, hq] at h ⊢; omega
  | true => simp [fieldsV1, seqBytes, hq] at h ⊢; omega

/-- A version 2 header of `8 + n` bytes has room for its fields (R64). -/
theorem fieldsV2_fit {p : Params} {flags : Byte} {len : Nat} (h : 8 + teidBytes p flags ≤ len) :
    firstOverrun len (fieldsV2 p flags) = none := by
  refine firstOverrun_none ?_
  cases hq : teidSet p flags with
  | false => simp [fieldsV2, teidBytes, hq] at h ⊢; omega
  | true => simp [fieldsV2, teidBytes, hq] at h ⊢; omega

/-- HDR.V0 on a buffer that holds the header (R102). -/
theorem exec_hdrV0_fits {low : BitVec 5} {s : State} (hpc : s.pc = 1)
    (hp : ptSet Config.params (headerByte 0 low) = true)
    (hl : 20 + sndcpBytes Config.params (headerByte 0 low) ≤ s.bufLen.toNat) :
    exec (.hdrV0 low) s = .next (storedV0 Config.params (headerByte 0 low) s) :=
  (headerV0_eq hp hpc).trans (guardFields_none _ (fieldsV0_fit hl))

/-- HDR.V1 on a buffer that holds the header up to the first marker (R103). -/
theorem exec_hdrV1_fits {low : BitVec 5} {s : State} (hpc : s.pc = 1)
    (hp : ptSet Config.params (headerByte 1 low) = true)
    (hl : 10 + seqBytes Config.params (headerByte 1 low) ≤ s.bufLen.toNat) :
    exec (.hdrV1 low) s = .next (storedV1 Config.params (headerByte 1 low) s) :=
  (headerV1_eq hp hpc).trans (guardFields_none _ (fieldsV1_fit hl))

/-- HDR.V2 on a buffer of the framed length that holds the header (R105). -/
theorem exec_hdrV2_fits {low : BitVec 5} {s : State} (hpc : s.pc = 1)
    (hl : 8 + teidBytes Config.params (headerByte 2 low) ≤ s.bufLen.toNat)
    (hframe : s.bufLen.toNat = 4 + (be16 (bufByte s 2) (bufByte s 3)).toNat) :
    exec (.hdrV2 low) s = .next (storedV2 Config.params (headerByte 2 low) s) := by
  have hfront : firstOverrun s.bufLen.toNat [(1, 1), (2, 2)] = none :=
    firstOverrun_none (by simp; omega)
  rw [show exec (.hdrV2 low) s = headerV2 Config.params (headerByte 2 low) s from rfl,
    headerV2_eq _ _ hpc, guardFields_none _ hfront, framedV2, if_pos hframe,
    guardFields_none _ (fieldsV2_fit hl)]

/-- Settles O31. -/
theorem hdrV0StoresTheVersion0Header : Obligations.HdrV0StoresTheVersion0Header := by
  rintro low s k hpc hp rfl hl
  exact ⟨_, exec_hdrV0_fits hpc hp hl, rfl, toNat_ofNat_of_le hl, rfl, rfl,
    storedV0_sameHostSide _ _ s, rfl, rfl, rfl, rfl, rfl, rfl, rfl, rfl, rfl, rfl, rfl⟩

/-- The sequence number has two bytes exactly under its flag (R63). -/
theorem seqBytes_eq_two (p : Params) (flags : Byte) : seqBytes p flags = 2 ↔ seqSet p flags = true := by
  unfold seqBytes
  split <;> simp [*]

/-- Settles O32. -/
theorem hdrV1StoresTheVersion1Header : Obligations.HdrV1StoresTheVersion1Header := by
  rintro low s n hpc hp hn hl
  obtain rfl : n = seqBytes Config.params (headerByte 1 low) := hn
  refine ⟨_, exec_hdrV1_fits hpc hp hl, rfl, toNat_ofNat_of_le hl, rfl, rfl, rfl, ?_,
    storedV1_sameHostSide _ _ s, rfl, rfl, rfl, rfl, rfl, rfl, rfl, rfl, rfl⟩
  simp only [seqBytes_eq_two]
  rfl

/-- Settles O34. -/
theorem hdrV2OverwritesTheTeid : Obligations.HdrV2OverwritesTheTeid := by
  rintro low s n hpc rfl hl hframe
  exact ⟨_, exec_hdrV2_fits hpc hl hframe, rfl, toNat_ofNat_of_le hl, rfl, rfl, rfl,
    storedV2_sameHostSide _ _ s, rfl, rfl, rfl, rfl, rfl, rfl, rfl, rfl, rfl, rfl⟩

/-! ### The extension walk -/

/-- The cursor behind `n` bytes, as a sum. -/
theorem advance_eq (n : Nat) (s : State) :
    advance n s = { s with pc := s.pc + BitVec.ofNat Config.lenW n } := by
  rw [advance, BitVec.ofNat_add, BitVec.ofNat_toNat, BitVec.setWidth_eq]

/-- A marker other than 0x02 ends the walk (R104). -/
theorem exec_hdrV1Ext_end {m : Byte} (h : m ≠ 0x02) (s : State) :
    exec (.hdrV1Ext m) s = .next (goto .hEnd s) := if_neg h

/-- Marker 0x02 announces a header of four bytes, the last of them the next marker (R104). -/
theorem exec_hdrV1Ext_chained (s : State) :
    exec (.hdrV1Ext 0x02) s = need s 4 s fun u => readBuf (u.pc.toNat + 3) 1 u fun m =>
      .next (goto .h1Ext (advance 4 (latchLast (BitVec.ofNat 8 m) u))) := by
  simp only [exec, execHdrV1Ext, headerV1Ext, Config.params, if_true]

/-- A chained extension header that fits (R104). -/
theorem exec_hdrV1Ext_fits {s : State} (h : s.pc.toNat + 4 ≤ s.bufLen.toNat) :
    exec (.hdrV1Ext 0x02) s =
      .next (goto .h1Ext (advance 4 (latchLast (bufByte s (s.pc.toNat + 3)) s))) := by
  rw [exec_hdrV1Ext_chained, need_fits _ h, readBuf_inside _ (by omega), ofNat_beNat_one]

/-- A chained extension header that does not fit (R104, R223). -/
theorem exec_hdrV1Ext_short {s : State} (h : s.bufLen.toNat < s.pc.toNat + 4) :
    exec (.hdrV1Ext 0x02) s = .next (raise (.truncated s.pc) s) :=
  (exec_hdrV1Ext_chained s).trans (need_short _ h)

/-- Settles O33. -/
theorem hdrV1ExtTakesOneTurn : Obligations.HdrV1ExtTakesOneTurn := by
  refine fun m s => ⟨fun hm => exec_hdrV1Ext_end hm s, ?_, ?_⟩
  · rintro rfl hl
    rw [exec_hdrV1Ext_fits hl, advance_eq]
    rfl
  · rintro rfl hl
    exact ⟨_, exec_hdrV1Ext_short hl, raise_errorStep (.truncated s.pc) s⟩

/-! ### Headers that are refused -/

/-- Settles O35. -/
theorem hdrV2RaisesLengthMismatch : Obligations.HdrV2RaisesLengthMismatch := by
  intro low s hpc hl hframe
  have hfront : firstOverrun s.bufLen.toNat [(1, 1), (2, 2)] = none :=
    firstOverrun_none (by simp; omega)
  refine ⟨_, (headerV2_eq Config.params (headerByte 2 low) hpc).trans ?_,
    raise_errorStep .lengthMismatch s⟩
  rw [guardFields_none _ hfront, framedV2, if_neg hframe]

/-- HDR.V0 without its protocol-type flag (R222). -/
theorem exec_hdrV0_notGtp {low : BitVec 5} (h : ptSet Config.params (headerByte 0 low) = false)
    (s : State) : exec (.hdrV0 low) s = .next (raise .notGtp s) :=
  if_neg (by rw [h]; exact Bool.false_ne_true)

/-- HDR.V1 without its protocol-type flag (R222). -/
theorem exec_hdrV1_notGtp {low : BitVec 5} (h : ptSet Config.params (headerByte 1 low) = false)
    (s : State) : exec (.hdrV1 low) s = .next (raise .notGtp s) :=
  if_neg (by rw [h]; exact Bool.false_ne_true)

/-- Settles O36. -/
theorem clearProtocolTypeRaisesNotGtp : Obligations.ClearProtocolTypeRaisesNotGtp := by
  rintro low s v (rfl | rfl) hp
  · exact ⟨_, exec_hdrV0_notGtp hp s, raise_errorStep .notGtp s⟩
  · exact ⟨_, exec_hdrV1_notGtp hp s, raise_errorStep .notGtp s⟩

/-! ### Headers that do not fit -/

/-- A rule whose first overrunning field stands at `off` (R223). -/
theorem errorStep_of_guardFields {o o' : Out} {s : State} {fields : List (Nat × Nat)} {off : Nat}
    (h : o = guardFields s fields o') (hf : firstOverrun s.bufLen.toNat fields = some off) :
    ∃ t, o = .next t ∧ ErrorStep
      ⟨.truncated, .header, s.ver, 0, 0, BitVec.ofNat Config.lenW off⟩ s t :=
  ⟨_, h.trans (guardFields_some o' hf), raise_errorStep (.truncated (BitVec.ofNat _ off)) s⟩

/-- Settles O37. -/
theorem truncatedNamesTheFirstFieldThatDoesNotFit :
    Obligations.TruncatedNamesTheFirstFieldThatDoesNotFit := by
  intro low s off hpc
  have hv2 := headerV2_eq Config.params (headerByte 2 low) hpc
  refine ⟨?_, fun hp hf => ?_, fun hf => ?_, fun hframe hl hf => ?_⟩
  · rintro k hp rfl hf
    exact errorStep_of_guardFields (headerV0_eq hp hpc) hf
  · exact errorStep_of_guardFields (headerV1_eq hp hpc) hf
  · exact errorStep_of_guardFields hv2 hf
  · have hfront : firstOverrun s.bufLen.toNat [(1, 1), (2, 2)] = none :=
      firstOverrun_none (by simp; omega)
    rw [guardFields_none _ hfront, framedV2, if_pos hframe] at hv2
    exact errorStep_of_guardFields hv2 hf

end Sys2Proof.Machine
end

section
/-! What each operation of the dispatch loop does (R131 to R141, R225, R226). -/

namespace Sys2Proof.Machine

/-! ### IE.FETCH -/

/-- IE.FETCH at the end of the body (R141, R232). -/
theorem exec_ieFetch_end (t : Byte) {s : State} (h : s.pc = s.bufLen) :
    exec (.ieFetch t) s = .next (finishSuccess s) := if_pos h

/-- IE.FETCH puts a registered decoder's request on the port (R131, R24). -/
theorem exec_ieFetch_registered {t : Byte} {s : State} (hpc : s.pc.toNat < s.bufLen.toNat)
    (hr : (regGet s s.ver.toNat t).valid = true) :
    exec (.ieFetch t) s = .next (goto .bCall (postRequest (leafRequest t s) (latchTag t s))) := by
  have hne : s.pc ≠ s.bufLen := fun h => by simp [h] at hpc
  have hle : ¬ s.bufLen.toNat < s.pc.toNat := by omega
  simp only [exec, execIeFetch, if_neg hne, if_neg hle, hr, if_true]

/-- Settles O39. -/
theorem ieFetchLooksUpTheTag : Obligations.IeFetchLooksUpTheTag :=
  fun tag _ => ⟨exec_ieFetch_end tag,
    fun hpc hr => ⟨_, exec_ieFetch_registered hpc hr, rfl, rfl, rfl, rfl⟩,
    fun hpc hr => exec_ieFetch_unregistered hpc hr⟩

/-! ### IE.CALL -/

/-- Settles O40: each part is the definition, the kinds of an answer by the four values of two bits. -/
theorem ieCallAppliesTheDecodersAnswer : Obligations.IeCallAppliesTheDecodersAnswer := by
  refine ⟨fun tag s => rfl, fun r => ⟨fun h => ?_, fun h => ?_, fun h => ?_, fun h => ?_⟩,
    fun v sub rem body => by rw [leaf, leafWith, if_pos rfl]⟩
  all_goals simp [leafAnsOf, h, Config.reasonReserved]

/-- A count that lies in the sub-buffer advances (R133). -/
theorem leafAnswered_matched {t : Byte} {n : Nat} {s : State} (h : 1 ≤ n) (hn : n ≤ remBytes s) :
    leafAnswered t (.matched n) s = goto .bFetch (advance n s) :=
  if_neg (by omega)

/-- Any other count aborts the decode (R133, R225). -/
theorem leafAnswered_badCount {t : Byte} {n : Nat} {s : State} (h : n = 0 ∨ remBytes s < n) :
    leafAnswered t (.matched n) s = raise (.ieDecodeError t (bodyIdx s) Config.reasonCount) s :=
  if_pos h

/-- Settles O41. -/
theorem answersAdvanceFallBackOrAbort : Obligations.AnswersAdvanceFallBackOrAbort := by
  refine fun tag s => ⟨fun n h hn => ?_, fun n h => ?_, rfl, fun x => ?_⟩
  · rw [leafAnswered_matched h hn, advance_eq]
    rfl
  · rw [leafAnswered_badCount h]
    exact raise_errorStep (.ieDecodeError tag (bodyIdx s) Config.reasonCount) s
  · exact raise_errorStep (.ieDecodeError tag (bodyIdx s) x) s

/-! ### The generic skips and IE.STOP -/

/-- Settles O42: both skips are `skipIe`, which `skipIe_fits` describes. -/
theorem genericSkipsPassTheWholeFrame : Obligations.GenericSkipsPassTheWholeFrame := by
  refine fun s len hlen => ⟨fun low h => ?_, fun tag h => ?_⟩
  · have hskip := skipIe_fits (size := tlv01Size) (tagByte true low) hlen (by rw [tlv01Size]; omega)
      (by rw [tlv01Size]; omega)
    rw [advance_eq] at hskip
    exact hskip
  · have hskip := skipIe_fits (size := tlv2Size) tag hlen (by rw [tlv2Size]; omega)
      (by rw [tlv2Size]; omega)
    rw [advance_eq] at hskip
    exact hskip

/-- What is left behind the cursor is too short for `n` bytes. -/
theorem bufLen_lt_of_remBytes_lt {s : State} {n : Nat} (hpc : s.pc.toNat ≤ s.bufLen.toNat)
    (h : remBytes s < n) : s.bufLen.toNat < s.pc.toNat + n := by
  unfold remBytes at h
  omega

/-- Settles O43: both skips are `skipIe`, which `skipIe_short` describes. -/
theorem genericSkipsRaiseTruncated : Obligations.GenericSkipsRaiseTruncated := by
  refine fun s len hpc hlen => ⟨fun low h => ?_, fun tag h => ?_⟩
  · have htag : tagByte true low = BitVec.ofNat 8 (128 + low.toNat) := by
      have := low.isLt
      exact BitVec.eq_of_toNat_eq (by rw [tagByte_toNat, BitVec.toNat_ofNat, if_pos rfl]; omega)
    rw [← htag]
    exact ⟨_, skipIe_short (size := tlv01Size) (tagByte true low) hlen
      (h.imp (bufLen_lt_of_remBytes_lt hpc) (bufLen_lt_of_remBytes_lt hpc)),
      raise_errorStep (.truncatedIe (tagByte true low) (bodyIdx s)) s⟩
  · exact ⟨_, skipIe_short (size := tlv2Size) tag hlen
      (h.imp (bufLen_lt_of_remBytes_lt hpc) (bufLen_lt_of_remBytes_lt hpc)),
      raise_errorStep (.truncatedIe tag (bodyIdx s)) s⟩

/-- Settles O44. -/
theorem ieStopRaisesBodyIncomplete : Obligations.IeStopRaisesBodyIncomplete := by
  intro low s
  have htag : tagByte false low = BitVec.ofNat 8 low.toNat := by
    have := low.isLt
    exact BitVec.eq_of_toNat_eq (by rw [tagByte_toNat, BitVec.toNat_ofNat]; simp; omega)
  rw [← htag]
  exact ⟨_, rfl, raise_errorStep (.bodyIncomplete (tagByte false low) (bodyIdx s)) s⟩

end Sys2Proof.Machine
end

section
/-! One step (R15, R76, R200, R250, R251, R265): whose it is, and what it runs. -/

namespace Sys2Proof.Machine

/-- Before an empty message H_FLAGS reads byte 0 (R100). -/
theorem parserFetch_hFlags {s : State} (hs : s.st = .hFlags) (h : 0 < s.bufLen.toNat) :
    parserFetch s = some (.hFlags, bufByte s 0) := by
  simp only [parserFetch, hs, wordAt, if_pos h]

/-- Settles O5: the definition, state by state. -/
theorem parserReadsTheSelectedByte : Obligations.ParserReadsTheSelectedByte := by
  refine fun s => ⟨parserFetch_hFlags, fun h => ?_, fun h => ?_, fun h => ?_, fun h => ?_,
    fun h => ?_, parserFetch_bFetch, fun h => ?_, fun h hv => ?_, parserFetch_fallback01⟩
  all_goals simp only [parserFetch, h]
  rw [if_pos hv]

/-- The parser's step runs the operation that the byte read decodes to (R265). -/
theorem parserEdge_eq_exec {s : State} {c : Sel} {b : Byte} {i : Instr}
    (hf : parserFetch s = some (c, b)) (hd : decode c (.bytes [b]) = .ok i) :
    parserEdge Config.params s = exec i s := by
  simp only [parserEdge, hf, runWord_ok hd]

/-- In IDLE and DONE the parser does nothing (R240). -/
theorem parserEdge_quiet {s : State} (h : s.st = .idle ∨ s.st = .done) :
    parserEdge Config.params s = .next s := by
  rcases h with h | h <;> simp only [parserEdge, parserFetch, h]

/-- A leaf decoder's call with its invocation outstanding runs the unit it names (R48). -/
theorem unitEdge_eq_exec {call : UnitCall} {s : State} {q : LeafReq} {c : Sel} {l : List Byte}
    {i : Instr} (hq : s.leafReq = some q) (hw : callWord q call s = .word c l)
    (hd : decode c (.bytes l) = .ok i) : unitEdge Config.params call s = exec i s := by
  simp only [unitEdge, hq, hw, runWord_ok hd]

/-- The answer strobe of an outstanding invocation is the parser's step (R251). -/
theorem leafEdge_eq_parserEdge {s : State} {q : LeafReq} (hq : s.leafReq = some q) :
    leafEdge Config.params s = parserEdge Config.params s := by
  simp only [leafEdge, hq]

/-- With nothing at the pins, or with a clock edge, the step is the parser's (R265). -/
theorem step_eq_parserEdge {s s' : State}
    (h : (s.inputs = [] ∧ s' = s) ∨ ∃ r, s.inputs = .clk :: r ∧ s' = { s with inputs := r }) :
    step s = parserEdge Config.params s' := by
  rcases h with ⟨hin, rfl⟩ | ⟨r, hin, rfl⟩
  · exact step_quiet hin
  · exact step_input hin

/-- Settles O4: one clause for each kind of input. -/
theorem stepRunsTheDecodedOperation : Obligations.StepRunsTheDecodedOperation := by
  intro s s'
  refine ⟨fun h => ⟨fun c b i hf hd => ?_, fun hst => ?_⟩, ?_, ?_, ?_, ?_⟩
  · rw [step_eq_parserEdge h, parserEdge_eq_exec hf hd]
  · rw [step_eq_parserEdge h, parserEdge_quiet hst]
  · rintro v i r hin rfl hd
    obtain rfl : decodeCmdWord v = i := by simpa [decode] using hd
    exact step_cmdWrite hin
  · rintro call q c l i r hin rfl hq hw hd
    rw [step_input hin, edge, unitEdge_eq_exec hq hw hd]
  · rintro q c b i r hin rfl hq hf hd
    rw [step_input hin, edge, leafEdge_eq_parserEdge hq, parserEdge_eq_exec hf hd]
  · rintro i r hin rfl hq (rfl | ⟨call, rfl⟩)
    · rw [step_input hin, edge, leafEdge, hq]
    · rw [step_input hin, edge, unitEdge, hq]

/-- Settles O7: a reset edge is `resetEdge` whatever the state. -/
theorem resetEdgeResetsFromAnyState : Obligations.ResetEdgeResetsFromAnyState :=
  fun _ _ _ hin => ⟨_, step_input hin, rfl, rfl, ⟨rfl, rfl, rfl, rfl, rfl, rfl, rfl, rfl, rfl, rfl⟩,
    ⟨rfl, rfl, rfl, rfl, rfl⟩, ⟨rfl, rfl⟩, ⟨rfl, rfl, rfl⟩, rfl, rfl⟩

end Sys2Proof.Machine
end

section
/-! The host commands and accesses (R16, R20 to R23, R201 to R208). -/

namespace Sys2Proof.Machine

/-! ### INIT, REGISTER, DECODE -/

/-- An accepted INIT (R201). -/
theorem exec_init_accepted {s : State} (hb : busy s = false) (hi : s.initDone = false) :
    exec .initCmd s = .next (reply .initOk (loadRegistry s)) :=
  if_neg (by rw [hb, hi]; decide)

/-- Settles O19: the registry is `initRegistryCells`, whose reading and canonical form are known. -/
theorem initLoadsTheRegistry : Obligations.InitLoadsTheRegistry := by
  intro s hb hi
  have hget := regGet_initRegistryCells (s := reply .initOk (loadRegistry s)) rfl
  exact ⟨_, exec_init_accepted hb hi, rfl, rfl, hget, hget 1 0x02, initRegistryCells_wf,
    .mk' rfl rfl rfl, ⟨⟨rfl, rfl, rfl, rfl, rfl, rfl, rfl, rfl, rfl, rfl⟩, rfl, rfl, rfl, rfl, rfl⟩,
    ⟨rfl, rfl, rfl, rfl⟩, rfl, rfl⟩

/-- An accepted REGISTER (R202). -/
theorem exec_register_accepted {s : State} (h : registerRefused s = false) :
    exec .registerCmd s = .next (reply
      (if (regGet s s.cmdArg.version.toNat s.cmdArg.tag).valid then .replaced else .added)
      (regPut s.cmdArg.version.toNat s.cmdArg.tag { valid := true, decId := s.cmdArg.decId } s)) :=
  if_neg (by rw [h]; decide)

/-- A version of CMD_ARG other than 3 names a bank (R202). -/
theorem cmdArg_version_lt {v : BitVec 2} (h : v ≠ 3) : v.toNat < 3 := by
  revert v
  decide

/-- Settles O20: the laws of the sparse registry. -/
theorem registerWritesOneEntry : Obligations.RegisterWritesOneEntry := by
  intro s hw hb hi hv hd
  have hok : registerRefused s = false := by
    simp only [registerRefused, hb, hi, beq_eq_false_iff_ne.mpr hv, beq_eq_false_iff_ne.mpr hd]
    rfl
  exact ⟨_, exec_register_accepted hok, rfl, regGet_put_same hw _ _ _,
    fun v tag hne => regGet_put_other _ hne, registry_wf_put hw (cmdArg_version_lt hv) _ hd,
    .mk' rfl rfl rfl, ⟨⟨rfl, rfl, rfl, rfl, rfl, rfl, rfl, rfl, rfl, rfl⟩, rfl, rfl, rfl, rfl, rfl⟩,
    ⟨rfl, rfl, rfl, rfl⟩, rfl, rfl, rfl⟩

/-- An accepted DECODE (R203). -/
theorem exec_decode_accepted {s : State} (hb : busy s = false) (hi : s.initDone = true) :
    exec .decodeCmd s = .next (startDecode s) :=
  if_neg (by rw [hb, hi]; decide)

/-- Settles O21: the fields of `startDecode`. -/
theorem decodeStartsFromACleanState : Obligations.DecodeStartsFromACleanState :=
  fun _ hb hi => ⟨_, exec_decode_accepted hb hi, rfl, rfl, rfl, rfl, rfl, rfl, rfl, rfl, rfl, rfl,
    rfl, rfl, rfl, rfl, rfl, rfl, rfl, .mk' rfl rfl rfl, ⟨rfl, rfl⟩, ⟨rfl, rfl, rfl, rfl⟩, rfl, rfl⟩

/-- Settles O22: each refusal is the first branch of its command. -/
theorem refusedCommandsChangeNothingElse : Obligations.RefusedCommandsChangeNothingElse := by
  refine fun s => ⟨fun h => if_pos (by simpa using h), fun h => if_pos ?_,
    fun h => if_pos (by simpa using h)⟩
  simpa [registerRefused, or_assoc] using h

/-! ### BUF and BUF_LEN while not BUSY -/

/-- Settles O25: the laws of the sparse buffer. -/
theorem hostLoadsTheBuffer : Obligations.HostLoadsTheBuffer := by
  refine fun s r hw hb => ⟨fun a v hin => ?_, fun v hin => ?_⟩
  · have hput : hostBufWrite a v { s with inputs := r } = bufPut a v { s with inputs := r } :=
      if_neg (by rw [show busy { s with inputs := r } = false from hb]; decide)
    exact ⟨_, (step_bufWrite hin).trans (congrArg _ hput),
      bufByte_put_same (s := { s with inputs := r }) hw a v,
      fun b hne => bufByte_put_other (s := { s with inputs := r }) a v hne, memory_wf_put hw a v, rfl⟩
  · have hput : hostRegWrite 0x00010 v { s with inputs := r } =
        { s with inputs := r, bufLen := v.extractLsb' 0 Config.lenW } := by
      have hoff : (0x00010 : Off) ≠ 0x00004 := by decide
      rw [hostRegWrite, if_neg hoff, if_pos rfl,
        if_neg (by rw [show busy { s with inputs := r } = false from hb]; decide)]
    refine ⟨_, (step_regWrite hin (by decide)).trans (congrArg _ hput), ?_, rfl⟩
    simp [BitVec.extractLsb'_toNat]

end Sys2Proof.Machine
end

section
/-! The register window (R20 to R23, R74, R205): each image's fields stand where the spec puts them. -/

namespace Sys2Proof.Machine

/-! ### Fields at bit positions -/

/-- A placed field, bit by bit. -/
theorem getLsbD_place {w : Nat} (lo : Nat) (v : BitVec w) (i : Nat) :
    (place lo v).getLsbD i = (decide (i < 32) && (decide (lo ≤ i) && v.getLsbD (i - lo))) := by
  simp only [place, BitVec.getLsbD_shiftLeft, BitVec.getLsbD_setWidth]
  by_cases hi : i < 32
  · by_cases hlo : lo ≤ i
    · simp [hi, hlo, show ¬ i < lo by omega, show i - lo < 32 by omega]
    · simp [hlo, show i < lo by omega]
  · simp [hi]

/-- A field reads back where it was placed. -/
theorem extractLsb'_place_self {w lo : Nat} (v : BitVec w) (h : lo + w ≤ 32) :
    (place lo v).extractLsb' lo w = v := by
  refine BitVec.eq_of_getLsbD_eq fun i hi => ?_
  rw [BitVec.getLsbD_extractLsb', getLsbD_place]
  simp [hi, show lo + i < 32 by omega]

/-- A field reads 0 beside where it was placed. -/
theorem extractLsb'_place_apart {w lo : Nat} (v : BitVec w) {lo' w' : Nat}
    (h : lo' + w' ≤ lo ∨ lo + w ≤ lo') : (place lo v).extractLsb' lo' w' = 0#w' := by
  refine BitVec.eq_of_getLsbD_eq fun i hi => ?_
  rw [BitVec.getLsbD_extractLsb', getLsbD_place]
  rcases h with h | h
  · simp [show ¬ lo ≤ lo' + i by omega]
  · simp [BitVec.getLsbD_of_ge v (lo' + i - lo) (by omega)]

/-- A flag reads back where it was placed. -/
theorem getLsbD_place_bit {i : Nat} (b : Bool) (h : i < 32) : (place i (bit b)).getLsbD i = b := by
  rw [getLsbD_place]
  cases b <;> simp [h]

/-- A bit reads 0 beside where a field was placed. -/
theorem getLsbD_place_apart {w lo i : Nat} (v : BitVec w) (h : i < lo ∨ lo + w ≤ i) :
    (place lo v).getLsbD i = false := by
  rw [getLsbD_place]
  rcases h with h | h
  · simp [show ¬ lo ≤ i by omega]
  · simp [BitVec.getLsbD_of_ge v (i - lo) (by omega)]

/-- A register that is one field holds the field's value. -/
theorem place_zero_toNat {w : Nat} (v : BitVec w) (h : w ≤ 32) : (place 0 v).toNat = v.toNat := by
  have hlt : v.toNat < 2 ^ 32 := v.isLt.trans_le (Nat.pow_le_pow_right (by omega) h)
  simp only [place, BitVec.shiftLeft_zero, BitVec.toNat_setWidth]
  exact Nat.mod_eq_of_lt hlt

/-! ### STATUS -/

/-- STATUS, field by field (R20). -/
theorem statusImage_fields (s : State) :
    (statusImage s).extractLsb' 0 2 = runBits s ∧ (statusImage s).getLsbD 2 = s.initDone ∧
    (statusImage s).getLsbD 3 = s.msgValid ∧
    (statusImage s).extractLsb' 4 2 = resultCode s.result ∧ (statusImage s).getLsbD 6 = s.viol ∧
    (statusImage s).extractLsb' 7 25 = 0 := by
  refine ⟨?_, ?_, ?_, ?_, ?_, ?_⟩ <;>
    simp (disch := omega) [statusImage, BitVec.extractLsb'_or, extractLsb'_place_self,
      extractLsb'_place_apart, getLsbD_place_bit, getLsbD_place_apart,
      -BitVec.getLsbD_eq_getElem]

/-- `run` is 1 exactly outside IDLE and DONE (R20). -/
theorem runBits_of_busy {s : State} (h : s.st ≠ .idle) (h' : s.st ≠ .done) : runBits s = 1 := by
  unfold runBits
  split
  · contradiction
  · contradiction
  · rfl

theorem runBits_of_done {s : State} (h : s.st = .done) : runBits s = 2 := by
  simp only [runBits, h]

/-- `run` is 2 exactly in DONE (R20). -/
theorem runBits_eq_two (s : State) : runBits s = 2 ↔ s.st = .done := by
  refine ⟨fun h => ?_, runBits_of_done⟩
  by_contra hd
  by_cases hi : s.st = .idle
  · rw [runBits_of_idle hi] at h
    exact absurd h (by decide)
  · rw [runBits_of_busy hi hd] at h
    exact absurd h (by decide)

/-- Settles O26: the image at its bit positions, then the codes of `run` and `result`. -/
theorem statusReportsItsFields : Obligations.StatusReportsItsFields := by
  intro s w hw
  obtain ⟨hrun, hinit, hvalid, hresult, hviol, hrest⟩ := statusImage_fields s
  rw [hw, show regImage s 0x0000C = statusImage s from rfl, hrun, hresult]
  refine ⟨runBits_of_idle, runBits_of_done, runBits_of_busy, hinit, hvalid, fun h => ?_, fun h => ?_,
    fun h => ?_, fun h => ?_, hviol, hrest, ?_⟩
  · rw [h, resultCode]
  · rw [h, resultCode]
  · rw [h, resultCode]
  · rw [h, resultCode]
  · rw [runBits_eq_two, doneOut, beq_iff_eq]

/-! ### The error, Message and command registers -/

/-- ERR, field by field (R22, R23). -/
theorem errImage_fields (e : ErrRegs) :
    (errImage e).extractLsb' 0 3 = errCodeBits e.code ∧
    (errImage e).extractLsb' 3 1 = phaseBit e.phase ∧ (errImage e).extractLsb' 4 3 = e.ver ∧
    (errImage e).extractLsb' 8 8 = e.tag ∧ (errImage e).extractLsb' 16 8 = e.reason ∧
    (errImage e).getLsbD 7 = false ∧ (errImage e).extractLsb' 24 8 = 0 := by
  refine ⟨?_, ?_, ?_, ?_, ?_, ?_, ?_⟩ <;>
    simp (disch := omega) [errImage, BitVec.extractLsb'_or, extractLsb'_place_self,
      extractLsb'_place_apart, getLsbD_place_apart,
      -BitVec.getLsbD_eq_getElem]

/-- MSG_HDR, field by field (R18, R23). -/
theorem msgHdrImage_fields (m : Msg) :
    (msgHdrImage m).extractLsb' 0 2 = m.version ∧ (msgHdrImage m).extractLsb' 8 8 = m.flags ∧
    (msgHdrImage m).extractLsb' 16 8 = m.msgType ∧ (msgHdrImage m).getLsbD 24 = m.sndcp ∧
    (msgHdrImage m).getLsbD 25 = m.seqValid ∧ (msgHdrImage m).getLsbD 26 = m.teidValid ∧
    (msgHdrImage m).getLsbD 27 = m.tidValid ∧ (msgHdrImage m).extractLsb' 2 6 = 0 ∧
    (msgHdrImage m).extractLsb' 28 4 = 0 := by
  refine ⟨?_, ?_, ?_, ?_, ?_, ?_, ?_, ?_, ?_⟩ <;>
    simp (disch := omega) [msgHdrImage, BitVec.extractLsb'_or, extractLsb'_place_self,
      extractLsb'_place_apart, getLsbD_place_bit, getLsbD_place_apart,
      -BitVec.getLsbD_eq_getElem]

/-- MSG_LEN_SEQ, field by field (R18, R23). -/
theorem msgLenSeqImage_fields (m : Msg) :
    (msgLenSeqImage m).extractLsb' 0 16 = m.msgLen ∧
    (msgLenSeqImage m).extractLsb' 16 16 = m.seq := by
  refine ⟨?_, ?_⟩ <;>
    simp (disch := omega) [msgLenSeqImage, BitVec.extractLsb'_or, extractLsb'_place_self,
      extractLsb'_place_apart]

/-- CMD_ARG, field by field (R23, R72). -/
theorem cmdArgImage_fields (a : CmdArg) :
    (cmdArgImage a).extractLsb' 0 2 = a.version ∧ (cmdArgImage a).extractLsb' 8 8 = a.tag ∧
    (cmdArgImage a).extractLsb' 16 8 = a.decId ∧ (cmdArgImage a).extractLsb' 2 6 = 0 ∧
    (cmdArgImage a).extractLsb' 24 8 = 0 := by
  refine ⟨?_, ?_, ?_, ?_, ?_⟩ <;>
    simp (disch := omega) [cmdArgImage, BitVec.extractLsb'_or, extractLsb'_place_self,
      extractLsb'_place_apart]

/-- The two halves of `tid` (R23). -/
theorem tid_halves (x : BitVec 64) :
    (x.extractLsb' 32 32).toNat * 2 ^ 32 + (x.extractLsb' 0 32).toNat = x.toNat := by
  have := x.isLt
  simp only [BitVec.extractLsb'_toNat, Nat.shiftRight_eq_div_pow]
  omega

/-- Settles O27: the registers in the order of the statement, each from its image. -/
theorem errorAndMessageRegistersShowTheirFields :
    Obligations.ErrorAndMessageRegistersShowTheirFields := by
  intro s
  obtain ⟨hcode, hphase, hver, htag, hreason, herr7, herr24⟩ := errImage_fields s.err
  obtain ⟨hversion, hflags, htype, hsndcp, hseqv, hteidv, htidv, hhdr2, hhdr28⟩ :=
    msgHdrImage_fields s.msg
  obtain ⟨hlen, hseq⟩ := msgLenSeqImage_fields s.msg
  obtain ⟨haver, hatag, hadec, harg2, harg24⟩ := cmdArgImage_fields s.cmdArg
  exact ⟨hcode, hphase, hver, htag, hreason, place_zero_toNat s.err.off (by decide),
    hversion, hflags, htype, hsndcp, hseqv, hteidv, htidv, hlen, hseq, rfl, tid_halves s.msg.tid,
    place_zero_toNat s.msg.ieOff (by decide), haver, hatag, hadec,
    place_zero_toNat s.bufLen (by decide), extractLsb'_place_self _ (by decide),
    herr7, herr24, hhdr2, hhdr28, harg2, harg24, extractLsb'_place_apart _ (by decide),
    rfl, rfl, rfl⟩

/-! ### Reads and ignored writes -/

/-- CMD and the offsets that the window does not list read 0 (R23). -/
theorem regImage_unlisted {s : State} {off : Off}
    (h : off.toNat = 0 ∨ 0x34 < off.toNat ∨ off.toNat % 4 ≠ 0 ∨ off.toNat = 0x1C) :
    regImage s off = 0 := by
  have hne : ∀ c : Off, c.toNat ≠ 0 → c.toNat ≤ 0x34 → c.toNat % 4 = 0 → c.toNat ≠ 0x1C → off ≠ c := by
    rintro c h0 h34 h4 h1c rfl
    omega
  rw [regImage]
  iterate 12 rw [if_neg (hne _ (by decide) (by decide) (by decide) (by decide))]

/-- A write to an offset other than CMD_ARG and BUF_LEN is ignored (R23). -/
theorem hostRegWrite_ignored {off : Off} (h4 : off ≠ 0x00004) (h10 : off ≠ 0x00010) (v : BitVec 32)
    (s : State) : hostRegWrite off v s = s := by
  rw [hostRegWrite, if_neg h4, if_neg h10]

/-- Settles O28. -/
theorem hostReadsHaveNoEffectAndUnlistedOffsetsReadZero :
    Obligations.HostReadsHaveNoEffectAndUnlistedOffsetsReadZero := by
  refine fun s off r => ⟨fun hin => step_input hin, fun hin => ?_, fun f hin => step_input hin,
    regImage_unlisted, fun v hin h0 h4 h10 => ?_⟩
  · have hbyte : BitVec.ofNat 32 (bufByte s off.toNat).toNat = (bufByte s off.toNat).setWidth 32 :=
      BitVec.ofNat_toNat ..
    rw [step_input hin, hbyte]
    rfl
  · rw [step_regWrite hin fun h => h0 (by rw [h]; rfl),
      hostRegWrite_ignored (fun h => h4 (by rw [h]; rfl)) fun h => h10 (by rw [h]; rfl)]

end Sys2Proof.Machine
end

section
/-! What every operation of the parser and its units can do: end the decode, in an error or in Success, or
go on with BUF and REG as they were (R25 (f), (g), R231, R232). -/

namespace Sys2Proof.Machine

/-- BUF with its length, and REG. -/
def memorySide (s : State) : List Host.Cell × Off × Nat × List (Nat × RegEntry) × Bool :=
  (s.buf, s.bufLen, s.epoch, s.reg, s.initDone)

/-- BUF, its length and REG are what the two frames say. -/
theorem sameMemory_of_memorySide {s t : State} (h : memorySide t = memorySide s) :
    SameBuffer s t ∧ SameRegistry s t := by
  simp only [memorySide, Prod.mk.injEq] at h
  obtain ⟨hb, hl, he, hr, hi⟩ := h
  exact ⟨.mk' hb hl he, hr, hi⟩

/-- The outcome of an operation begun in `s₀`: wherever it goes on, it has ended the decode there, or has
left BUF and REG alone and is BUSY, or where it was. -/
def EndsOrKeeps (s₀ : State) (o : Out) : Prop :=
  ∀ t, o = .next t → (∃ e, t = raise e s₀) ∨ t = finishSuccess s₀ ∨
    (memorySide t = memorySide s₀ ∧ (busy t = true ∨ t.st = s₀.st))

namespace EndsOrKeeps

variable {s₀ s t : State}

theorem raise (e : DecodeError) : EndsOrKeeps s₀ (.next (raise e s₀)) := by
  rintro u ⟨⟩
  exact .inl ⟨e, rfl⟩

theorem finishSuccess : EndsOrKeeps s₀ (.next (finishSuccess s₀)) := by
  rintro u ⟨⟩
  exact .inr (.inl rfl)

/-- The parser goes on in another BUSY state. -/
theorem busy (h : memorySide t = memorySide s₀) (hb : Machine.busy t = true) :
    EndsOrKeeps s₀ (.next t) := by
  rintro u ⟨⟩
  exact .inr (.inr ⟨h, .inl hb⟩)

/-- A unit answers and the sequencer stays. -/
theorem stays (h : memorySide t = memorySide s₀) (hs : t.st = s₀.st) :
    EndsOrKeeps s₀ (.next t) := by
  rintro u ⟨⟩
  exact .inr (.inr ⟨h, .inr hs⟩)

theorem fault (f : Fault) : EndsOrKeeps s₀ (.fault f) := by
  rintro u ⟨⟩

theorem ite {c : Prop} [Decidable c] {o o' : Out} (h : EndsOrKeeps s₀ o) (h' : EndsOrKeeps s₀ o') :
    EndsOrKeeps s₀ (if c then o else o') := by
  split
  · exact h
  · exact h'

theorem need {w : Nat} {k : State → Out} (hk : EndsOrKeeps s₀ (k s)) :
    EndsOrKeeps s₀ (need s₀ w s k) :=
  .ite (.raise _) hk

theorem readBuf {a n : Nat} {k : Nat → Out} (hk : ∀ v, EndsOrKeeps s₀ (k v)) :
    EndsOrKeeps s₀ (readBuf a n s k) := by
  unfold Machine.readBuf
  split
  · exact hk _
  · exact .fault _

/-- A field that does not fit raises; one that fits is consumed, which leaves BUF and REG alone. -/
theorem takeField {n : Nat} {k : Nat → State → Out} (h : memorySide s = memorySide s₀)
    (hk : ∀ v t, memorySide t = memorySide s₀ → EndsOrKeeps s₀ (k v t)) :
    EndsOrKeeps s₀ (takeField s₀ n s k) :=
  .need (.readBuf fun v => hk v _ h)

theorem skipField {n : Nat} {k : State → Out} (h : memorySide s = memorySide s₀)
    (hk : ∀ t, memorySide t = memorySide s₀ → EndsOrKeeps s₀ (k t)) :
    EndsOrKeeps s₀ (skipField s₀ n s k) :=
  .need (hk _ h)

end EndsOrKeeps

/-! ### The operations -/

theorem execHdrFlags_endsOrKeeps (b : Byte) (s : State) : EndsOrKeeps s (execHdrFlags b s) := by
  refine .need ?_
  unfold headerStateOf
  split_ifs
  · exact .busy rfl rfl
  · exact .busy rfl rfl
  · exact .busy rfl rfl
  · exact .raise _

theorem headerV0_endsOrKeeps (p : Params) (flags : Byte) (s : State) :
    EndsOrKeeps s (headerV0 p flags s) := by
  refine .ite ?_ (.raise _)
  -- Message type, length, sequence number; the flow label, the N-PDU part and the four bytes after it,
  -- which are not stored; the tunnel identifier.
  exact .takeField rfl fun _ _ h => .takeField h fun _ _ h => .takeField h fun _ _ h =>
    .skipField h fun _ h => .skipField h fun _ h => .skipField h fun _ h =>
    .takeField h fun _ _ h => .busy h rfl

theorem headerV1Pair_endsOrKeeps {s₀ s : State} (h : memorySide s = memorySide s₀) :
    EndsOrKeeps s₀ (headerV1Pair s₀ s) :=
  .need (.readBuf fun _ => .busy h rfl)

theorem headerV1_endsOrKeeps (p : Params) (flags : Byte) (s : State) :
    EndsOrKeeps s (headerV1 p flags s) := by
  refine .ite ?_ (.raise _)
  exact .takeField rfl fun _ _ h => .takeField h fun _ _ h => .takeField h fun _ _ h =>
    .ite (.takeField h fun _ _ h => headerV1Pair_endsOrKeeps h) (headerV1Pair_endsOrKeeps h)

theorem headerV1Ext_endsOrKeeps (p : Params) (m : Byte) (s : State) :
    EndsOrKeeps s (headerV1Ext p m s) :=
  .ite (.need (.readBuf fun _ => .busy rfl rfl)) (.busy rfl rfl)

theorem headerV2Secondary_endsOrKeeps {s₀ s : State} (h : memorySide s = memorySide s₀) :
    EndsOrKeeps s₀ (headerV2Secondary s₀ s) :=
  .takeField h fun _ _ h => .busy h rfl

theorem headerV2_endsOrKeeps (p : Params) (flags : Byte) (s : State) :
    EndsOrKeeps s (headerV2 p flags s) :=
  .takeField rfl fun _ _ h => .takeField h fun _ _ h =>
    .ite (.ite (.takeField h fun _ _ h => headerV2Secondary_endsOrKeeps h)
      (headerV2Secondary_endsOrKeeps h)) (.raise _)

theorem execIeFetch_endsOrKeeps (t : Byte) (s : State) : EndsOrKeeps s (execIeFetch t s) :=
  .ite .finishSuccess (.ite (.fault _) (.ite (.busy rfl rfl) (.busy rfl rfl)))

/-- An error discards what the decoder has written, and the request is off the port either way (R231). -/
theorem raise_dropRequest_writeFields (e : DecodeError) (ws : List (Byte × Field)) (s : State) :
    raise e (dropRequest (writeFields ws s)) = raise e s := rfl

/-- What the parser does with an answer, once the decoder has written and the request is off the port. -/
theorem execIeCall_endsOrKeeps (t : Byte) (s : State) : EndsOrKeeps s (execIeCall t s) := by
  unfold execIeCall callLeaf
  generalize leafOutcome Config.params t s = r
  cases leafAnsOf r.1 with
  | matched n =>
    rw [leafAnswered]
    split
    · rw [raise_dropRequest_writeFields]; exact .raise _
    · exact .busy rfl rfl
  | notMatched => exact .busy rfl rfl
  | malformed r => rw [leafAnswered, raise_dropRequest_writeFields]; exact .raise _

theorem skipIe_endsOrKeeps (size : Nat → Nat) (t : Byte) (s : State) :
    EndsOrKeeps s (skipIe size t s) :=
  .ite (.raise _) (.readBuf fun _ => .ite (.raise _) (.busy rfl rfl))

/-- Every operation but a command ends the decode or keeps BUF and REG. -/
theorem exec_endsOrKeeps {i : Instr} (hi : selOf i ≠ .cmd) (s : State) : EndsOrKeeps s (exec i s) := by
  cases i with
  | initCmd | registerCmd | decodeCmd | cmdIllegal => exact absurd rfl hi
  | hdrFlags b => exact execHdrFlags_endsOrKeeps b s
  | hdrUnsup v low => exact .raise _
  | hdrV0 low => exact headerV0_endsOrKeeps _ _ s
  | hdrV1 low => exact headerV1_endsOrKeeps _ _ s
  | hdrV1Ext m => exact headerV1Ext_endsOrKeeps _ m s
  | hdrV2 low => exact headerV2_endsOrKeeps _ _ s
  | hdrEnd v low => exact .busy rfl rfl
  | ieFetch t => exact execIeFetch_endsOrKeeps t s
  | ieCall t => exact execIeCall_endsOrKeeps t s
  | ieSkip01 low => exact skipIe_endsOrKeeps _ _ s
  | ieSkip2 t => exact skipIe_endsOrKeeps _ t s
  | ieStop low => exact .raise _
  -- The units that a leaf decoder calls: an answer, beside it a latched length or fields of BODY.
  | rdU8 | rdBe16 | rdBe32 | rdBe64 | tv | tlv01 | tlv2 | skip01 | skip2 | bcdDec | plmnLac
  | leafImsi => exact .stays rfl rfl

/-- No error is reported as code 0 (R74). -/
theorem errCodeOf_ne_none (e : DecodeError) : errCodeOf e ≠ .none := by
  cases e <;> simp [errCodeOf]

/-- A BUSY state is neither IDLE nor DONE (R20). -/
theorem busy_iff (s : State) : busy s = true ↔ s.st ≠ .idle ∧ s.st ≠ .done := by
  simp [busy]

/-- Settles O12: an operation that ends BUSY has raised or has finished with Success. -/
theorem aDecodeEndsInSuccessOrWithTheEmptyMessage :
    Obligations.ADecodeEndsInSuccessOrWithTheEmptyMessage := by
  intro i s t hi hb herr hexec hdone
  rcases exec_endsOrKeeps hi s t hexec with ⟨e, rfl⟩ | rfl | ⟨-, hbusy | hst⟩
  · exact .inr ⟨errCodeOf_ne_none e, raise_errorStep e s⟩
  · exact .inl ⟨rfl, rfl, herr, rfl, rfl⟩
  · exact absurd hdone ((busy_iff t).mp hbusy).2
  · exact absurd (hst.symm.trans hdone) ((busy_iff s).mp hb).2

/-! ### Steps while BUSY -/

/-- While BUSY no operation changes BUF or REG: a command is refused (R201 to R206), and the others end
the decode or keep them. -/
theorem exec_keeps_memory {i : Instr} {s t : State} (hb : busy s = true) (h : exec i s = .next t) :
    memorySide t = memorySide s := by
  have hrefused := refusedCommandsChangeNothingElse s
  by_cases hi : selOf i = .cmd
  · cases i with
    | initCmd => rw [hrefused.1 (.inl hb)] at h; cases h; rfl
    | registerCmd => rw [hrefused.2.1 (.inl hb)] at h; cases h; rfl
    | decodeCmd => rw [hrefused.2.2 (.inl hb)] at h; cases h; rfl
    | cmdIllegal op => cases h; rfl
    | _ => cases hi
  · rcases exec_endsOrKeeps hi s t h with ⟨e, rfl⟩ | rfl | ⟨hm, -⟩
    · rfl
    · rfl
    · exact hm

/-- A word runs one operation, or stops. -/
theorem runWord_next {c : Sel} {w : RawWord} {s t : State}
    (h : runWord Config.params c w s = .next t) : ∃ i, decode c w = .ok i ∧ exec i s = .next t := by
  unfold runWord at h
  split at h
  next i hd => exact ⟨i, hd, by rwa [execWith_default] at h⟩
  next => cases h

theorem runWord_keeps_memory {c : Sel} {w : RawWord} {s t : State} (hb : busy s = true)
    (h : runWord Config.params c w s = .next t) : memorySide t = memorySide s := by
  obtain ⟨i, -, hexec⟩ := runWord_next h
  exact exec_keeps_memory hb hexec

theorem parserEdge_keeps_memory {s t : State} (hb : busy s = true)
    (h : parserEdge Config.params s = .next t) : memorySide t = memorySide s := by
  unfold parserEdge at h
  split at h
  · cases h; rfl
  · exact runWord_keeps_memory hb h

theorem unitEdge_keeps_memory {call : UnitCall} {s t : State} (hb : busy s = true)
    (h : unitEdge Config.params call s = .next t) : memorySide t = memorySide s := by
  unfold unitEdge at h
  split at h
  · cases h; rfl
  · split at h
    · exact runWord_keeps_memory hb h
    · cases h; rfl
    · cases h; rfl

/-- While BUSY a host access that is no command changes neither BUF nor REG (R207). -/
theorem hostAccess_keeps_memory {s : State} (hb : busy s = true) (a : HostAccess) :
    memorySide (hostAccess a s) = memorySide s := by
  cases a with
  | regWrite off v =>
    rw [hostAccess, hostRegWrite]
    split
    · rfl
    · split
      · rfl
      · rfl
  | bufWrite a v => rw [hostAccess, hostBufWrite_busy hb]; rfl
  | regRead off => rfl
  | bufRead a => rfl
  | bodyRead f => rfl

theorem hostEdge_keeps_memory {a : HostAccess} {s t : State} (hb : busy s = true)
    (h : hostEdge Config.params a s = .next t) : memorySide t = memorySide s := by
  unfold hostEdge at h
  split at h
  · split at h
    · exact runWord_keeps_memory hb h
    · cases h; exact hostAccess_keeps_memory hb _
  · cases h; exact hostAccess_keeps_memory hb _

/-- While BUSY no input but a reset edge changes BUF or REG. -/
theorem edge_keeps_memory {i : Input} {s t : State} (hb : busy s = true) (hi : ∀ a, i ≠ .rst a)
    (h : edge Config.params i s = .next t) : memorySide t = memorySide s := by
  cases i with
  | clk => exact parserEdge_keeps_memory hb h
  | host a => exact hostEdge_keeps_memory hb h
  | rst a => exact absurd rfl (hi a)
  | unitCall c => exact unitEdge_keeps_memory hb h
  | leafAnswer =>
    simp only [edge, leafEdge] at h
    split at h
    · cases h; rfl
    · exact parserEdge_keeps_memory hb h

/-- Taking the next input off the list changes nothing else. -/
theorem nextInput_state (s : State) : (nextInput s).2 = { s with inputs := s.inputs.tail } := by
  unfold nextInput
  split
  next h => rw [h, List.tail_nil, ← h]
  next i r h => rw [h, List.tail_cons]

/-- An input of another kind than those listed first is none of that kind. -/
theorem nextInput_ne_rst {s : State} (h : ∀ a r, s.inputs ≠ .rst a :: r) (a : Option HostAccess) :
    (nextInput s).1 ≠ .rst a := by
  unfold nextInput
  split
  next => simp
  next i r hin => rintro rfl; exact h a r hin

/-- Settles O10. -/
theorem busyStepsKeepBufferAndRegistry : Obligations.BusyStepsKeepBufferAndRegistry := by
  intro s t hb hr hstep
  have hstate := nextInput_state s
  have hkeep : memorySide t = memorySide (nextInput s).2 :=
    edge_keeps_memory (by rw [hstate]; exact hb) (nextInput_ne_rst hr) hstep
  exact sameMemory_of_memorySide (by rw [hkeep, hstate]; rfl)

end Sys2Proof.Machine
end

section
/-! The parser's step from a state with the invariant (R25, R46): every step it can take, said once. -/

namespace Sys2Proof.Machine

/-! ### What each state's step runs -/

section
variable {s : State}

/-- In `H_FLAGS` byte 0 goes to HDR.FLAGS or HDR.UNSUP, which do the same on an unsupported version
(R100, R101). -/
theorem parserEdge_hFlags (hs : s.st = .hFlags) (hpc : s.pc = 0) (hl : 0 < s.bufLen.toNat) :
    parserEdge Config.params s = exec (.hdrFlags (bufByte s 0)) s := by
  have hfetch := parserFetch_hFlags hs hl
  by_cases hv : 3 ≤ (versionBits (bufByte s 0)).toNat
  · rw [parserEdge_eq_exec hfetch (if_pos hv),
      exec_hdrFlags_unsupported (by rw [hpc]; exact Nat.succ_le_of_lt hl) hv]
    rfl
  · exact parserEdge_eq_exec hfetch (if_neg hv)

/-- In `H_FLAGS` on an empty message the byte plays no part (R100). -/
theorem parserEdge_hFlags_empty (hs : s.st = .hFlags) (hpc : s.pc = 0) (hl : s.bufLen.toNat = 0) :
    parserEdge Config.params s = .next (raise (.truncated 0) s) := by
  have hfetch : parserFetch s = some (.hFlags, 0) := by
    simp only [parserFetch, hs, wordAt, hl, Nat.lt_irrefl, if_false]
  rw [parserEdge_eq_exec (i := .hdrFlags 0) hfetch (by decide),
    exec_hdrFlags_empty 0 (by rw [hpc, hl]; decide), hpc]

theorem parserEdge_h0 (hs : s.st = .h0) (hv : versionBits s.flags = 0) :
    parserEdge Config.params s = headerV0 Config.params s.flags s := by
  rw [parserEdge_eq_exec (c := .h0) (b := s.flags) (by simp only [parserFetch, hs]) (if_pos hv),
    exec, execHdrV0, ← hv, headerByte_split]

theorem parserEdge_h1 (hs : s.st = .h1) (hv : versionBits s.flags = 1) :
    parserEdge Config.params s = headerV1 Config.params s.flags s := by
  rw [parserEdge_eq_exec (c := .h1) (b := s.flags) (by simp only [parserFetch, hs]) (if_pos hv),
    exec, execHdrV1, ← hv, headerByte_split]

theorem parserEdge_h2 (hs : s.st = .h2) (hv : versionBits s.flags = 2) :
    parserEdge Config.params s = headerV2 Config.params s.flags s := by
  rw [parserEdge_eq_exec (c := .h2) (b := s.flags) (by simp only [parserFetch, hs]) (if_pos hv),
    exec, execHdrV2, ← hv, headerByte_split]

theorem parserEdge_h1Ext (hs : s.st = .h1Ext) :
    parserEdge Config.params s = exec (.hdrV1Ext s.last) s :=
  parserEdge_eq_exec (c := .h1Ext) (b := s.last) (by simp only [parserFetch, hs]) rfl

theorem parserEdge_hEnd (hs : s.st = .hEnd) (hv : s.ver = versionBits s.flags)
    (h2 : s.ver.toNat ≤ 2) : parserEdge Config.params s =
      .next (goto .bFetch (fixHeader (s.ver.setWidth 2) s.flags s)) := by
  rw [parserEdge_eq_exec (c := .hEnd) (b := s.flags) (by simp only [parserFetch, hs])
    (if_pos (hv ▸ h2)), exec_hdrEnd, headerByte_split, hv]

theorem parserEdge_bFetch (hs : s.st = .bFetch) (hl : s.pc.toNat < s.bufLen.toNat) :
    parserEdge Config.params s = exec (.ieFetch (bufByte s s.pc.toNat)) s :=
  parserEdge_eq_exec (parserFetch_bFetch hs hl) rfl

theorem parserEdge_bFetch_end (hs : s.st = .bFetch) (hl : s.pc = s.bufLen) :
    parserEdge Config.params s = .next (finishSuccess s) := by
  rw [parserEdge_eq_exec (c := .bFetch) (b := wordAt s s.pc.toNat) (by simp only [parserFetch, hs])
    rfl, exec_ieFetch_end _ hl]

theorem parserEdge_bCall (hs : s.st = .bCall) :
    parserEdge Config.params s = exec (.ieCall s.tag) s :=
  parserEdge_eq_exec (c := .bCall) (b := s.tag) (by simp only [parserFetch, hs]) rfl

/-- The fallback of version 2 skips a frame of four bytes and its value (R136, R139). -/
theorem parserEdge_fallback2 (hs : s.st = .bFallback) (hv : s.ver = 2) :
    parserEdge Config.params s = skipIe tlv2Size s.tag s :=
  parserEdge_eq_exec (c := .fallback2) (b := s.tag) (i := .ieSkip2 s.tag)
    (by simp only [parserFetch, hs, if_pos hv]) rfl

/-- The fallback of versions 0 and 1 skips a tag with the high bit set (R136, R138). -/
theorem parserEdge_fallback01_tlv (hs : s.st = .bFallback) (hv : s.ver ≠ 2)
    (ht : tlvClass s.tag = true) : parserEdge Config.params s = skipIe tlv01Size s.tag s := by
  rw [parserEdge_eq_exec (parserFetch_fallback01 hs hv) (if_pos ht),
    exec_ieSkip01_of_tag ((tlvClass_iff _).mp ht)]

/-- The fallback of versions 0 and 1 stops at a tag with the high bit clear (R136, R140). -/
theorem parserEdge_fallback01_tv (hs : s.st = .bFallback) (hv : s.ver ≠ 2)
    (ht : tlvClass s.tag ≠ true) :
    parserEdge Config.params s = .next (raise (.bodyIncomplete s.tag (bodyIdx s)) s) := by
  rw [parserEdge_eq_exec (parserFetch_fallback01 hs hv) (if_neg ht),
    exec_ieStop_of_tag (by rw [Ne, tlvClass_iff] at ht; omega)]

end

/-! ### What each rule can do -/

/-- HDR.V0 raises, or stores a header that fits (R102). -/
theorem headerV0_cases (p : Params) (flags : Byte) {s : State} (hpc : s.pc = 1) :
    (∃ e, headerV0 p flags s = .next (raise e s)) ∨
    (20 + sndcpBytes p flags ≤ s.bufLen.toNat ∧ ptSet p flags = true ∧
      headerV0 p flags s = .next (storedV0 p flags s)) := by
  cases hp : ptSet p flags with
  | false => exact .inl ⟨_, if_neg (by rw [hp]; decide)⟩
  | true =>
    rw [headerV0_eq hp hpc]
    cases hf : firstOverrun s.bufLen.toNat (fieldsV0 (sndcpBytes p flags)) with
    | some off => exact .inl ⟨_, guardFields_some _ hf⟩
    | none =>
      have hlast := le_of_firstOverrun_none hf (f := (12 + sndcpBytes p flags, 8)) (by simp [fieldsV0])
      exact .inr ⟨by omega, rfl, guardFields_none _ hf⟩

/-- HDR.V1 raises, or stores a header that fits up to the first marker (R103). -/
theorem headerV1_cases (p : Params) (flags : Byte) {s : State} (hpc : s.pc = 1) :
    (∃ e, headerV1 p flags s = .next (raise e s)) ∨
    (10 + seqBytes p flags ≤ s.bufLen.toNat ∧ ptSet p flags = true ∧
      headerV1 p flags s = .next (storedV1 p flags s)) := by
  cases hp : ptSet p flags with
  | false => exact .inl ⟨_, if_neg (by rw [hp]; decide)⟩
  | true =>
    rw [headerV1_eq hp hpc]
    cases hf : firstOverrun s.bufLen.toNat (fieldsV1 p flags) with
    | some off => exact .inl ⟨_, guardFields_some _ hf⟩
    | none =>
      have hlast := le_of_firstOverrun_none hf (f := (8 + seqBytes p flags, 2))
        (by cases hq : seqSet p flags <;> simp [fieldsV1, seqBytes, hq])
      exact .inr ⟨by omega, rfl, guardFields_none _ hf⟩

/-- HDR.V2 raises, or stores a header that fits and is framed (R105). -/
theorem headerV2_cases (p : Params) (flags : Byte) {s : State} (hpc : s.pc = 1) :
    (∃ e, headerV2 p flags s = .next (raise e s)) ∨
    (8 + teidBytes p flags ≤ s.bufLen.toNat ∧
      headerV2 p flags s = .next (storedV2 p flags s)) := by
  rw [headerV2_eq p flags hpc]
  cases hf : firstOverrun s.bufLen.toNat [(1, 1), (2, 2)] with
  | some off => exact .inl ⟨_, guardFields_some _ hf⟩
  | none =>
    rw [guardFields_none _ hf, framedV2]
    split
    next hframe =>
      cases hf : firstOverrun s.bufLen.toNat (fieldsV2 p flags) with
      | some off => exact .inl ⟨_, guardFields_some _ hf⟩
      | none =>
        have hlast := le_of_firstOverrun_none hf (f := (4 + teidBytes p flags, 4))
          (by cases hq : teidSet p flags <;> simp [fieldsV2, teidBytes, hq])
        exact .inr ⟨by omega, guardFields_none _ hf⟩
    next => exact .inl ⟨_, rfl⟩

/-- One turn of the extension walk raises, goes on behind four bytes, or ends (R104). -/
theorem exec_hdrV1Ext_cases (m : Byte) (s : State) :
    (∃ e, exec (.hdrV1Ext m) s = .next (raise e s)) ∨
    (s.pc.toNat + 4 ≤ s.bufLen.toNat ∧ exec (.hdrV1Ext m) s =
      .next (goto .h1Ext (advance 4 (latchLast (bufByte s (s.pc.toNat + 3)) s)))) ∨
    (m ≠ 0x02 ∧ exec (.hdrV1Ext m) s = .next (goto .hEnd s)) := by
  by_cases hm : m = 0x02
  · subst hm
    by_cases hl : s.pc.toNat + 4 ≤ s.bufLen.toNat
    · exact .inr (.inl ⟨hl, exec_hdrV1Ext_fits hl⟩)
    · exact .inl ⟨_, exec_hdrV1Ext_short (by omega)⟩
  · exact .inr (.inr ⟨hm, exec_hdrV1Ext_end hm s⟩)

/-- IE.CALL raises, goes on behind the bytes the decoder took, or falls back, with the decoder's fields
written (R132 to R135). -/
theorem exec_ieCall_cases (t : Byte) (s : State) :
    (∃ e, exec (.ieCall t) s = .next (raise e s)) ∨
    (∃ n ws, 1 ≤ n ∧ n ≤ remBytes s ∧ exec (.ieCall t) s =
      .next (goto .bFetch (advance n (dropRequest (writeFields ws s))))) ∨
    (∃ ws, exec (.ieCall t) s = .next (goto .bFallback (dropRequest (writeFields ws s)))) := by
  simp only [exec, execIeCall, callLeaf]
  generalize leafOutcome Config.params t s = r
  cases leafAnsOf r.1 with
  | matched n =>
    by_cases hn : n = 0 ∨ remBytes s < n
    · rw [leafAnswered_badCount (s := dropRequest (writeFields r.2 s)) hn,
        raise_dropRequest_writeFields]
      exact .inl ⟨_, rfl⟩
    · rw [leafAnswered_matched (s := dropRequest (writeFields r.2 s)) (by omega)
        (show n ≤ remBytes s by omega)]
      exact .inr (.inl ⟨n, r.2, by omega, by omega, rfl⟩)
  | notMatched => exact .inr (.inr ⟨r.2, rfl⟩)
  | malformed x =>
    rw [leafAnswered, raise_dropRequest_writeFields]
    exact .inl ⟨_, rfl⟩

/-- A generic skip raises, or passes a frame that fits (R138, R139). -/
theorem skipIe_cases {size : Nat → Nat} (hsize : ∀ n, 3 ≤ size n) (t : Byte) (s : State) :
    (∃ e, skipIe size t s = .next (raise e s)) ∨
    (∃ n len, 3 ≤ n ∧ s.pc.toNat + n ≤ s.bufLen.toNat ∧
      skipIe size t s = .next (goto .bFetch (advance n (latchLength len s)))) := by
  generalize hlen : be16 (bufByte s (s.pc.toNat + 1)) (bufByte s (s.pc.toNat + 2)) = len
  have h3 := hsize len.toNat
  by_cases hf : s.pc.toNat + size len.toNat ≤ s.bufLen.toNat
  · exact .inr ⟨_, len, h3, hf, skipIe_fits t hlen.symm h3 hf⟩
  · exact .inl ⟨_, skipIe_short t hlen.symm (.inr (by omega))⟩

/-! ### All that a parser step can do -/

/-- The steps of the parser from a BUSY state `s` that has the invariant. -/
inductive ParserStep (s : State) : State → Prop
  | failed (e : DecodeError) : ParserStep s (raise e s)
  | flags (b : Byte) (hs : s.st = .hFlags) (hl : 0 < s.bufLen.toNat) (hb : b = bufByte s 0)
      (hv : (versionBits b).toNat ≤ 2) : ParserStep s
        (goto (if versionBits b = 0 then .h0 else if versionBits b = 1 then .h1 else .h2)
          (latchByte0 b s))
  | headerV0 (hs : s.st = .h0) (hp : ptSet Config.params s.flags = true)
      (hl : 20 + sndcpBytes Config.params s.flags ≤ s.bufLen.toNat) :
      ParserStep s (storedV0 Config.params s.flags s)
  | headerV1 (hs : s.st = .h1) (hp : ptSet Config.params s.flags = true)
      (hl : 10 + seqBytes Config.params s.flags ≤ s.bufLen.toNat) :
      ParserStep s (storedV1 Config.params s.flags s)
  | chained (hs : s.st = .h1Ext) (hl : s.pc.toNat + 4 ≤ s.bufLen.toNat) :
      ParserStep s (goto .h1Ext (advance 4 (latchLast (bufByte s (s.pc.toNat + 3)) s)))
  | chainEnd (hs : s.st = .h1Ext) (hm : s.last ≠ 0x02) : ParserStep s (goto .hEnd s)
  | headerV2 (hs : s.st = .h2) (hl : 8 + teidBytes Config.params s.flags ≤ s.bufLen.toNat) :
      ParserStep s (storedV2 Config.params s.flags s)
  | headerEnd (hs : s.st = .hEnd) :
      ParserStep s (goto .bFetch (fixHeader (s.ver.setWidth 2) s.flags s))
  | success (hs : s.st = .bFetch) (hl : s.pc = s.bufLen) : ParserStep s (finishSuccess s)
  | call (t : Byte) (hs : s.st = .bFetch) (hl : s.pc.toNat < s.bufLen.toNat)
      (ht : t = bufByte s s.pc.toNat) (hr : (regGet s s.ver.toNat t).valid = true) :
      ParserStep s (goto .bCall (postRequest (leafRequest t s) (latchTag t s)))
  | unregistered (t : Byte) (hs : s.st = .bFetch) (hl : s.pc.toNat < s.bufLen.toNat)
      (ht : t = bufByte s s.pc.toNat) : ParserStep s (goto .bFallback (latchTag t s))
  | matched (n : Nat) (ws : List (Byte × Field)) (hs : s.st = .bCall) (h1 : 1 ≤ n)
      (hn : n ≤ remBytes s) :
      ParserStep s (goto .bFetch (advance n (dropRequest (writeFields ws s))))
  | notMatched (ws : List (Byte × Field)) (hs : s.st = .bCall) :
      ParserStep s (goto .bFallback (dropRequest (writeFields ws s)))
  | skipped (n : Nat) (len : BitVec 16) (hs : s.st = .bFallback) (h3 : 3 ≤ n)
      (hl : s.pc.toNat + n ≤ s.bufLen.toNat) :
      ParserStep s (goto .bFetch (advance n (latchLength len s)))

/-- An outcome that goes on with a parser step. -/
def Steps (s : State) (o : Out) : Prop := ∃ t, o = .next t ∧ ParserStep s t

theorem Steps.of_eq {s t : State} {o : Out} (h : o = .next t) (hs : ParserStep s t) : Steps s o :=
  ⟨t, h, hs⟩

/-- The step of a generic skip. -/
theorem skipIe_steps {size : Nat → Nat} (hsize : ∀ n, 3 ≤ size n) {s : State}
    (hs : s.st = .bFallback) : Steps s (skipIe size s.tag s) := by
  rcases skipIe_cases hsize s.tag s with ⟨e, h⟩ | ⟨n, len, h3, hl, h⟩
  · exact .of_eq h (.failed e)
  · exact .of_eq h (.skipped n len hs h3 hl)

/-- From a BUSY state with the invariant the parser always goes on, by one of its steps: no read outside
`[0, buf_len)`, and no word without an operation (R46, R230). -/
theorem parserEdge_steps {s : State} (h : BlockInv s) (hb : busy s = true) :
    Steps s (parserEdge Config.params s) := by
  have hcursor := h.cursorInside hb
  have hknown : s.st ≠ .hFlags → s.ver = versionBits s.flags ∧ s.ver.toNat ≤ 2 := fun hs =>
    h.version (by simp [versionKnown, hb, hs])
  cases hs : s.st with
  | idle => exact absurd hs ((busy_iff s).mp hb).1
  | done => exact absurd hs ((busy_iff s).mp hb).2
  | hFlags =>
    obtain ⟨hpc, -⟩ := h.atStart hs
    by_cases hl : 0 < s.bufLen.toNat
    · have hfits : s.pc.toNat + 1 ≤ s.bufLen.toNat := by rw [hpc]; exact Nat.succ_le_of_lt hl
      rw [parserEdge_hFlags hs hpc hl]
      by_cases hv : (versionBits (bufByte s 0)).toNat ≤ 2
      · exact .of_eq (exec_hdrFlags_supported hfits hv) (.flags _ hs hl rfl hv)
      · exact .of_eq (exec_hdrFlags_unsupported hfits (by omega)) (.failed _)
    · exact .of_eq (parserEdge_hFlags_empty hs hpc (by omega)) (.failed _)
  | h0 =>
    have hv := h.headerState 0 (by rw [hs, headerVersion])
    rw [parserEdge_h0 hs (by rw [← (hknown (by simp [hs])).1, hv])]
    rcases headerV0_cases Config.params s.flags (h.fixedHeader (by simp [hs])).1 with
      ⟨e, he⟩ | ⟨hl, hp, he⟩
    · exact .of_eq he (.failed e)
    · exact .of_eq he (.headerV0 hs hp hl)
  | h1 =>
    have hv := h.headerState 1 (by rw [hs, headerVersion])
    rw [parserEdge_h1 hs (by rw [← (hknown (by simp [hs])).1, hv])]
    rcases headerV1_cases Config.params s.flags (h.fixedHeader (by simp [hs])).1 with
      ⟨e, he⟩ | ⟨hl, hp, he⟩
    · exact .of_eq he (.failed e)
    · exact .of_eq he (.headerV1 hs hp hl)
  | h1Ext =>
    rw [parserEdge_h1Ext hs]
    rcases exec_hdrV1Ext_cases s.last s with ⟨e, he⟩ | ⟨hl, he⟩ | ⟨hm, he⟩
    · exact .of_eq he (.failed e)
    · exact .of_eq he (.chained hs hl)
    · exact .of_eq he (.chainEnd hs hm)
  | h2 =>
    have hv := h.headerState 2 (by rw [hs, headerVersion])
    rw [parserEdge_h2 hs (by rw [← (hknown (by simp [hs])).1, hv])]
    rcases headerV2_cases Config.params s.flags (h.fixedHeader (by simp [hs])).1 with
      ⟨e, he⟩ | ⟨hl, he⟩
    · exact .of_eq he (.failed e)
    · exact .of_eq he (.headerV2 hs hl)
  | hEnd =>
    obtain ⟨hv, h2⟩ := hknown (by simp [hs])
    exact .of_eq (parserEdge_hEnd hs hv h2) (.headerEnd hs)
  | bFetch =>
    by_cases hl : s.pc.toNat < s.bufLen.toNat
    · rw [parserEdge_bFetch hs hl]
      cases hr : (regGet s s.ver.toNat (bufByte s s.pc.toNat)).valid with
      | true => exact .of_eq (exec_ieFetch_registered hl hr) (.call _ hs hl rfl hr)
      | false => exact .of_eq (exec_ieFetch_unregistered hl hr) (.unregistered _ hs hl rfl)
    · have hend : s.pc = s.bufLen := BitVec.eq_of_toNat_eq (by omega)
      exact .of_eq (parserEdge_bFetch_end hs hend) (.success hs hend)
  | bCall =>
    rw [parserEdge_bCall hs]
    rcases exec_ieCall_cases s.tag s with ⟨e, he⟩ | ⟨n, ws, h1, hn, he⟩ | ⟨ws, he⟩
    · exact .of_eq he (.failed e)
    · exact .of_eq he (.matched n ws hs h1 hn)
    · exact .of_eq he (.notMatched ws hs)
  | bFallback =>
    by_cases hv : s.ver = 2
    · rw [parserEdge_fallback2 hs hv]
      exact skipIe_steps (fun n => by rw [tlv2Size]; omega) hs
    · by_cases ht : tlvClass s.tag = true
      · rw [parserEdge_fallback01_tlv hs hv ht]
        exact skipIe_steps (fun n => by rw [tlv01Size]; omega) hs
      · exact .of_eq (parserEdge_fallback01_tv hs hv ht) (.failed _)

end Sys2Proof.Machine
end

section
/-! The invariant of the block (R25) through every step, and the cursor (R12). -/

namespace Sys2Proof.Machine

/-! ### What the invariant depends on -/

/-- The invariant looks at BUF, REG and the parser's side only. -/
theorem BlockInv.of_frames {s t : State} (h : BlockInv s) (hb : SameBuffer s t)
    (hr : SameRegistry s t) (hp : SameParserSide s t) : BlockInv t := by
  obtain ⟨hbuf, hlen, hep, -⟩ := hb
  obtain ⟨hreg, hinit⟩ := hr
  obtain ⟨⟨hver, hflags, htag, hlf, hlast, hword, hpc, hie, hst, hreq⟩,
    ⟨hmsg, hbody, hval, hres, herr⟩⟩ := hp
  cases s
  cases t
  dsimp only at *
  subst hbuf hlen hep hreg hinit hver hflags htag hlf hlast hword hpc hie hst hreq hmsg hbody hval
    hres herr
  exact ⟨h.bufCanonical, h.regCanonical, h.bodyCanonical, h.cursorInside, h.busyInitialised,
    h.busyClear, h.atStart, h.version, h.headerState, h.fixedHeader, h.headerBody, h.bodyPhase,
    h.tagAtCursor, h.request, h.noRequest, h.idleClear, h.doneOutcome⟩

/-- The invariant in IDLE and DONE, from its checks there. -/
theorem BlockInv.of_quiet {s : State} (hs : s.st = .idle ∨ s.st = .done)
    (hbuf : Memory.wf s.buf = true) (hreg : Registry.wf s.reg = true) (hbody : bodyWf s.body = true)
    (hreq : s.leafReq = none)
    (hidle : s.st = .idle → s.msgValid = false ∧ s.result = .none ∧ s.err = ErrRegs.clear ∧
      s.msg = Msg.empty ∧ s.body = emptyBody)
    (hdone : s.st = .done →
      (s.result = .success ∧ s.msgValid = true ∧ s.err = ErrRegs.clear ∧ successMessage s) ∨
      (s.msgValid = false ∧ s.err.code ≠ .none ∧ s.result = resultOfPhase s.err.phase ∧
        s.msg = Msg.empty ∧ s.body = emptyBody)) : BlockInv s where
  bufCanonical := hbuf
  regCanonical := hreg
  bodyCanonical := hbody
  cursorInside := by rcases hs with hs | hs <;> simp [busy, hs]
  busyInitialised := by rcases hs with hs | hs <;> simp [busy, hs]
  busyClear := by rcases hs with hs | hs <;> simp [busy, hs]
  atStart := by rcases hs with hs | hs <;> simp [hs]
  version := by rcases hs with hs | hs <;> simp [versionKnown, busy, hs]
  headerState := by rcases hs with hs | hs <;> simp [headerVersion, hs]
  fixedHeader := by rcases hs with hs | hs <;> simp [hs]
  headerBody := by rcases hs with hs | hs <;> simp [hs]
  bodyPhase := by rcases hs with hs | hs <;> simp [inBody, hs]
  tagAtCursor := by rcases hs with hs | hs <;> simp [tagPending, hs]
  request := by rcases hs with hs | hs <;> simp [hs]
  noRequest := fun _ => hreq
  idleClear := hidle
  doneOutcome := hdone

/-- The invariant at the start of a decode, from its checks there. -/
theorem BlockInv.of_start {s : State} (hs : s.st = .hFlags) (hbuf : Memory.wf s.buf = true)
    (hreg : Registry.wf s.reg = true) (hinit : s.initDone = true)
    (hclear : s.msgValid = false ∧ s.result = .none ∧ s.err = ErrRegs.clear)
    (hstart : s.pc = 0 ∧ s.ver = 0 ∧ s.msg = Msg.empty ∧ s.body = emptyBody)
    (hreq : s.leafReq = none) : BlockInv s where
  bufCanonical := hbuf
  regCanonical := hreg
  bodyCanonical := by rw [hstart.2.2.2]; rfl
  cursorInside := fun _ => by rw [hstart.1]; exact Nat.zero_le _
  busyInitialised := fun _ => hinit
  busyClear := fun _ => hclear
  atStart := fun _ => hstart
  version := by simp [versionKnown, hs]
  headerState := by simp [headerVersion, hs]
  fixedHeader := by simp [hs]
  headerBody := by simp [hs]
  bodyPhase := by simp [inBody, hs]
  tagAtCursor := by simp [tagPending, hs]
  request := by simp [hs]
  noRequest := fun _ => hreq
  idleClear := by simp [hs]
  doneOutcome := by simp [hs]

/-- What holds all through a decode once byte 0 has been read. -/
structure Running (s : State) : Prop where
  bufCanonical : Memory.wf s.buf = true
  regCanonical : Registry.wf s.reg = true
  bodyCanonical : bodyWf s.body = true
  cursorInside : s.pc.toNat ≤ s.bufLen.toNat
  initialised : s.initDone = true
  clear : s.msgValid = false ∧ s.result = .none ∧ s.err = ErrRegs.clear
  version : s.ver = versionBits s.flags ∧ s.ver.toNat ≤ 2

theorem BlockInv.running {s : State} (h : BlockInv s) (hk : versionKnown s = true) : Running s := by
  have hb : busy s = true := by
    unfold versionKnown at hk
    exact (Bool.and_eq_true_iff.mp hk).1
  exact ⟨h.bufCanonical, h.regCanonical, h.bodyCanonical, h.cursorInside hb, h.busyInitialised hb,
    h.busyClear hb, h.version hk⟩

/-- The header states behind `H_FLAGS`. -/
def inHeaderState (x : St) : Prop := x = .h0 ∨ x = .h1 ∨ x = .h1Ext ∨ x = .h2 ∨ x = .hEnd

/-- The invariant in a header state, from its checks there. -/
theorem BlockInv.of_header {s : State} (hs : inHeaderState s.st) (hr : Running s)
    (hstate : ∀ v, headerVersion s.st = some v → s.ver = v)
    (hfixed : s.st = .h0 ∨ s.st = .h1 ∨ s.st = .h2 → s.pc = 1 ∧ 1 ≤ s.bufLen.toNat)
    (hbody : s.body = emptyBody) (hreq : s.leafReq = none) : BlockInv s where
  bufCanonical := hr.bufCanonical
  regCanonical := hr.regCanonical
  bodyCanonical := hr.bodyCanonical
  cursorInside := fun _ => hr.cursorInside
  busyInitialised := fun _ => hr.initialised
  busyClear := fun _ => hr.clear
  atStart := by rcases hs with hs | hs | hs | hs | hs <;> simp [hs]
  version := fun _ => hr.version
  headerState := hstate
  fixedHeader := hfixed
  headerBody := fun _ => hbody
  bodyPhase := by rcases hs with hs | hs | hs | hs | hs <;> simp [inBody, hs]
  tagAtCursor := by rcases hs with hs | hs | hs | hs | hs <;> simp [tagPending, hs]
  request := by rcases hs with hs | hs | hs | hs | hs <;> simp [hs]
  noRequest := fun _ => hreq
  idleClear := by rcases hs with hs | hs | hs | hs | hs <;> simp [hs]
  doneOutcome := by rcases hs with hs | hs | hs | hs | hs <;> simp [hs]

/-- The invariant in a body state, from its checks there. -/
theorem BlockInv.of_body {s : State} (hs : s.st = .bFetch ∨ s.st = .bCall ∨ s.st = .bFallback)
    (hr : Running s) (hie : s.ieOff.toNat ≤ s.pc.toNat) (hmsg : successMessage s)
    (htag : s.st ≠ .bFetch → s.pc.toNat < s.bufLen.toNat ∧ s.tag = bufByte s s.pc.toNat)
    (hreq : s.st = .bCall →
      s.leafReq = some (leafRequest s.tag s) ∧ (regGet s s.ver.toNat s.tag).valid = true)
    (hno : s.st ≠ .bCall → s.leafReq = none) : BlockInv s where
  bufCanonical := hr.bufCanonical
  regCanonical := hr.regCanonical
  bodyCanonical := hr.bodyCanonical
  cursorInside := fun _ => hr.cursorInside
  busyInitialised := fun _ => hr.initialised
  busyClear := fun _ => hr.clear
  atStart := by rcases hs with hs | hs | hs <;> simp [hs]
  version := fun _ => hr.version
  headerState := by rcases hs with hs | hs | hs <;> simp [headerVersion, hs]
  fixedHeader := by rcases hs with hs | hs | hs <;> simp [hs]
  headerBody := by rcases hs with hs | hs | hs <;> simp [hs]
  bodyPhase := fun _ => ⟨hie, hmsg⟩
  tagAtCursor := fun hp => htag fun hf => by simp [tagPending, hf] at hp
  request := hreq
  noRequest := hno
  idleClear := by rcases hs with hs | hs | hs <;> simp [hs]
  doneOutcome := by rcases hs with hs | hs | hs <;> simp [hs]

/-! ### The parser's steps -/

/-- A decode error keeps the invariant (R231). -/
theorem BlockInv.raise {s : State} (h : BlockInv s) (e : DecodeError) : BlockInv (raise e s) :=
  .of_quiet (.inr rfl) h.bufCanonical h.regCanonical rfl rfl nofun fun _ =>
    .inr ⟨rfl, errCodeOf_ne_none e, rfl, rfl, rfl⟩

/-- The end of the body keeps the invariant (R232). -/
theorem BlockInv.finishSuccess {s : State} (h : BlockInv s) (hs : s.st = .bFetch) :
    BlockInv (finishSuccess s) := by
  obtain ⟨-, -, herr⟩ := h.busyClear (by simp [busy, hs])
  obtain ⟨-, hmsg⟩ := h.bodyPhase (by simp [inBody, hs])
  exact .of_quiet (.inr rfl) h.bufCanonical h.regCanonical h.bodyCanonical
    (h.noRequest (by simp [hs])) nofun fun _ => .inl ⟨rfl, rfl, herr, hmsg⟩

/-- The header state of a supported version stands for that version (R15, R100). -/
theorem headerState_of_version {v : BitVec 3} (hv : v.toNat ≤ 2) :
    inHeaderState (if v = 0 then .h0 else if v = 1 then .h1 else .h2) ∧
      ∀ w, headerVersion (if v = 0 then .h0 else if v = 1 then .h1 else .h2) = some w → v = w := by
  revert v
  unfold inHeaderState
  decide

/-- HDR.FLAGS on a supported version keeps the invariant (R100). -/
theorem BlockInv.flags {s : State} (h : BlockInv s) (hs : s.st = .hFlags) (hl : 0 < s.bufLen.toNat)
    {b : Byte} (hv : (versionBits b).toNat ≤ 2) : BlockInv
      (goto (if versionBits b = 0 then .h0 else if versionBits b = 1 then .h1 else .h2)
        (latchByte0 b s)) := by
  obtain ⟨-, -, -, hbody⟩ := h.atStart hs
  obtain ⟨hstate, hversion⟩ := headerState_of_version hv
  have hb : busy s = true := by simp [busy, hs]
  have hl1 : 1 ≤ s.bufLen.toNat := hl
  exact .of_header hstate ⟨h.bufCanonical, h.regCanonical, h.bodyCanonical, hl1,
    h.busyInitialised hb, h.busyClear hb, rfl, hv⟩ hversion (fun _ => ⟨rfl, hl1⟩) hbody
    (h.noRequest (by simp [hs]))

section
variable {s : State}

/-- What a header state behind `H_FLAGS` knows. -/
theorem BlockInv.header_facts (h : BlockInv s) (hs : inHeaderState s.st) :
    Running s ∧ s.body = emptyBody ∧ s.leafReq = none := by
  have hk : versionKnown s = true := by
    rcases hs with hs | hs | hs | hs | hs <;> simp [versionKnown, busy, hs]
  have hne : s.st ≠ .bCall := by rcases hs with hs | hs | hs | hs | hs <;> simp [hs]
  exact ⟨h.running hk, h.headerBody hs, h.noRequest hne⟩

/-- What a body state knows. -/
theorem BlockInv.body_facts (h : BlockInv s)
    (hs : s.st = .bFetch ∨ s.st = .bCall ∨ s.st = .bFallback) :
    Running s ∧ s.ieOff.toNat ≤ s.pc.toNat ∧ successMessage s := by
  have hk : versionKnown s = true := by
    rcases hs with hs | hs | hs <;> simp [versionKnown, busy, hs]
  have hi : inBody s = true := by rcases hs with hs | hs | hs <;> simp [inBody, hs]
  exact ⟨h.running hk, h.bodyPhase hi⟩

/-- A decode that goes on to another place of the same message. -/
theorem Running.moved {t : State} (hr : Running s) (hbuf : t.buf = s.buf) (hlen : t.bufLen = s.bufLen)
    (hreg : t.reg = s.reg) (hinit : t.initDone = s.initDone)
    (hclear : t.msgValid = s.msgValid ∧ t.result = s.result ∧ t.err = s.err)
    (hver : t.ver = s.ver ∧ t.flags = s.flags) (hbody : bodyWf t.body = true)
    (hpc : t.pc.toNat ≤ s.bufLen.toNat) : Running t := by
  obtain ⟨hval, hres, herr⟩ := hclear
  obtain ⟨hv, hf⟩ := hver
  exact ⟨hbuf ▸ hr.bufCanonical, hreg ▸ hr.regCanonical, hbody, hlen ▸ hpc, hinit ▸ hr.initialised,
    hval ▸ hres ▸ herr ▸ hr.clear, hv ▸ hf ▸ hr.version⟩

/-- HDR.V0 keeps the invariant (R102). -/
theorem BlockInv.storedV0 (h : BlockInv s) (hs : s.st = .h0) {p : Params} {b : Byte}
    (hl : 20 + sndcpBytes p b ≤ s.bufLen.toNat) : BlockInv (storedV0 p b s) := by
  obtain ⟨hr, hbody, hreq⟩ := h.header_facts (.inl hs)
  exact .of_header (.inr (.inr (.inr (.inr rfl)))) (hr.moved rfl rfl rfl rfl ⟨rfl, rfl, rfl⟩
    ⟨rfl, rfl⟩ h.bodyCanonical ((toNat_ofNat_of_le hl).trans_le hl)) nofun nofun hbody hreq

/-- HDR.V2 keeps the invariant (R105). -/
theorem BlockInv.storedV2 (h : BlockInv s) (hs : s.st = .h2) {p : Params} {b : Byte}
    (hl : 8 + teidBytes p b ≤ s.bufLen.toNat) : BlockInv (storedV2 p b s) := by
  obtain ⟨hr, hbody, hreq⟩ := h.header_facts (.inr (.inr (.inr (.inl hs))))
  exact .of_header (.inr (.inr (.inr (.inr rfl)))) (hr.moved rfl rfl rfl rfl ⟨rfl, rfl, rfl⟩
    ⟨rfl, rfl⟩ h.bodyCanonical ((toNat_ofNat_of_le hl).trans_le hl)) nofun nofun hbody hreq

/-- HDR.V1 keeps the invariant (R103). -/
theorem BlockInv.storedV1 (h : BlockInv s) (hs : s.st = .h1) {p : Params} {b : Byte}
    (hl : 10 + seqBytes p b ≤ s.bufLen.toNat) : BlockInv (storedV1 p b s) := by
  obtain ⟨hr, hbody, hreq⟩ := h.header_facts (.inr (.inl hs))
  have hv : s.ver = 1 := h.headerState 1 (by rw [hs, headerVersion])
  exact .of_header (.inr (.inr (.inl rfl))) (hr.moved rfl rfl rfl rfl ⟨rfl, rfl, rfl⟩
    ⟨rfl, rfl⟩ h.bodyCanonical ((toNat_ofNat_of_le hl).trans_le hl)) (by rintro v ⟨⟩; exact hv) nofun
    hbody hreq

/-- A turn of the extension walk keeps the invariant (R104). -/
theorem BlockInv.chained (h : BlockInv s) (hs : s.st = .h1Ext) {b : Byte}
    (hl : s.pc.toNat + 4 ≤ s.bufLen.toNat) :
    BlockInv (goto .h1Ext (advance 4 (latchLast b s))) := by
  obtain ⟨hr, hbody, hreq⟩ := h.header_facts (.inr (.inr (.inl hs)))
  have hv : s.ver = 1 := h.headerState 1 (by rw [hs, headerVersion])
  exact .of_header (.inr (.inr (.inl rfl))) (hr.moved rfl rfl rfl rfl ⟨rfl, rfl, rfl⟩
    ⟨rfl, rfl⟩ h.bodyCanonical ((advance_toNat (s := latchLast b s) hl).trans_le hl))
    (by rintro v ⟨⟩; exact hv) nofun hbody hreq

/-- The end of the extension walk keeps the invariant (R104). -/
theorem BlockInv.chainEnd (h : BlockInv s) (hs : s.st = .h1Ext) : BlockInv (goto .hEnd s) := by
  obtain ⟨hr, hbody, hreq⟩ := h.header_facts (.inr (.inr (.inl hs)))
  exact .of_header (.inr (.inr (.inr (.inr rfl)))) (hr.moved rfl rfl rfl rfl ⟨rfl, rfl, rfl⟩
    ⟨rfl, rfl⟩ h.bodyCanonical hr.cursorInside) nofun nofun hbody hreq

/-- HDR.END keeps the invariant: the Message is fixed from the working registers (R106). -/
theorem BlockInv.headerEnd (h : BlockInv s) (hs : s.st = .hEnd) :
    BlockInv (goto .bFetch (fixHeader (s.ver.setWidth 2) s.flags s)) := by
  obtain ⟨hr, hbody, hreq⟩ := h.header_facts (.inr (.inr (.inr (.inr hs))))
  exact .of_body (.inl rfl) (hr.moved rfl rfl rfl rfl ⟨rfl, rfl, rfl⟩ ⟨rfl, rfl⟩ h.bodyCanonical
    hr.cursorInside) (Nat.le_refl _) ⟨rfl, rfl, hr.version.2, rfl, rfl⟩ (absurd rfl) nofun
    fun _ => hreq

/-- IE.FETCH keeps the invariant where it calls a registered decoder (R131, R24). -/
theorem BlockInv.call (h : BlockInv s) (hs : s.st = .bFetch) (hl : s.pc.toNat < s.bufLen.toNat)
    {t : Byte} (ht : t = bufByte s s.pc.toNat) (hv : (regGet s s.ver.toNat t).valid = true) :
    BlockInv (goto .bCall (postRequest (leafRequest t s) (latchTag t s))) := by
  obtain ⟨hr, hie, hmsg⟩ := h.body_facts (.inl hs)
  exact .of_body (.inr (.inl rfl)) (hr.moved rfl rfl rfl rfl ⟨rfl, rfl, rfl⟩ ⟨rfl, rfl⟩
    h.bodyCanonical hr.cursorInside) hie hmsg (fun _ => ⟨hl, ht⟩) (fun _ => ⟨rfl, hv⟩) (absurd rfl)

/-- IE.FETCH keeps the invariant where it falls back (R131). -/
theorem BlockInv.unregistered (h : BlockInv s) (hs : s.st = .bFetch)
    (hl : s.pc.toNat < s.bufLen.toNat) {t : Byte} (ht : t = bufByte s s.pc.toNat) :
    BlockInv (goto .bFallback (latchTag t s)) := by
  obtain ⟨hr, hie, hmsg⟩ := h.body_facts (.inl hs)
  exact .of_body (.inr (.inr rfl)) (hr.moved rfl rfl rfl rfl ⟨rfl, rfl, rfl⟩ ⟨rfl, rfl⟩
    h.bodyCanonical hr.cursorInside) hie hmsg (fun _ => ⟨hl, ht⟩) nofun
    fun _ => h.noRequest (by simp [hs])

/-- A leaf decoder's writes keep the Message's variant (R19, R134). -/
theorem successMessage_writeFields (h : successMessage s) (ws : List (Byte × Field)) :
    successMessage (writeFields ws s) := by
  obtain ⟨hversion, hvariant, hle, hie, hflags⟩ := h
  exact ⟨hversion, (bodyPutAll_variant s.body ws).trans hvariant, hle, hie, hflags⟩

/-- A leaf decoder's writes keep the invariant (R134). -/
theorem BlockInv.writeFields (h : BlockInv s) (hs : s.st = .bCall) (ws : List (Byte × Field)) :
    BlockInv (writeFields ws s) := by
  obtain ⟨hr, hie, hmsg⟩ := h.body_facts (.inr (.inl hs))
  exact .of_body (.inr (.inl hs)) (hr.moved rfl rfl rfl rfl ⟨rfl, rfl, rfl⟩ ⟨rfl, rfl⟩
    (bodyWf_putAll h.bodyCanonical ws) hr.cursorInside) hie (successMessage_writeFields hmsg ws)
    (fun _ => h.tagAtCursor (by simp [tagPending, hs])) (fun _ => h.request hs)
    fun hne => absurd hs hne

/-- A decoder's answer keeps the invariant where it advances (R133). -/
theorem BlockInv.matched (h : BlockInv s) (hs : s.st = .bCall) {n : Nat} (hn : n ≤ remBytes s) :
    BlockInv (goto .bFetch (advance n (dropRequest s))) := by
  obtain ⟨hr, hie, hmsg⟩ := h.body_facts (.inr (.inl hs))
  have hl : s.pc.toNat + n ≤ s.bufLen.toNat := by
    have := hr.cursorInside
    unfold remBytes at hn
    omega
  have hpc := advance_toNat (s := dropRequest s) hl
  exact .of_body (.inl rfl) (hr.moved rfl rfl rfl rfl ⟨rfl, rfl, rfl⟩ ⟨rfl, rfl⟩ h.bodyCanonical
    (hpc.trans_le hl)) (hie.trans ((Nat.le_add_right _ n).trans hpc.ge)) hmsg (absurd rfl) nofun
    fun _ => rfl

/-- A decoder's answer keeps the invariant where it falls back (R135). -/
theorem BlockInv.notMatched (h : BlockInv s) (hs : s.st = .bCall) :
    BlockInv (goto .bFallback (dropRequest s)) := by
  obtain ⟨hr, hie, hmsg⟩ := h.body_facts (.inr (.inl hs))
  exact .of_body (.inr (.inr rfl)) (hr.moved rfl rfl rfl rfl ⟨rfl, rfl, rfl⟩ ⟨rfl, rfl⟩
    h.bodyCanonical hr.cursorInside) hie hmsg
    (fun _ => h.tagAtCursor (by simp [tagPending, hs])) nofun fun _ => rfl

/-- A generic skip keeps the invariant (R138, R139). -/
theorem BlockInv.skipped (h : BlockInv s) (hs : s.st = .bFallback) {n : Nat} {len : BitVec 16}
    (hl : s.pc.toNat + n ≤ s.bufLen.toNat) :
    BlockInv (goto .bFetch (advance n (latchLength len s))) := by
  obtain ⟨hr, hie, hmsg⟩ := h.body_facts (.inr (.inr hs))
  have hpc := advance_toNat (s := latchLength len s) hl
  exact .of_body (.inl rfl) (hr.moved rfl rfl rfl rfl ⟨rfl, rfl, rfl⟩ ⟨rfl, rfl⟩ h.bodyCanonical
    (hpc.trans_le hl)) (hie.trans ((Nat.le_add_right _ n).trans hpc.ge)) hmsg (absurd rfl) nofun
    fun _ => h.noRequest (by simp [hs])

/-- Every step of the parser keeps the invariant. -/
theorem ParserStep.blockInv {t : State} (hstep : ParserStep s t) (h : BlockInv s) : BlockInv t := by
  cases hstep with
  | failed e => exact h.raise e
  | flags b hs hl hb hv => exact h.flags hs hl hv
  | headerV0 hs hp hl => exact h.storedV0 hs hl
  | headerV1 hs hp hl => exact h.storedV1 hs hl
  | chained hs hl => exact h.chained hs hl
  | chainEnd hs hm => exact h.chainEnd hs
  | headerV2 hs hl => exact h.storedV2 hs hl
  | headerEnd hs => exact h.headerEnd hs
  | success hs hl => exact h.finishSuccess hs
  | call t hs hl ht hr => exact h.call hs hl ht hr
  | unregistered t hs hl ht => exact h.unregistered hs hl ht
  | matched n ws hs h1 hn => exact (h.writeFields hs ws).matched hs hn
  | notMatched ws hs => exact (h.writeFields hs ws).notMatched hs
  | skipped n len hs h3 hl => exact h.skipped hs hl

/-- The parser's edge goes on and keeps the invariant; in IDLE and DONE it does nothing (R240). -/
theorem parserEdge_keeps_inv (h : BlockInv s) :
    ∃ t, parserEdge Config.params s = .next t ∧ BlockInv t := by
  by_cases hb : busy s = true
  · obtain ⟨t, ht, hstep⟩ := parserEdge_steps h hb
    exact ⟨t, ht, hstep.blockInv h⟩
  · have hq : s.st = .idle ∨ s.st = .done := by
      rw [busy_iff] at hb
      tauto
    exact ⟨s, parserEdge_quiet hq, h⟩

end

end Sys2Proof.Machine
end

section
/-! The other steps: a leaf decoder's calls (R48), host accesses (R200 to R207) and reset (R250); with them
the invariant holds of every step, and the cursor never moves back. -/

namespace Sys2Proof.Machine

/-! ### A leaf decoder's call of a unit -/

/-- Every sub-buffer fits the buffer (R45). -/
theorem fitsBuffer_of_le {s : State} {l : List Byte} (h : l.length ≤ s.bufLen.toNat) :
    fitsBuffer l = true :=
  decide_eq_true (h.trans_lt s.bufLen.toNat_lt)

theorem fitsBuffer_subBuf (s : State) (a : Nat) : fitsBuffer (subBuf s a) = true :=
  fitsBuffer_of_le (s := s) (by rw [subBuf_length]; omega)

theorem fitsBuffer_take_subBuf (s : State) (a n : Nat) : fitsBuffer ((subBuf s a).take n) = true :=
  fitsBuffer_of_le (s := s) (by rw [List.length_take, subBuf_length]; omega)

/-- A unit that takes a sub-buffer decodes it as it stands (R45). -/
theorem decodeSub_ok {l : List Byte} {i : Instr} (h : fitsBuffer l = true) :
    decodeSub l i = .ok i := if_pos h

/-- RD.U8 delivers its byte (R160). -/
theorem runWord_rdU8 {l : List Byte} (h : l.length = 1) (s : State) :
    runWord Config.params .rdU8 (.bytes l) s =
      .next (answer (.field (BitVec.ofNat 64 (beNat l))) s) := by
  obtain ⟨b, rfl⟩ := List.length_eq_one_iff.mp h
  rw [runWord_ok (i := .rdU8 b) rfl, exec, execRdU8]
  congr
  simp [beNat]

/-- A value narrower than the answer lines, widened to them. -/
theorem setWidth_ofNat_of_lt {w n : Nat} (h : n < 2 ^ w) :
    (BitVec.ofNat w n).setWidth 64 = BitVec.ofNat 64 n := by
  apply BitVec.eq_of_toNat_eq
  rw [BitVec.toNat_setWidth, BitVec.toNat_ofNat, BitVec.toNat_ofNat, Nat.mod_eq_of_lt h]

/-- RD.BE16 delivers the big-endian value of its bytes (R161). -/
theorem runWord_rdBe16 {l : List Byte} (h : l.length = 2) (s : State) :
    runWord Config.params .rdBe16 (.bytes l) s =
      .next (answer (.field (BitVec.ofNat 64 (beNat l))) s) := by
  have hlt := beNat_lt l
  rw [h] at hlt
  have hd : decode .rdBe16 (.bytes l) = .ok (.rdBe16 (BitVec.ofNat 16 (beNat l))) := if_pos h
  rw [runWord_ok hd, exec, execRdBe16, setWidth_ofNat_of_lt hlt]

/-- RD.BE32 delivers the big-endian value of its bytes (R162). -/
theorem runWord_rdBe32 {l : List Byte} (h : l.length = 4) (s : State) :
    runWord Config.params .rdBe32 (.bytes l) s =
      .next (answer (.field (BitVec.ofNat 64 (beNat l))) s) := by
  have hlt := beNat_lt l
  rw [h] at hlt
  have hd : decode .rdBe32 (.bytes l) = .ok (.rdBe32 (BitVec.ofNat 32 (beNat l))) := if_pos h
  rw [runWord_ok hd, exec, execRdBe32, setWidth_ofNat_of_lt hlt]

/-- RD.BE64 delivers the big-endian value of its bytes (R163). -/
theorem runWord_rdBe64 {l : List Byte} (h : l.length = 8) (s : State) :
    runWord Config.params .rdBe64 (.bytes l) s =
      .next (answer (.field (BitVec.ofNat 64 (beNat l))) s) := by
  have hd : decode .rdBe64 (.bytes l) = .ok (.rdBe64 (BitVec.ofNat 64 (beNat l))) := if_pos h
  rw [runWord_ok hd, exec, execRdBe64]

/-- A leaf decoder's call of a skip latches nothing (R11). -/
theorem latchForParser_of_called {s : State} {q : LeafReq} (hq : s.leafReq = some q)
    (l : List Byte) : latchForParser l s = s := by
  have hcalled : s.leafReq.isSome = true := by rw [hq]; rfl
  rw [latchForParser, if_pos hcalled]

/-- What a call can do: an answer, beside it fields of BODY. -/
def Answers (s : State) (o : Out) : Prop := ∃ a ws, o = .next (answer a (writeFields ws s))

/-- An answer alone. -/
theorem Answers.of_answer {s : State} {o : Out} {a : UnitAns} (h : o = .next (answer a s)) :
    Answers s o := ⟨a, [], h⟩

/-- A call under the caller's guard answers if its unit does on the bytes that fit. -/
theorem answers_of_guarded {s : State} {q : LeafReq} {call : UnitCall} {c : Sel} {n : Nat}
    {l : List Byte} (hq : s.leafReq = some q) (hw : callWord q call s = guarded c n l)
    (h : (l.take n).length = n → Answers s (runWord Config.params c (.bytes (l.take n)) s)) :
    Answers s (unitEdge Config.params call s) := by
  by_cases hn : n ≤ l.length
  · rw [guarded, if_pos hn] at hw
    have := h (by rw [List.length_take]; omega)
    simpa only [unitEdge, hq, hw] using this
  · rw [guarded, if_neg hn] at hw
    exact .of_answer (a := .frame boundsFailure) (by simp only [unitEdge, hq, hw])

/-- A call inside the outstanding invocation answers, or is ignored; it never stops (R48). -/
theorem unitEdge_cases (call : UnitCall) (s : State) :
    unitEdge Config.params call s = .next s ∨
      (s.leafReq ≠ none ∧ Answers s (unitEdge Config.params call s)) := by
  cases hq : s.leafReq with
  | none => exact .inl (by simp only [unitEdge, hq])
  | some q =>
    -- A unit that takes the sub-buffer as it stands.
    have hword : ∀ {c : Sel} {l : List Byte} {i : Instr}, callWord q call s = .word c l →
        decode c (.bytes l) = .ok i → Answers s (exec i s) →
        Answers s (unitEdge Config.params call s) := fun hw hd h => by
      rwa [unitEdge_eq_exec hq hw hd]
    cases call with
    | rdU8 o =>
      exact .inr ⟨by simp, answers_of_guarded hq rfl fun h => .of_answer (runWord_rdU8 h s)⟩
    | rdBe16 o =>
      exact .inr ⟨by simp, answers_of_guarded hq rfl fun h => .of_answer (runWord_rdBe16 h s)⟩
    | rdBe32 o =>
      exact .inr ⟨by simp, answers_of_guarded hq rfl fun h => .of_answer (runWord_rdBe32 h s)⟩
    | rdBe64 o =>
      exact .inr ⟨by simp, answers_of_guarded hq rfl fun h => .of_answer (runWord_rdBe64 h s)⟩
    | tv o e n =>
      exact .inr ⟨by simp, hword rfl (decodeSub_ok (fitsBuffer_subBuf _ _)) (.of_answer rfl)⟩
    | tlv01 o e =>
      exact .inr ⟨by simp, hword rfl (decodeSub_ok (fitsBuffer_subBuf _ _)) (.of_answer rfl)⟩
    | tlv2 o e =>
      exact .inr ⟨by simp, hword rfl (decodeSub_ok (fitsBuffer_subBuf _ _)) (.of_answer rfl)⟩
    | skip01 o =>
      refine .inr ⟨by simp, hword rfl (decodeSub_ok (fitsBuffer_subBuf _ _)) ?_⟩
      rw [exec, execSkip01, latchForParser_of_called hq]
      exact .of_answer rfl
    | skip2 o =>
      refine .inr ⟨by simp, hword rfl (decodeSub_ok (fitsBuffer_subBuf _ _)) ?_⟩
      rw [exec, execSkip2, latchForParser_of_called hq]
      exact .of_answer rfl
    | bcdDec o n cap =>
      refine .inr ⟨by simp, answers_of_guarded hq rfl fun _ => ?_⟩
      have hd : decode (.bcdDec cap) (.bytes ((subBuf s (s.pc.toNat + o.toNat)).take n)) = .ok _ :=
        decodeSub_ok (fitsBuffer_take_subBuf _ _ _)
      rw [runWord_ok hd]
      exact .of_answer rfl
    | plmnLac o avail =>
      exact .inr ⟨by simp, hword rfl (decodeSub_ok (fitsBuffer_take_subBuf _ _ _))
        (.of_answer rfl)⟩
    | leafImsi =>
      by_cases hd : q.decId = Config.decImsi
      · have hw : callWord q .leafImsi s = .word .leafImsi (subBuf s (s.pc.toNat + (0 : Off).toNat)) :=
          if_pos hd
        exact .inr ⟨by simp, hword hw (decodeSub_ok (fitsBuffer_subBuf _ _)) ⟨_, _, rfl⟩⟩
      · have hw : callWord q .leafImsi s = .ignored := if_neg hd
        exact .inl (by simp only [unitEdge, hq, hw])

/-- An outstanding invocation means `B_CALL` (R24). -/
theorem BlockInv.st_of_leafReq {s : State} (h : BlockInv s) (hq : s.leafReq ≠ none) :
    s.st = .bCall := by
  by_contra hs
  exact hq (h.noRequest hs)

/-- The answer lines are not the invariant's. -/
theorem BlockInv.answer {s : State} (h : BlockInv s) (a : UnitAns) : BlockInv (answer a s) :=
  h.of_frames (.mk' rfl rfl rfl) ⟨rfl, rfl⟩
    ⟨⟨rfl, rfl, rfl, rfl, rfl, rfl, rfl, rfl, rfl, rfl⟩, ⟨rfl, rfl, rfl, rfl, rfl⟩⟩

theorem unitEdge_keeps_inv {s : State} (h : BlockInv s) (call : UnitCall) :
    ∃ t, unitEdge Config.params call s = .next t ∧ BlockInv t := by
  rcases unitEdge_cases call s with hsame | ⟨hq, a, ws, hans⟩
  · exact ⟨s, hsame, h⟩
  · exact ⟨_, hans, (h.writeFields (h.st_of_leafReq hq) ws).answer a⟩

/-! ### Host accesses -/

/-- In IDLE and DONE the host may change BUF and REG, if they stay canonical. -/
theorem BlockInv.of_host_writes {s t : State} (h : BlockInv s) (hb : busy s = false)
    (hbuf : Memory.wf t.buf = true) (hreg : Registry.wf t.reg = true) (hp : SameParserSide s t) :
    BlockInv t := by
  have hs : s.st = .idle ∨ s.st = .done := by
    have := mt (busy_iff s).mpr (by rw [hb]; decide)
    tauto
  obtain ⟨⟨hver, hflags, -, -, -, -, -, hie, hst, hreq⟩, ⟨hmsg, hbody, hval, hres, herr⟩⟩ := hp
  have hne : s.st ≠ .bCall := by rcases hs with hs | hs <;> simp [hs]
  refine .of_quiet (hst ▸ hs) hbuf hreg (hbody ▸ h.bodyCanonical) (hreq ▸ h.noRequest hne) ?_ ?_
  · rw [hst, hval, hres, herr, hmsg, hbody]
    exact h.idleClear
  · rw [hst, hval, hres, herr, hmsg, hbody, successMessage, hmsg, hbody, hver, hie, hflags]
    exact h.doneOutcome

/-- A change of the command registers, the sticky bit and the bus lines keeps the invariant. -/
theorem BlockInv.host_registers {s t : State} (h : BlockInv s)
    (ht : t = { s with cmdResult := t.cmdResult, cmdArg := t.cmdArg, viol := t.viol,
                       inputs := t.inputs, rdata := t.rdata, bodyData := t.bodyData }) :
    BlockInv t := by
  rw [ht]
  exact h.of_frames (.mk' rfl rfl rfl) ⟨rfl, rfl⟩
    ⟨⟨rfl, rfl, rfl, rfl, rfl, rfl, rfl, rfl, rfl, rfl⟩, ⟨rfl, rfl, rfl, rfl, rfl⟩⟩

/-- A write of the register window keeps the invariant (R207). -/
theorem BlockInv.hostRegWrite {s : State} (h : BlockInv s) (off : Off) (v : BitVec 32) :
    BlockInv (hostRegWrite off v s) := by
  unfold Machine.hostRegWrite
  split
  · exact h.host_registers rfl
  · split
    · split
      next => exact h.host_registers rfl
      next hb =>
        exact h.of_host_writes (Bool.eq_false_iff.mpr hb) h.bufCanonical h.regCanonical
          ⟨⟨rfl, rfl, rfl, rfl, rfl, rfl, rfl, rfl, rfl, rfl⟩, ⟨rfl, rfl, rfl, rfl, rfl⟩⟩
    · exact h

/-- A write of the BUF window keeps the invariant (R204, R207). -/
theorem BlockInv.hostBufWrite {s : State} (h : BlockInv s) (a : Off) (v : Byte) :
    BlockInv (hostBufWrite a v s) := by
  unfold Machine.hostBufWrite
  split
  next => exact h.host_registers rfl
  next hb =>
    exact h.of_host_writes (Bool.eq_false_iff.mpr hb) (memory_wf_put h.bufCanonical a v)
      h.regCanonical
      ⟨⟨rfl, rfl, rfl, rfl, rfl, rfl, rfl, rfl, rfl, rfl⟩, ⟨rfl, rfl, rfl, rfl, rfl⟩⟩

theorem BlockInv.hostAccess {s : State} (h : BlockInv s) (a : HostAccess) :
    BlockInv (hostAccess a s) := by
  cases a with
  | regWrite off v => exact h.hostRegWrite off v
  | bufWrite a v => exact h.hostBufWrite a v
  | regRead off => exact h.host_registers rfl
  | bufRead a => exact h.host_registers rfl
  | bodyRead f => exact h.host_registers rfl

/-- INIT keeps the invariant (R201). -/
theorem execInit_keeps_inv {s : State} (h : BlockInv s) :
    ∃ t, exec .initCmd s = .next t ∧ BlockInv t := by
  by_cases hr : busy s = true ∨ s.initDone = true
  · exact ⟨_, (refusedCommandsChangeNothingElse s).1 hr, h.host_registers rfl⟩
  · rw [not_or, Bool.not_eq_true, Bool.not_eq_true] at hr
    obtain ⟨hb, hi⟩ := hr
    exact ⟨_, exec_init_accepted hb hi, h.of_host_writes hb h.bufCanonical initRegistryCells_wf
      ⟨⟨rfl, rfl, rfl, rfl, rfl, rfl, rfl, rfl, rfl, rfl⟩, ⟨rfl, rfl, rfl, rfl, rfl⟩⟩⟩

/-- REGISTER keeps the invariant (R202). -/
theorem execRegister_keeps_inv {s : State} (h : BlockInv s) :
    ∃ t, exec .registerCmd s = .next t ∧ BlockInv t := by
  by_cases hr : busy s = true ∨ s.initDone = false ∨ s.cmdArg.version = 3 ∨ s.cmdArg.decId = 0
  · exact ⟨_, (refusedCommandsChangeNothingElse s).2.1 hr, h.host_registers rfl⟩
  · obtain ⟨hb, hi, hv, hd⟩ : busy s = false ∧ s.initDone = true ∧ s.cmdArg.version ≠ 3 ∧
        s.cmdArg.decId ≠ 0 := by simpa using hr
    obtain ⟨t, ht, -, -, -, hwf, hbuf, hp, -⟩ :=
      registerWritesOneEntry s h.regCanonical hb hi hv hd
    exact ⟨t, ht, h.of_host_writes hb (hbuf.buf ▸ h.bufCanonical) hwf hp⟩

/-- DECODE keeps the invariant (R203). -/
theorem execDecode_keeps_inv {s : State} (h : BlockInv s) :
    ∃ t, exec .decodeCmd s = .next t ∧ BlockInv t := by
  by_cases hr : busy s = true ∨ s.initDone = false
  · exact ⟨_, (refusedCommandsChangeNothingElse s).2.2 hr, h.host_registers rfl⟩
  · rw [not_or, Bool.not_eq_true, Bool.not_eq_false] at hr
    obtain ⟨hb, hi⟩ := hr
    exact ⟨_, exec_decode_accepted hb hi, .of_start rfl h.bufCanonical h.regCanonical hi
      ⟨rfl, rfl, rfl⟩ ⟨rfl, rfl, rfl, rfl⟩ rfl⟩

/-- A command keeps the invariant. -/
theorem exec_cmd_keeps_inv {s : State} (h : BlockInv s) {i : Instr} (hi : selOf i = .cmd) :
    ∃ t, exec i s = .next t ∧ BlockInv t := by
  cases i with
  | initCmd => exact execInit_keeps_inv h
  | registerCmd => exact execRegister_keeps_inv h
  | decodeCmd => exact execDecode_keeps_inv h
  | cmdIllegal op => exact ⟨_, rfl, h.host_registers rfl⟩
  | _ => cases hi

theorem hostEdge_keeps_inv {s : State} (h : BlockInv s) (a : HostAccess) :
    ∃ t, hostEdge Config.params a s = .next t ∧ BlockInv t := by
  unfold hostEdge
  split
  next off v =>
    split
    · obtain ⟨-, hsel, -⟩ := decodeCmdWord_spelled v
      rw [runWord_ok (c := .cmd) (w := .cmd v) rfl]
      exact exec_cmd_keeps_inv h hsel
    · exact ⟨_, rfl, h.hostAccess _⟩
  next => exact ⟨_, rfl, h.hostAccess _⟩

/-! ### Every step -/

/-- Reset establishes the invariant, whatever the state was (R250). -/
theorem blockInv_resetEdge (s : State) : BlockInv (resetEdge s) :=
  .of_quiet (.inl rfl) rfl rfl rfl rfl (fun _ => ⟨rfl, rfl, rfl, rfl, rfl⟩) nofun

/-- Settles O8. -/
theorem resetSatisfiesTheInvariant : Obligations.ResetSatisfiesTheInvariant :=
  .of_quiet (.inl rfl) rfl rfl rfl rfl (fun _ => ⟨rfl, rfl, rfl, rfl, rfl⟩) nofun

/-- Every input at the pins keeps the invariant, and the block goes on. -/
theorem edge_keeps_inv {s : State} (h : BlockInv s) (i : Input) :
    ∃ t, edge Config.params i s = .next t ∧ BlockInv t := by
  cases i with
  | clk => exact parserEdge_keeps_inv h
  | host a => exact hostEdge_keeps_inv h a
  | rst a => exact ⟨_, rfl, blockInv_resetEdge s⟩
  | unitCall c => exact unitEdge_keeps_inv h c
  | leafAnswer =>
    simp only [edge, leafEdge]
    split
    · exact ⟨s, rfl, h⟩
    · exact parserEdge_keeps_inv h

/-- The inputs to come are not the invariant's. -/
theorem BlockInv.nextInput {s : State} (h : BlockInv s) : BlockInv (nextInput s).2 := by
  rw [nextInput_state]
  exact h.host_registers rfl

/-- Settles O9. -/
theorem stepKeepsTheInvariantAndNeverStops : Obligations.StepKeepsTheInvariantAndNeverStops :=
  fun s h => edge_keeps_inv h.nextInput (nextInput s).1

/-! ### The cursor -/

/-- No step of the parser moves the cursor back. -/
theorem ParserStep.cursor {s t : State} (hstep : ParserStep s t) (h : BlockInv s) :
    s.pc.toNat ≤ t.pc.toNat := by
  cases hstep with
  | failed | success | chainEnd | headerEnd | call | unregistered | notMatched => exact Nat.le_refl _
  | flags b hs => rw [(h.atStart hs).1]; exact Nat.zero_le _
  | headerV0 hs hp hl =>
    rw [(h.fixedHeader (.inl hs)).1]
    exact (show 1 ≤ 20 + sndcpBytes _ _ by omega).trans (toNat_ofNat_of_le hl).ge
  | headerV1 hs hp hl =>
    rw [(h.fixedHeader (.inr (.inl hs))).1]
    exact (show 1 ≤ 10 + seqBytes _ _ by omega).trans (toNat_ofNat_of_le hl).ge
  | headerV2 hs hl =>
    rw [(h.fixedHeader (.inr (.inr hs))).1]
    exact (show 1 ≤ 8 + teidBytes _ _ by omega).trans (toNat_ofNat_of_le hl).ge
  | chained hs hl =>
    exact (Nat.le_add_right _ 4).trans (advance_toNat (s := latchLast _ s) hl).ge
  | matched n ws hs h1 hn =>
    have hl : s.pc.toNat + n ≤ s.bufLen.toNat := by
      have := h.cursorInside (by simp [busy, hs])
      unfold remBytes at hn
      omega
    exact (Nat.le_add_right _ n).trans (advance_toNat (s := dropRequest (writeFields ws s)) hl).ge
  | skipped n len hs h3 hl =>
    exact (Nat.le_add_right _ n).trans (advance_toNat (s := latchLength len s) hl).ge

/-- No step of the parser leaves the message. -/
theorem ParserStep.cursor_le {s t : State} (hstep : ParserStep s t) (h : BlockInv s)
    (hb : busy s = true) : t.pc.toNat ≤ t.bufLen.toNat := by
  have ht := hstep.blockInv h
  cases hstep with
  | failed | success => exact h.cursorInside hb
  | flags b hs hl => exact hl
  | headerV0 | headerV1 | chained | chainEnd | headerV2 | headerEnd | call | unregistered | matched
  | notMatched | skipped => exact ht.cursorInside rfl

/-- While BUSY a host access that is no command leaves the cursor and `buf_len` (R207). -/
theorem hostAccess_cursor {s : State} (hb : busy s = true) (a : HostAccess) :
    (hostAccess a s).pc = s.pc ∧ (hostAccess a s).bufLen = s.bufLen := by
  have hm := hostAccess_keeps_memory hb a
  simp only [memorySide, Prod.mk.injEq] at hm
  obtain ⟨-, hlen, -⟩ := hm
  refine ⟨?_, hlen⟩
  cases a with
  | regWrite off v =>
    rw [hostAccess, hostRegWrite]
    split_ifs <;> rfl
  | bufWrite a v => rw [hostAccess, hostBufWrite_busy hb]; rfl
  | regRead off => rfl
  | bufRead a => rfl
  | bodyRead f => rfl

/-- While BUSY a command leaves the cursor and `buf_len`: it is refused. -/
theorem exec_cmd_cursor {i : Instr} (hi : selOf i = .cmd) {s t : State} (hb : busy s = true)
    (h : exec i s = .next t) : t.pc = s.pc ∧ t.bufLen = s.bufLen := by
  have hrefused := refusedCommandsChangeNothingElse s
  cases i with
  | initCmd => rw [hrefused.1 (.inl hb)] at h; cases h; exact ⟨rfl, rfl⟩
  | registerCmd => rw [hrefused.2.1 (.inl hb)] at h; cases h; exact ⟨rfl, rfl⟩
  | decodeCmd => rw [hrefused.2.2 (.inl hb)] at h; cases h; exact ⟨rfl, rfl⟩
  | cmdIllegal op => cases h; exact ⟨rfl, rfl⟩
  | _ => cases hi

theorem hostEdge_cursor {a : HostAccess} {s t : State} (hb : busy s = true)
    (h : hostEdge Config.params a s = .next t) : t.pc = s.pc ∧ t.bufLen = s.bufLen := by
  unfold hostEdge at h
  split at h
  next off v =>
    split at h
    · obtain ⟨-, hsel, -⟩ := decodeCmdWord_spelled v
      rw [runWord_ok (c := .cmd) (w := .cmd v) rfl] at h
      exact exec_cmd_cursor hsel hb h
    · cases h; exact hostAccess_cursor hb _
  next => cases h; exact hostAccess_cursor hb _

/-- The cursor of an edge: not moved back, and inside the message. -/
def CursorKept (s t : State) : Prop := s.pc.toNat ≤ t.pc.toNat ∧ t.pc.toNat ≤ t.bufLen.toNat

theorem parserEdge_cursor {s t : State} (h : BlockInv s) (hb : busy s = true)
    (he : parserEdge Config.params s = .next t) : CursorKept s t := by
  obtain ⟨u, hu, hstep⟩ := parserEdge_steps h hb
  obtain rfl : u = t := by rw [he] at hu; cases hu; rfl
  exact ⟨hstep.cursor h, hstep.cursor_le h hb⟩

/-- In a decode every input but a reset edge keeps the cursor where it is, or moves it on inside the
message. -/
theorem edge_cursor {i : Input} {s t : State} (h : BlockInv s) (hb : busy s = true)
    (hi : ∀ a, i ≠ .rst a) (he : edge Config.params i s = .next t) : CursorKept s t := by
  have hcursor := h.cursorInside hb
  cases i with
  | clk => exact parserEdge_cursor h hb he
  | host a =>
    obtain ⟨hpc, hlen⟩ := hostEdge_cursor hb he
    rw [CursorKept, hpc, hlen]
    exact ⟨Nat.le_refl _, hcursor⟩
  | rst a => exact absurd rfl (hi a)
  | unitCall c =>
    simp only [edge] at he
    rcases unitEdge_cases c s with hsame | ⟨-, a, ws, hans⟩
    · rw [hsame] at he
      cases he
      exact ⟨Nat.le_refl _, hcursor⟩
    · rw [hans] at he
      cases he
      exact ⟨Nat.le_refl _, hcursor⟩
  | leafAnswer =>
    simp only [edge, leafEdge] at he
    split at he
    · cases he; exact ⟨Nat.le_refl _, hcursor⟩
    · exact parserEdge_cursor h hb he

/-- Settles O11. -/
theorem cursorNeverMovesBack : Obligations.CursorNeverMovesBack := by
  intro s t h hb hr hstep
  have hstate := nextInput_state s
  have hkept : CursorKept (nextInput s).2 t :=
    edge_cursor h.nextInput (by rw [hstate]; exact hb) (nextInput_ne_rst hr) hstep
  rwa [hstate] at hkept

end Sys2Proof.Machine
end

section
/-! Progress (R110, R143, R266): how many steps a decode takes, how many turns of the dispatch loop, and how
many BUF bytes the core reads. -/

namespace Sys2Proof.Machine

/-! ### The steps left of a decode -/

/-- The steps a state is away from the fallback of the tag at the cursor. -/
def stage : St → Nat
  | .idle => 0
  | .done => 0
  | .bFallback => 0
  | .bCall => 1
  | .bFetch => 2
  | .hEnd => 3
  | .h0 => 4
  | .h2 => 4
  | .h1Ext => 4
  | .h1 => 5
  | .hFlags => 6

/-- A bound on the steps left: three for each byte left, since every turn of the loop and of the extension
walk consumes one (R143). -/
def stepsLeft (s : State) : Nat := if busy s then 3 * remBytes s + stage s.st else 0

theorem stepsLeft_of_busy {s : State} (h : busy s = true) :
    stepsLeft s = 3 * remBytes s + stage s.st := if_pos h

/-- In a decode a step is left. -/
theorem stepsLeft_pos {s : State} (h : BlockInv s) (hb : busy s = true) : 0 < stepsLeft s := by
  rw [stepsLeft_of_busy hb]
  by_cases hs : s.st = .bFallback
  · obtain ⟨hl, -⟩ := h.tagAtCursor (by simp [tagPending, hs])
    unfold remBytes
    omega
  · obtain ⟨hidle, hdone⟩ := (busy_iff s).mp hb
    have : 0 < stage s.st := by
      cases hst : s.st <;> simp_all [stage]
    omega

/-- The parser leaves the host's side alone (R48). -/
theorem ParserStep.sameHostSide {s t : State} (h : ParserStep s t) : SameHostSide s t := by
  cases h <;> exact .of rfl rfl rfl rfl rfl rfl rfl rfl rfl rfl rfl rfl

/-- A header state is BUSY (R20). -/
theorem inHeaderState.ne {x : St} (h : inHeaderState x) : x ≠ .idle ∧ x ≠ .done := by
  rcases h with rfl | rfl | rfl | rfl | rfl <;> decide

/-- The parser never goes back to IDLE (R20). -/
theorem ParserStep.st_ne_idle {s t : State} (h : ParserStep s t) : t.st ≠ .idle := by
  cases h with
  | flags b hs hl hbyte hv => exact (headerState_of_version hv).1.ne.1
  | failed | headerV0 | headerV1 | chained | chainEnd | headerV2 | headerEnd | success | call
  | unregistered | matched | notMatched | skipped => nofun

/-- A parser step leaves no more bytes. -/
theorem ParserStep.remBytes_le {s t : State} (hstep : ParserStep s t) (h : BlockInv s) :
    remBytes t ≤ remBytes s := by
  have hpc := hstep.cursor h
  rw [remBytes, remBytes, hstep.sameHostSide.buffer.bufLen]
  omega

/-- A cursor moved by `n` bytes has `n` bytes fewer behind it. -/
theorem remBytes_advance {s : State} {n : Nat} (hl : s.pc.toNat + n ≤ s.bufLen.toNat) :
    remBytes (advance n s) + n = remBytes s := by
  rw [remBytes, remBytes, advance_toNat hl, advance_bufLen]
  omega

/-- The bytes left do not depend on the state of the sequencer. -/
theorem remBytes_goto (x : St) (s : State) : remBytes (goto x s) = remBytes s := rfl

/-- Every step of the parser is one of those left. -/
theorem ParserStep.stepsLeft_lt {s t : State} (hstep : ParserStep s t) (h : BlockInv s)
    (hb : busy s = true) : stepsLeft t < stepsLeft s := by
  have hrem := hstep.remBytes_le h
  have hcount : 3 * remBytes t + stage t.st < 3 * remBytes s + stage s.st →
      stepsLeft t < stepsLeft s := fun hlt => by
    rw [stepsLeft_of_busy hb, stepsLeft]
    split
    · exact hlt
    · omega
  cases hstep with
  | failed | success => exact stepsLeft_pos h hb
  | flags b hs hl hbyte hv =>
    refine hcount ?_
    have hstage : ∀ x, inHeaderState x → stage x < stage .hFlags := by
      rintro x (rfl | rfl | rfl | rfl | rfl) <;> decide
    have := hstage _ (headerState_of_version hv).1
    rw [hs]
    exact Nat.add_lt_add_of_le_of_lt (Nat.mul_le_mul_left 3 hrem) this
  | headerV0 hs | headerV1 hs | chainEnd hs | headerV2 hs | headerEnd hs | call _ hs
  | unregistered _ hs | notMatched _ hs =>
    refine hcount ?_
    rw [hs]
    exact Nat.add_lt_add_of_le_of_lt (Nat.mul_le_mul_left 3 hrem)
      (of_decide_eq_true rfl)
  | chained hs hl =>
    have hbytes : remBytes (advance 4 (latchLast (bufByte s (s.pc.toNat + 3)) s)) + 4 =
        remBytes s := remBytes_advance hl
    refine hcount ?_
    rw [hs]
    simp only [remBytes_goto, goto_st, stage]
    omega
  | matched n ws hs h1 hn =>
    have hl : s.pc.toNat + n ≤ s.bufLen.toNat := by
      have := h.cursorInside hb
      unfold remBytes at hn
      omega
    have hbytes : remBytes (advance n (dropRequest (writeFields ws s))) + n = remBytes s :=
      remBytes_advance hl
    refine hcount ?_
    rw [hs]
    simp only [remBytes_goto, goto_st, stage]
    omega
  | skipped n len hs h3 hl =>
    have hbytes : remBytes (advance n (latchLength len s)) + n = remBytes s := remBytes_advance hl
    refine hcount ?_
    rw [hs]
    simp only [remBytes_goto, goto_st, stage]
    omega

/-! ### Runs with nothing at the pins -/

/-- With nothing at the pins a step of a decode is the parser's, and nothing is at the pins after it. -/
theorem step_quiet_steps {s : State} (h : BlockInv s) (hb : busy s = true) (hi : s.inputs = []) :
    ∃ t, step s = .next t ∧ ParserStep s t ∧ BlockInv t ∧ t.inputs = [] := by
  obtain ⟨t, ht, hstep⟩ := parserEdge_steps h hb
  exact ⟨t, (step_quiet hi).trans ht, hstep, hstep.blockInv h,
    hstep.sameHostSide.bus.inputs.trans hi⟩

/-- What a parser step leaves is BUSY or DONE. -/
theorem ParserStep.busy_or_done {s t : State} (h : ParserStep s t) : busy t = true ∨ t.st = .done := by
  have := h.st_ne_idle
  rw [busy_iff]
  tauto

/-- A decode reaches DONE within the steps it has left (R143). -/
theorem runSteps_reaches_done (n : Nat) {s : State} (h : BlockInv s) (hi : s.inputs = [])
    (hs : busy s = true ∨ s.st = .done) (hn : stepsLeft s ≤ n) :
    ∃ t, runSteps n s = .next t ∧ t.st = .done := by
  induction n generalizing s with
  | zero =>
    rcases hs with hb | hd
    · exact absurd hn (Nat.not_le.mpr (stepsLeft_pos h hb))
    · exact ⟨s, rfl, hd⟩
  | succ n ih =>
    rcases hs with hb | hd
    · obtain ⟨t, ht, hstep, hinv, hin⟩ := step_quiet_steps h hb hi
      have hlt := hstep.stepsLeft_lt h hb
      rw [runSteps_succ n ht]
      exact ih hinv hin hstep.busy_or_done (by omega)
    · exact ⟨s, runSteps_done hi hd _, hd⟩

/-- No decode has more than `3 * buf_len + 6` steps left. -/
theorem stepsLeft_le (s : State) : stepsLeft s ≤ 3 * s.bufLen.toNat + 6 := by
  have hstage : stage s.st ≤ 6 := by cases s.st <;> decide
  unfold stepsLeft remBytes
  split <;> omega

/-! ### The reads of a parser step -/

/-- The bytes that the lines of a rule consume. -/
def widths (ls : List HeaderLine) : Nat := (ls.map HeaderLine.width).sum

/-- Lines read no more bytes than they consume. -/
theorem linesReads_length_le_widths {bufLen : Nat} {ls : List HeaderLine} (hl : .lastByte 0 ∉ ls) :
    ∀ pc, (linesReads bufLen pc ls).length ≤ widths ls := by
  induction ls with
  | nil => exact fun _ => Nat.le_refl _
  | cons l r ih =>
    intro pc
    obtain ⟨hne, hr⟩ := not_or.mp (mt List.mem_cons.mpr hl)
    by_cases hf : bufLen < pc + l.width
    · rw [linesReads_short r hf]
      exact Nat.zero_le _
    · have hline := HeaderLine.reads_length pc (Ne.symm hne)
      have hrest := ih hr (pc + l.width)
      rw [linesReads_fits r (by omega), List.length_append]
      simp only [widths, List.map_cons, List.sum_cons] at hrest ⊢
      omega

theorem lastByte_zero_notMem_headerV0Lines (p : Params) (flags : Byte) :
    HeaderLine.lastByte 0 ∉ headerV0Lines p flags := by
  unfold headerV0Lines
  split <;> simp

theorem lastByte_zero_notMem_headerV1Lines (p : Params) (flags : Byte) :
    HeaderLine.lastByte 0 ∉ headerV1Lines p flags := by
  unfold headerV1Lines
  split_ifs <;> simp

theorem lastByte_zero_notMem_headerV1ExtLines (m : Byte) :
    HeaderLine.lastByte 0 ∉ headerV1ExtLines Config.params m := by
  unfold headerV1ExtLines
  split <;> simp [Config.params]

theorem lastByte_zero_notMem_headerV2Lines (p : Params) (flags : Byte) (framed : Bool) :
    HeaderLine.lastByte 0 ∉ headerV2Lines p flags framed := by
  unfold headerV2Lines
  split_ifs <;> simp

theorem widths_headerV0Lines (p : Params) (flags : Byte) :
    widths (headerV0Lines p flags) ≤ 19 + sndcpBytes p flags := by
  unfold headerV0Lines
  split
  · simp [widths, HeaderLine.width, sndcpBytes]; omega
  · exact Nat.zero_le _

theorem widths_headerV1Lines (p : Params) (flags : Byte) :
    widths (headerV1Lines p flags) ≤ 9 + seqBytes p flags := by
  unfold headerV1Lines seqBytes
  split_ifs <;> simp [widths, HeaderLine.width]

theorem widths_headerV1ExtLines (m : Byte) : widths (headerV1ExtLines Config.params m) ≤ 4 := by
  unfold headerV1ExtLines
  split <;> simp [widths, HeaderLine.width, Config.params]

theorem widths_headerV2Lines (p : Params) (flags : Byte) (framed : Bool) :
    widths (headerV2Lines p flags framed) ≤ 7 + teidBytes p flags := by
  unfold headerV2Lines teidBytes
  split_ifs <;> simp [widths, HeaderLine.width]

/-- The end of the bytes a step may read: where the cursor goes, or the end of the message where the
decode ends. -/
def readsEnd (t : State) : Nat := if busy t then t.pc.toNat else t.bufLen.toNat

section
variable {s : State}

/-- In the header the core reads nothing beyond the message (R46). -/
theorem header_reads_inside (h : BlockInv s) (hb : busy s = true)
    (hh : s.st = .hFlags ∨ inHeaderState s.st) :
    s.pc.toNat + (parserReads Config.params s).length ≤ s.bufLen.toNat := by
  have hcursor := h.cursorInside hb
  rcases hh with hs | hs | hs | hs | hs | hs
  · have hpc : s.pc.toNat = 0 := by rw [(h.atStart hs).1]; rfl
    simp only [parserReads, hs]
    split
    · rw [byteReads_length]; omega
    · exact hcursor
  · simpa only [parserReads, hs] using
      linesReads_length (lastByte_zero_notMem_headerV0Lines _ _) hcursor
  · simpa only [parserReads, hs] using
      linesReads_length (lastByte_zero_notMem_headerV1Lines _ _) hcursor
  · simpa only [parserReads, hs] using
      linesReads_length (lastByte_zero_notMem_headerV1ExtLines _) hcursor
  · simpa only [parserReads, hs] using
      linesReads_length (lastByte_zero_notMem_headerV2Lines _ _ _) hcursor
  · simp only [parserReads, hs]
    exact hcursor

/-- HDR.V0 reads no more than its header. -/
theorem reads_h0 (hs : s.st = .h0) :
    (parserReads Config.params s).length ≤ 19 + sndcpBytes Config.params s.flags := by
  simpa only [parserReads, hs] using (linesReads_length_le_widths
    (lastByte_zero_notMem_headerV0Lines _ _) _).trans (widths_headerV0Lines _ _)

theorem reads_h1 (hs : s.st = .h1) :
    (parserReads Config.params s).length ≤ 9 + seqBytes Config.params s.flags := by
  simpa only [parserReads, hs] using (linesReads_length_le_widths
    (lastByte_zero_notMem_headerV1Lines _ _) _).trans (widths_headerV1Lines _ _)

theorem reads_h1Ext (hs : s.st = .h1Ext) : (parserReads Config.params s).length ≤ 4 := by
  simpa only [parserReads, hs] using (linesReads_length_le_widths
    (lastByte_zero_notMem_headerV1ExtLines _) _).trans (widths_headerV1ExtLines _)

theorem reads_h2 (hs : s.st = .h2) :
    (parserReads Config.params s).length ≤ 7 + teidBytes Config.params s.flags := by
  simpa only [parserReads, hs] using (linesReads_length_le_widths
    (lastByte_zero_notMem_headerV2Lines _ _ _) _).trans (widths_headerV2Lines _ _ _)

/-- The end of the extension walk reads nothing (R104). -/
theorem reads_h1Ext_end (hs : s.st = .h1Ext) (hm : s.last ≠ 0x02) :
    parserReads Config.params s = [] := by
  have hlines : headerV1ExtLines Config.params s.last = [] := if_neg hm
  simp only [parserReads, hs, hlines, linesReads]

/-- In the header the core reads each byte once at most: a step reads no more bytes than it moves the
cursor by, or than the message has left where it ends the decode (R266 (4)). -/
theorem ParserStep.header_reads {t : State} (hstep : ParserStep s t) (h : BlockInv s)
    (hb : busy s = true) (hh : s.st = .hFlags ∨ inHeaderState s.st) :
    s.pc.toNat + (parserReads Config.params s).length ≤ readsEnd t := by
  have hinside := header_reads_inside h hb hh
  have hno : ∀ x, s.st = x → ¬ (x = .hFlags ∨ inHeaderState x) → False := fun x hx hn =>
    hn (hx ▸ hh)
  unfold inHeaderState at hno
  cases hstep with
  | failed e => exact hinside
  | flags b hs hl hbyte hv =>
    have hpc : s.pc.toNat = 0 := by rw [(h.atStart hs).1]; rfl
    have hbt : busy (goto (if versionBits b = 0 then .h0 else if versionBits b = 1 then .h1 else .h2)
        (latchByte0 b s)) = true := (busy_iff _).mpr (headerState_of_version hv).1.ne
    simp only [readsEnd, hbt, if_true, parserReads, hs, if_pos hl, byteReads_length, hpc]
    exact Nat.le_refl 1
  | headerV0 hs hp hl =>
    have hpc : s.pc.toNat = 1 := by rw [(h.fixedHeader (.inl hs)).1]; rfl
    have := reads_h0 hs
    exact (show _ ≤ 20 + sndcpBytes Config.params s.flags by omega).trans (toNat_ofNat_of_le hl).ge
  | headerV1 hs hp hl =>
    have hpc : s.pc.toNat = 1 := by rw [(h.fixedHeader (.inr (.inl hs))).1]; rfl
    have := reads_h1 hs
    exact (show _ ≤ 10 + seqBytes Config.params s.flags by omega).trans (toNat_ofNat_of_le hl).ge
  | headerV2 hs hl =>
    have hpc : s.pc.toNat = 1 := by rw [(h.fixedHeader (.inr (.inr hs))).1]; rfl
    have := reads_h2 hs
    exact (show _ ≤ 8 + teidBytes Config.params s.flags by omega).trans (toNat_ofNat_of_le hl).ge
  | chained hs hl =>
    have := reads_h1Ext hs
    exact (show _ ≤ s.pc.toNat + 4 by omega).trans (advance_toNat (s := latchLast _ s) hl).ge
  | chainEnd hs hm =>
    rw [reads_h1Ext_end hs hm]
    exact Nat.le_refl _
  | headerEnd hs =>
    simp only [parserReads, hs]
    exact Nat.le_refl _
  | success hs | call _ hs | unregistered _ hs | matched _ _ hs | notMatched _ hs | skipped _ _ hs =>
    exact (hno _ hs (by decide)).elim

end

/-! ### The header phase with nothing at the pins -/

/-- The steps a header state is away from the body (R110). -/
def headerCost (s : State) : Nat :=
  match s.st with
  | .hFlags => if versionBits (wordAt s 0) = 1 then 4 + (s.bufLen.toNat - 10) / 4 else 3
  | .h0 => 2
  | .h1 => 3 + (s.bufLen.toNat - 10) / 4
  | .h1Ext => 2 + remBytes s / 4
  | .h2 => 2
  | .hEnd => 1
  | _ => 0

theorem headerCost_of_hEnd {s : State} (hs : s.st = .hEnd) : headerCost s = 1 := by
  simp only [headerCost, hs]

theorem headerCost_pos {s : State} (hh : s.st = .hFlags ∨ inHeaderState s.st) : 0 < headerCost s := by
  unfold headerCost
  rcases hh with hs | hs | hs | hs | hs | hs <;> simp only [hs]
  · split_ifs <;> omega
  all_goals omega

/-- A header step ends the header phase, or takes one of the steps it is away from the body. -/
theorem ParserStep.headerCost_lt {s t : State} (hstep : ParserStep s t)
    (hh : s.st = .hFlags ∨ inHeaderState s.st) :
    t.st = .bFetch ∨ t.st = .done ∨ (inHeaderState t.st ∧ headerCost t < headerCost s) := by
  have hno : ∀ x, s.st = x → ¬ (x = .hFlags ∨ inHeaderState x) → False := fun x hx hn =>
    hn (hx ▸ hh)
  unfold inHeaderState at hno
  cases hstep with
  | failed | success => exact .inr (.inl rfl)
  | headerEnd => exact .inl rfl
  | flags b hs hl hbyte hv =>
    refine .inr (.inr ⟨(headerState_of_version hv).1, ?_⟩)
    have hword : wordAt s 0 = b := by rw [wordAt, if_pos hl, hbyte]
    simp only [headerCost, hs, hword, goto_st, goto_bufLen, latchByte0_bufLen]
    split_ifs <;> simp_all
  | headerV0 hs =>
    refine .inr (.inr ⟨.inr (.inr (.inr (.inr rfl))), ?_⟩)
    rw [headerCost_of_hEnd rfl, headerCost, hs]
    exact Nat.lt_succ_self 1
  | headerV2 hs =>
    refine .inr (.inr ⟨.inr (.inr (.inr (.inr rfl))), ?_⟩)
    rw [headerCost_of_hEnd rfl, headerCost, hs]
    exact Nat.lt_succ_self 1
  | headerV1 hs hp hl =>
    refine .inr (.inr ⟨.inr (.inr (.inl rfl)), ?_⟩)
    have hrem : remBytes (storedV1 Config.params s.flags s) ≤ s.bufLen.toNat - 10 := by
      have : (storedV1 Config.params s.flags s).pc.toNat = _ := toNat_ofNat_of_le hl
      rw [remBytes, this]
      exact Nat.sub_le_sub_left (Nat.le_add_right 10 _) _
    have hst : (storedV1 Config.params s.flags s).st = .h1Ext := rfl
    simp only [headerCost, hs, hst]
    omega
  | chained hs hl =>
    refine .inr (.inr ⟨.inr (.inr (.inl rfl)), ?_⟩)
    have hbytes : remBytes (advance 4 (latchLast (bufByte s (s.pc.toNat + 3)) s)) + 4 =
        remBytes s := remBytes_advance hl
    simp only [headerCost, hs, goto_st, remBytes_goto]
    omega
  | chainEnd hs hm =>
    refine .inr (.inr ⟨.inr (.inr (.inr (.inr rfl))), ?_⟩)
    simp only [headerCost, hs, goto_st]
    omega
  | call _ hs | unregistered _ hs | matched _ _ hs | notMatched _ hs | skipped _ _ hs =>
    exact (hno _ hs (by decide)).elim

/-- What a run of the header phase reads in one step more. -/
theorem readsIn_succ_quiet {s t : State} (k : Nat) (hi : s.inputs = []) (ht : step s = .next t) :
    readsIn (k + 1) s = (parserReads Config.params s).length + readsIn k t := by
  rw [readsIn, sumSteps_succ _ k ht, coreReads_quiet hi]
  rfl

/-- The header phase ends within `headerCost` steps and reads each byte left once at most. -/
theorem header_ends {s : State} (h : BlockInv s) (hi : s.inputs = [])
    (hh : s.st = .hFlags ∨ inHeaderState s.st) :
    ∃ k t, k ≤ headerCost s ∧ runSteps k s = .next t ∧ (t.st = .bFetch ∨ t.st = .done) ∧
      s.pc.toNat + readsIn k s ≤ s.bufLen.toNat := by
  induction hn : headerCost s using Nat.strong_induction_on generalizing s with
  | _ n ih =>
  subst hn
  have hb : busy s = true := by
    rw [busy_iff]
    rcases hh with hs | hs
    · simp [hs]
    · exact hs.ne
  obtain ⟨t, ht, hstep, hinv, hin⟩ := step_quiet_steps h hb hi
  have hreads := hstep.header_reads h hb hh
  have hlen := hstep.sameHostSide.buffer.bufLen
  -- The phase ends with this step, or goes on.
  by_cases hend : t.st = .bFetch ∨ t.st = .done
  · have hreadsEnd : readsEnd t ≤ s.bufLen.toNat := by
      rw [readsEnd, ← hlen]
      split
      next hbt => exact hinv.cursorInside hbt
      next => exact Nat.le_refl _
    refine ⟨1, t, headerCost_pos hh, (runSteps_one s).trans ht, hend, ?_⟩
    rw [readsIn_succ_quiet 0 hi ht]
    exact hreads.trans hreadsEnd
  · obtain ⟨hht, hlt⟩ : inHeaderState t.st ∧ headerCost t < headerCost s := by
      rcases hstep.headerCost_lt hh with hx | hx | hx
      · exact absurd (.inl hx) hend
      · exact absurd (.inr hx) hend
      · exact hx
    obtain ⟨k, u, hk, hrun, hu, hread⟩ := ih _ hlt hinv hin (.inr hht) rfl
    refine ⟨k + 1, u, by omega, (runSteps_succ k ht).trans hrun, hu, ?_⟩
    rw [readsEnd, if_pos ((busy_iff t).mpr hht.ne)] at hreads
    rw [readsIn_succ_quiet k hi ht]
    rw [hlen] at hread
    omega

/-- Settles O14: from `H_FLAGS` the cost is the bound of R110, and the cursor is at 0. -/
theorem headerEndsWithinItsBound : Obligations.HeaderEndsWithinItsBound := by
  intro s h hs hi
  obtain ⟨k, t, hk, hrun, ht, hreads⟩ := header_ends h hi (.inl hs)
  have hcost : headerCost s =
      if versionBits (wordAt s 0) = 1 then 4 + (s.bufLen.toNat - 10) / 4 else 3 := by
    simp only [headerCost, hs]
  exact ⟨k, t, hcost ▸ hk, hrun, ht, (Nat.le_add_left _ _).trans hreads⟩

/-! ### Runs with the host away -/

/-- A step with the host away: the parser's, or a wait in which a leaf decoder may call a unit. -/
inductive AwayStep (s t : State) : Prop
  | moved (hm : parserMoves s = true) (hb : busy s = true) (h : ParserStep (nextInput s).2 t)
  | waited (hr : coreReads Config.params s = []) (ht : turnBegins s = false)
      (hsame : t.st = s.st ∧ t.pc = s.pc ∧ t.bufLen = s.bufLen ∧ t.ieOff = s.ieOff)

/-- Where the parser does not move, or is quiescent, nothing is read and no turn begins. -/
theorem AwayStep.of_wait {s t : State} (hm : parserMoves s = false ∨ s.st = .done)
    (hsame : t.st = s.st ∧ t.pc = s.pc ∧ t.bufLen = s.bufLen ∧ t.ieOff = s.ieOff) :
    AwayStep s t := by
  have hr : coreReads Config.params s = [] := by
    rcases hm with hm | hs
    · rw [coreReads, hm, if_neg Bool.false_ne_true]
    · simp only [coreReads, parserReads, hs, ite_self]
  have ht : turnBegins s = false := by
    rw [Bool.eq_false_iff, Ne, turnBegins_iff]
    rintro ⟨hmoves, hfetch, -⟩
    rcases hm with hm | hs
    · exact Bool.false_ne_true (hm.symm.trans hmoves)
    · cases hs.symm.trans hfetch
  exact .waited hr ht hsame

/-- The parser's edge in a decode with the host away. -/
theorem awayStep_of_parserEdge {s : State} (h : BlockInv s) (hs : busy s = true ∨ s.st = .done)
    (hm : parserMoves s = true) : ∃ t, parserEdge Config.params (nextInput s).2 = .next t ∧
      t.inputs = s.inputs.tail ∧ AwayStep s t := by
  have hstate := nextInput_state s
  have hin : (nextInput s).2.inputs = s.inputs.tail := by rw [hstate]
  rcases hs with hb | hd
  · obtain ⟨t, ht, hstep⟩ := parserEdge_steps h.nextInput (by rw [hstate]; exact hb)
    exact ⟨t, ht, hstep.sameHostSide.bus.inputs.trans hin, .moved hm hb hstep⟩
  · refine ⟨_, parserEdge_quiet (.inr (by rw [hstate]; exact hd)), hin, .of_wait (.inr hd) ?_⟩
    rw [hstate]
    exact ⟨rfl, rfl, rfl, rfl⟩

/-- With the host away a decode takes a step of the parser or waits, and the host stays away. -/
theorem away_step {s : State} (h : BlockInv s) (hi : hostAway s)
    (hs : busy s = true ∨ s.st = .done) :
    ∃ t, step s = .next t ∧ BlockInv t ∧ hostAway t ∧ AwayStep s t := by
  have hstate := nextInput_state s
  have hnext : (nextInput s).1 = .clk ∨ (nextInput s).1 = .leafAnswer ∨
      ∃ call, (nextInput s).1 = .unitCall call := by
    unfold nextInput
    split
    next => exact .inl rfl
    next i r hin => exact hi i (by rw [hin]; exact List.mem_cons_self)
  have hsuffices : (∃ t, edge Config.params (nextInput s).1 (nextInput s).2 = .next t ∧
      t.inputs = s.inputs.tail ∧ AwayStep s t) →
      ∃ t, step s = .next t ∧ BlockInv t ∧ hostAway t ∧ AwayStep s t := by
    rintro ⟨t, ht, hin, hstep⟩
    obtain ⟨u, hu, hinv⟩ := edge_keeps_inv h.nextInput (nextInput s).1
    obtain rfl : u = t := by rw [ht] at hu; cases hu; rfl
    exact ⟨u, ht, hinv, fun i hmem => hi i (List.mem_of_mem_tail (hin ▸ hmem)), hstep⟩
  refine hsuffices ?_
  rcases hnext with hn | hn | ⟨call, hn⟩
  · rw [hn]
    exact awayStep_of_parserEdge h hs (by simp only [parserMoves, hn])
  · rw [hn]
    cases hq : s.leafReq with
    | none =>
      have hidle : edge Config.params .leafAnswer (nextInput s).2 = .next (nextInput s).2 := by
        simp only [edge, leafEdge, hstate, hq]
      refine ⟨_, hidle, by rw [hstate], .of_wait (.inl (by simp [parserMoves, hn, hq])) ?_⟩
      rw [hstate]
      exact ⟨rfl, rfl, rfl, rfl⟩
    | some q =>
      have hedge : edge Config.params .leafAnswer (nextInput s).2 =
          parserEdge Config.params (nextInput s).2 := by
        simp only [edge, leafEdge, hstate, hq]
      rw [hedge]
      exact awayStep_of_parserEdge h hs (by simp [parserMoves, hn, hq])
  · have hm : parserMoves s = false := by simp only [parserMoves, hn]
    rw [hn, hstate]
    rcases unitEdge_cases call { s with inputs := s.inputs.tail } with hsame | ⟨-, a, ws, hans⟩
    · exact ⟨_, hsame, rfl, .of_wait (.inl hm) ⟨rfl, rfl, rfl, rfl⟩⟩
    · exact ⟨_, hans, rfl, .of_wait (.inl hm) ⟨rfl, rfl, rfl, rfl⟩⟩

/-- The BUF bytes the core may read before the next turn: the bytes left in the header, the length field
of a generic skip in a turn. -/
def readsLeft (s : State) : Nat :=
  match s.st with
  | .idle => 0
  | .done => 0
  | .bFetch => 0
  | .bCall => 2
  | .bFallback => 2
  | .hFlags => remBytes s
  | .h0 => remBytes s
  | .h1 => remBytes s
  | .h1Ext => remBytes s
  | .h2 => remBytes s
  | .hEnd => remBytes s

/-- The turns of the loop that a body state has left: each consumes a byte (R143). -/
def turnsLeft (s : State) : Nat :=
  match s.st with
  | .bFetch => remBytes s
  | .bCall => remBytes s - 1
  | .bFallback => remBytes s - 1
  | _ => 0

/-- The turn that a parser step begins. -/
def turn (s : State) : Nat := if s.st = .bFetch ∧ s.pc.toNat < s.bufLen.toNat then 1 else 0

section
variable {s t : State}

theorem readsLeft_of_header (hh : s.st = .hFlags ∨ inHeaderState s.st) :
    readsLeft s = remBytes s := by
  rcases hh with hs | hs | hs | hs | hs | hs <;> simp only [readsLeft, hs]

theorem skipReads_length_le (s : State) : (skipReads s).length ≤ 2 := by
  unfold skipReads
  split
  · exact Nat.zero_le _
  · exact (byteReads_length _ _).le

/-- A header step reads what it no longer has left to read. -/
theorem ParserStep.header_readsLeft (hstep : ParserStep s t) (h : BlockInv s) (hb : busy s = true)
    (hh : s.st = .hFlags ∨ inHeaderState s.st) :
    (parserReads Config.params s).length + readsLeft t ≤ readsLeft s := by
  have hreads := hstep.header_reads h hb hh
  have hinside := header_reads_inside h hb hh
  have hlen := hstep.sameHostSide.buffer.bufLen
  rw [readsLeft_of_header hh, remBytes]
  rcases hstep.headerCost_lt hh with hx | hx | ⟨hx, -⟩
  · simp only [readsLeft, hx]
    omega
  · simp only [readsLeft, hx]
    omega
  · have hcursor := (hstep.blockInv h).cursorInside ((busy_iff t).mpr hx.ne)
    rw [readsEnd, if_pos ((busy_iff t).mpr hx.ne)] at hreads
    rw [readsLeft_of_header (.inr hx), remBytes, hlen]
    rw [hlen] at hcursor
    omega

/-- A BUSY state is a header state or a body state. -/
theorem header_or_body (hb : busy s = true) : (s.st = .hFlags ∨ inHeaderState s.st) ∨
    s.st = .bFetch ∨ s.st = .bCall ∨ s.st = .bFallback := by
  obtain ⟨hidle, hdone⟩ := (busy_iff s).mp hb
  unfold inHeaderState
  cases hs : s.st <;> simp_all

/-- Every turn pays for the reads of its steps: the tag and the length field of a generic skip. -/
theorem ParserStep.reads_le (hstep : ParserStep s t) (h : BlockInv s) (hb : busy s = true) :
    (parserReads Config.params s).length + readsLeft t ≤ 3 * turn s + readsLeft s := by
  rcases header_or_body hb with hh | hbody
  · have := hstep.header_readsLeft h hb hh
    omega
  have hfetch : s.st = .bFetch → (parserReads Config.params s).length = turn s := by
    intro hs
    simp only [parserReads, turn, hs, true_and]
    split
    · exact byteReads_length _ _
    · rfl
  have hcall : s.st = .bCall → (parserReads Config.params s).length = 0 := fun hs => by
    simp only [parserReads, hs, List.length_nil]
  have hfallback : s.st = .bFallback → (parserReads Config.params s).length ≤ 2 := by
    intro hs
    simp only [parserReads, hs]
    split
    · exact skipReads_length_le s
    · exact Nat.zero_le _
  have hturn : s.st = .bFetch → s.pc.toNat < s.bufLen.toNat → turn s = 1 := fun hs hl => if_pos ⟨hs, hl⟩
  have hno : ∀ x, s.st = x → ¬ (x = .bFetch ∨ x = .bCall ∨ x = .bFallback) → False :=
    fun x hx hn => hn (hx ▸ hbody)
  cases hstep with
  | failed e =>
    rcases hbody with hs | hs | hs
    · have hzero : readsLeft (raise e s) = 0 := rfl
      have := hfetch hs
      omega
    · exact (hcall hs ▸ Nat.zero_le _ : (parserReads Config.params s).length + 0 ≤ _)
    · have hleft : readsLeft s = 2 := by simp only [readsLeft, hs]
      have hzero : readsLeft (raise e s) = 0 := rfl
      have := hfallback hs
      omega
  | success hs =>
    have hzero : readsLeft (finishSuccess s) = 0 := rfl
    have := hfetch hs
    omega
  | call g hs hl =>
    have hone : readsLeft (goto .bCall (postRequest (leafRequest g s) (latchTag g s))) = 2 := rfl
    have := hfetch hs
    have := hturn hs hl
    omega
  | unregistered g hs hl =>
    have htwo : readsLeft (goto .bFallback (latchTag g s)) = 2 := rfl
    have := hfetch hs
    have := hturn hs hl
    omega
  | matched n ws hs =>
    have hzero : readsLeft (goto .bFetch (advance n (dropRequest (writeFields ws s)))) = 0 := rfl
    have := hcall hs
    omega
  | notMatched ws hs =>
    have htwo : readsLeft (goto .bFallback (dropRequest (writeFields ws s))) = 2 := rfl
    have hleft : readsLeft s = 2 := by simp only [readsLeft, hs]
    have := hcall hs
    omega
  | skipped n len hs =>
    have hzero : readsLeft (goto .bFetch (advance n (latchLength len s))) = 0 := rfl
    have hleft : readsLeft s = 2 := by simp only [readsLeft, hs]
    have := hfallback hs
    omega
  | flags _ hs | headerV0 hs | headerV1 hs | chained hs | chainEnd hs | headerV2 hs
  | headerEnd hs => exact (hno _ hs (by decide)).elim

/-- In the body a turn is one of those left, and `ie_off` stays (R143). -/
theorem ParserStep.turns_le (hstep : ParserStep s t) (h : BlockInv s) (hb : busy s = true)
    (hbody : s.st = .bFetch ∨ s.st = .bCall ∨ s.st = .bFallback) :
    turn s + turnsLeft t ≤ turnsLeft s ∧ t.ieOff = s.ieOff := by
  have hcursor := h.cursorInside hb
  have hfetch : s.st = .bFetch → turn s ≤ 1 ∧ turn s ≤ turnsLeft s := by
    intro hs
    simp only [turn, turnsLeft, hs, true_and, remBytes]
    split <;> omega
  have hother : s.st ≠ .bFetch → turn s = 0 := fun hs => if_neg fun hx => hs hx.1
  have hno : ∀ x, s.st = x → ¬ (x = .bFetch ∨ x = .bCall ∨ x = .bFallback) → False :=
    fun x hx hn => hn (hx ▸ hbody)
  cases hstep with
  | failed e =>
    refine ⟨?_, rfl⟩
    by_cases hs : s.st = .bFetch
    · exact (hfetch hs).2
    · rw [hother hs]
      exact Nat.zero_le _
  | success hs => exact ⟨(hfetch hs).2, rfl⟩
  | call g hs hl =>
    have hleft : turnsLeft (goto .bCall (postRequest (leafRequest g s) (latchTag g s))) =
        remBytes s - 1 := rfl
    have hfull : turnsLeft s = remBytes s := by simp only [turnsLeft, hs]
    have := hfetch hs
    refine ⟨?_, rfl⟩
    rw [remBytes] at *
    omega
  | unregistered g hs hl =>
    have hleft : turnsLeft (goto .bFallback (latchTag g s)) = remBytes s - 1 := rfl
    have hfull : turnsLeft s = remBytes s := by simp only [turnsLeft, hs]
    have := hfetch hs
    refine ⟨?_, rfl⟩
    rw [remBytes] at *
    omega
  | matched n ws hs h1 hn =>
    have hl : s.pc.toNat + n ≤ s.bufLen.toNat := by
      unfold remBytes at hn
      omega
    have hbytes : remBytes (advance n (dropRequest (writeFields ws s))) + n = remBytes s :=
      remBytes_advance hl
    have hleft : turnsLeft (goto .bFetch (advance n (dropRequest (writeFields ws s)))) =
        remBytes (advance n (dropRequest (writeFields ws s))) := rfl
    have hfull : turnsLeft s = remBytes s - 1 := by simp only [turnsLeft, hs]
    have := hother (by simp [hs])
    exact ⟨by omega, rfl⟩
  | notMatched ws hs =>
    have hleft : turnsLeft (goto .bFallback (dropRequest (writeFields ws s))) = remBytes s - 1 := rfl
    have hfull : turnsLeft s = remBytes s - 1 := by simp only [turnsLeft, hs]
    have := hother (by simp [hs])
    exact ⟨by omega, rfl⟩
  | skipped n len hs h3 hl =>
    have hbytes : remBytes (advance n (latchLength len s)) + n = remBytes s := remBytes_advance hl
    have hleft : turnsLeft (goto .bFetch (advance n (latchLength len s))) =
        remBytes (advance n (latchLength len s)) := rfl
    have hfull : turnsLeft s = remBytes s - 1 := by simp only [turnsLeft, hs]
    have := hother (by simp [hs])
    exact ⟨by omega, rfl⟩
  | flags _ hs | headerV0 hs | headerV1 hs | chained hs | chainEnd hs | headerV2 hs
  | headerEnd hs => exact (hno _ hs (by decide)).elim

/-! ### Steps and runs with the host away -/

/-- What the input to come does not change. -/
theorem nextInput_measures (s : State) : parserReads Config.params (nextInput s).2 =
    parserReads Config.params s ∧ readsLeft (nextInput s).2 = readsLeft s ∧
    turnsLeft (nextInput s).2 = turnsLeft s ∧ turn (nextInput s).2 = turn s ∧
    busy (nextInput s).2 = busy s ∧ (nextInput s).2.st = s.st := by
  rw [nextInput_state]
  exact ⟨rfl, rfl, rfl, rfl, rfl, rfl⟩

/-- The parser's step begins the turn that the count sees. -/
theorem turnBegins_moves (hm : parserMoves s = true) :
    (if turnBegins s then 1 else 0) = turn s := by
  simp only [turn, turnBegins_iff, hm, true_and]

/-- A step with the host away is paid for by its turn. -/
theorem AwayStep.reads_le (hstep : AwayStep s t) (h : BlockInv s) :
    (coreReads Config.params s).length + readsLeft t ≤
      3 * (if turnBegins s then 1 else 0) + readsLeft s := by
  cases hstep with
  | moved hm hb hp =>
    obtain ⟨hreads, hleft, -, hturn, hbusy, -⟩ := nextInput_measures s
    have := hp.reads_le h.nextInput (hbusy.trans hb)
    rw [coreReads, hm, if_pos rfl, turnBegins_moves hm]
    rwa [hreads, hleft, hturn] at this
  | waited hr ht hsame =>
    obtain ⟨hst, hpc, hlen, -⟩ := hsame
    have hleft : readsLeft t = readsLeft s := by simp only [readsLeft, remBytes, hst, hpc, hlen]
    simp [hr, ht, hleft]

/-- What a step with the host away leaves is BUSY or DONE. -/
theorem AwayStep.busy_or_done (hstep : AwayStep s t) (hs : busy s = true ∨ s.st = .done) :
    busy t = true ∨ t.st = .done := by
  cases hstep with
  | moved hm hb hp => exact hp.busy_or_done
  | waited hr ht hsame =>
    obtain ⟨hst, -⟩ := hsame
    simpa only [busy, hst] using hs

/-- A state behind the header. -/
def behindHeader (s : State) : Prop :=
  s.st = .bFetch ∨ s.st = .bCall ∨ s.st = .bFallback ∨ s.st = .done

/-- A step in the body stays behind the header. -/
theorem ParserStep.stays_behindHeader (hstep : ParserStep s t)
    (hbody : s.st = .bFetch ∨ s.st = .bCall ∨ s.st = .bFallback) : behindHeader t := by
  have hno : ∀ x, s.st = x → ¬ (x = .bFetch ∨ x = .bCall ∨ x = .bFallback) → False :=
    fun x hx hn => hn (hx ▸ hbody)
  cases hstep with
  | failed | success => exact .inr (.inr (.inr rfl))
  | call => exact .inr (.inl rfl)
  | unregistered | notMatched => exact .inr (.inr (.inl rfl))
  | matched | skipped => exact .inl rfl
  | flags _ hs | headerV0 hs | headerV1 hs | chained hs | chainEnd hs | headerV2 hs
  | headerEnd hs => exact (hno _ hs (by decide)).elim

/-- Behind the header a step with the host away stays there, takes one of the turns left, and keeps
`ie_off`. -/
theorem AwayStep.turns_le (hstep : AwayStep s t) (h : BlockInv s) (hs : behindHeader s) :
    behindHeader t ∧ (if turnBegins s then 1 else 0) + turnsLeft t ≤ turnsLeft s ∧
      t.ieOff = s.ieOff := by
  cases hstep with
  | moved hm hb hp =>
    obtain ⟨-, -, hleft, hturn, hbusy, hst⟩ := nextInput_measures s
    have hbody : s.st = .bFetch ∨ s.st = .bCall ∨ s.st = .bFallback := by
      have := ((busy_iff s).mp hb).2
      unfold behindHeader at hs
      tauto
    obtain ⟨hle, hie⟩ := hp.turns_le h.nextInput (hbusy.trans hb) (by rwa [hst])
    rw [turnBegins_moves hm]
    rw [hleft, hturn] at hle
    exact ⟨hp.stays_behindHeader (by rwa [hst]), hle, hie.trans (by rw [nextInput_state])⟩
  | waited hr ht hsame =>
    obtain ⟨hst, hpc, hlen, hie⟩ := hsame
    have hleft : turnsLeft t = turnsLeft s := by simp only [turnsLeft, remBytes, hst, hpc, hlen]
    exact ⟨by rwa [behindHeader, hst], by simp [ht, hleft], hie⟩

/-- What a run of one step more counts. -/
theorem counts_succ (k : Nat) (ht : step s = .next t) :
    readsIn (k + 1) s = (coreReads Config.params s).length + readsIn k t ∧
      turnsIn (k + 1) s = (if turnBegins s then 1 else 0) + turnsIn k t :=
  ⟨sumSteps_succ _ k ht, sumSteps_succ _ k ht⟩

/-- A run with the host away reads at most three bytes a turn, beside what was left to read at its start
(R266 (4)). -/
theorem readsIn_le (k : Nat) (h : BlockInv s) (hi : hostAway s)
    (hs : busy s = true ∨ s.st = .done) : readsIn k s ≤ 3 * turnsIn k s + readsLeft s := by
  induction k generalizing s with
  | zero => exact Nat.zero_le _
  | succ k ih =>
    obtain ⟨t, ht, hinv, haway, hstep⟩ := away_step h hi hs
    obtain ⟨hreads, hturns⟩ := counts_succ k ht
    have hpaid := hstep.reads_le h
    have hrest := ih hinv haway (hstep.busy_or_done hs)
    rw [hreads, hturns]
    omega

theorem behindHeader.busy_or_done (hs : behindHeader s) : busy s = true ∨ s.st = .done := by
  rw [busy_iff]
  rcases hs with hs | hs | hs | hs <;> simp [hs]

/-- Behind the header a run with the host away takes at most the turns left, and keeps `ie_off`. -/
theorem turnsIn_le (k : Nat) {u : State} (h : BlockInv s) (hi : hostAway s) (hs : behindHeader s)
    (hrun : runSteps k s = .next u) : turnsIn k s ≤ turnsLeft s ∧ u.ieOff = s.ieOff := by
  induction k generalizing s with
  | zero =>
    cases hrun
    exact ⟨Nat.zero_le _, rfl⟩
  | succ k ih =>
    obtain ⟨t, ht, hinv, haway, hstep⟩ := away_step h hi hs.busy_or_done
    obtain ⟨-, hturns⟩ := counts_succ k ht
    obtain ⟨hbehind, hpaid, hie⟩ := hstep.turns_le h hs
    obtain ⟨hrest, hend⟩ := ih hinv haway hbehind ((runSteps_succ k ht).symm.trans hrun)
    exact ⟨by omega, hend.trans hie⟩

/-- The header ends in the body with the cursor at `ie_off`, or in an error (R106). -/
theorem ParserStep.header_exit (hstep : ParserStep s t) (hh : s.st = .hFlags ∨ inHeaderState s.st) :
    inHeaderState t.st ∨ behindHeader t ∧ turnsLeft t ≤ t.bufLen.toNat - t.ieOff.toNat := by
  have hno : ∀ x, s.st = x → ¬ (x = .hFlags ∨ inHeaderState x) → False := fun x hx hn =>
    hn (hx ▸ hh)
  unfold inHeaderState at hno
  cases hstep with
  | failed | success => exact .inr ⟨.inr (.inr (.inr rfl)), Nat.zero_le _⟩
  | headerEnd => exact .inr ⟨.inl rfl, Nat.le_refl _⟩
  | flags b hs hl hb hv => exact .inl (headerState_of_version hv).1
  | headerV0 | headerV2 | chainEnd => exact .inl (.inr (.inr (.inr (.inr rfl))))
  | headerV1 | chained => exact .inl (.inr (.inr (.inl rfl)))
  | call _ hs | unregistered _ hs | matched _ _ hs | notMatched _ hs | skipped _ _ hs =>
    exact (hno _ hs (by decide)).elim

/-- From the header a run with the host away takes at most the turns behind `ie_off` (R143). -/
theorem turnsIn_le_of_header (k : Nat) {u : State} (h : BlockInv s) (hi : hostAway s)
    (hh : s.st = .hFlags ∨ inHeaderState s.st) (hrun : runSteps k s = .next u) :
    turnsIn k s ≤ s.bufLen.toNat - u.ieOff.toNat := by
  induction k generalizing s with
  | zero => exact Nat.zero_le _
  | succ k ih =>
    have hb : busy s = true := by
      rw [busy_iff]
      rcases hh with hs | hs
      · simp [hs]
      · exact hs.ne
    obtain ⟨t, ht, hinv, haway, hstep⟩ := away_step h hi (.inl hb)
    obtain ⟨-, hturns⟩ := counts_succ k ht
    have hrest := (runSteps_succ k ht).symm.trans hrun
    have hnone : (if turnBegins s then 1 else 0) = 0 := if_neg fun hx => by
      obtain ⟨-, hs, -⟩ := turnBegins_iff.mp hx
      rw [hs] at hh
      revert hh
      unfold inHeaderState
      decide
    rw [hturns, hnone, Nat.zero_add]
    cases hstep with
    | moved hm _ hp =>
      obtain ⟨-, -, -, -, -, hst⟩ := nextInput_measures s
      have hlen : t.bufLen = s.bufLen := by
        rw [hp.sameHostSide.buffer.bufLen, nextInput_state]
      rw [← hlen]
      rcases hp.header_exit (by rwa [hst]) with hx | ⟨hx, hle⟩
      · exact ih hinv haway (.inr hx) hrest
      · obtain ⟨hturn, hie⟩ := turnsIn_le k hinv haway hx hrest
        rw [hie]
        exact hturn.trans hle
    | waited _ _ hsame =>
      obtain ⟨hst, -, hlen, -⟩ := hsame
      rw [← hlen]
      exact ih hinv haway (by rwa [hst]) hrest

end

/-- Settles O13: every step is one of `stepsLeft`, and with leaf decoders' calls between, each turn pays
for the reads of its steps and consumes a byte. -/
theorem everyDecodeReachesDone : Obligations.EveryDecodeReachesDone := by
  intro s h hb
  have hcursor := h.cursorInside hb
  refine ⟨fun hi => runSteps_reaches_done _ h hi (.inl hb) ?_, fun hi k t hrun => ⟨?_, ?_⟩⟩
  · have := stepsLeft_le s
    omega
  · intro hs
    have hreads := readsIn_le k h hi (.inl hb)
    have hturns := (turnsIn_le k h hi (.inl hs) hrun).1
    simp only [readsLeft, turnsLeft, hs] at hreads hturns
    exact ⟨hreads, hturns⟩
  · intro hs
    have hreads := readsIn_le k h hi (.inl hb)
    rw [readsLeft_of_header (.inl hs), remBytes] at hreads
    exact ⟨by omega, turnsIn_le_of_header k h hi (.inl hs) hrun⟩

end Sys2Proof.Machine
end

section
/-! The body steps compute Body (R130): one turn of the loop is one turn of the function. -/

namespace Sys2Proof.Machine

/-! ### Runs of the parser -/

/-- Some number of steps goes from `s` to `t`. -/
def Reaches (s t : State) : Prop := ∃ k, runSteps k s = .next t

namespace Reaches

variable {s t u : State}

theorem refl (s : State) : Reaches s s := ⟨0, rfl⟩

/-- One step first. -/
theorem step (h : Machine.step s = .next t) (hr : Reaches t u) : Reaches s u := by
  obtain ⟨k, hk⟩ := hr
  exact ⟨k + 1, (runSteps_succ k h).trans hk⟩

theorem of_step (h : Machine.step s = .next t) : Reaches s t := step h (refl t)

theorem trans (h : Reaches s t) (hr : Reaches t u) : Reaches s u := by
  obtain ⟨k, hk⟩ := h
  obtain ⟨m, hm⟩ := hr
  exact ⟨k + m, (runSteps_add m hk).trans hm⟩

/-- Runs keep the invariant. -/
theorem blockInv (hr : Reaches s t) (h : BlockInv s) : BlockInv t := by
  obtain ⟨k, hk⟩ := hr
  induction k generalizing s with
  | zero =>
    cases hk
    exact h
  | succ k ih =>
    obtain ⟨v, hv, hinv⟩ := stepKeepsTheInvariantAndNeverStops s h
    exact ih hinv ((runSteps_succ k hv).symm.trans hk)

end Reaches

/-! ### Where a turn and the loop lead -/

/-- A later state at the same place of the same message. -/
structure SamePlace (s t : State) : Prop where
  host : SameHostSide s t
  pc : t.pc = s.pc
  ieOff : t.ieOff = s.ieOff
  ver : t.ver = s.ver
  msg : t.msg = s.msg

/-- The error registers of an error that Body reports in a state of version `v`. -/
def bodyErr (v : BitVec 3) (code : ErrCode) (tag : Byte) (idx : Nat) (reason : Byte) : ErrRegs :=
  { code := code, phase := .body, ver := v, tag := tag, reason := reason,
    off := BitVec.ofNat Config.lenW idx }

/-- The decode ends with the outcome of Body. -/
def EndsBody (s : State) : BodyOut → Prop
  | .err code tag idx reason =>
    ∃ t, Reaches s t ∧ ErrorEntry (bodyErr s.ver code tag idx reason) s t
  | .ok body => ∃ t, Reaches s t ∧ SameHostSide s t ∧ t.st = .done ∧ t.result = .success ∧
      t.msgValid = true ∧ t.err = ErrRegs.clear ∧ t.msg = s.msg ∧ t.body = body

/-- The parser does what a turn of Body says. -/
def TakesTurn (s : State) : Turn → Prop
  | .ended o => EndsBody s o
  | .advanced n body => ∃ t, Reaches s t ∧ SameHostSide s t ∧ t.st = .bFetch ∧ 1 ≤ n ∧
      t.pc.toNat = s.pc.toNat + n ∧ t.pc.toNat ≤ s.bufLen.toNat ∧ t.ieOff = s.ieOff ∧
      t.ver = s.ver ∧ t.msg = s.msg ∧ t.body = body

section
variable {s t : State}

/-- What a later state ends in, the earlier one ends in. -/
theorem EndsBody.of_reaches {o : BodyOut} (hr : Reaches s t) (hhost : SameHostSide s t)
    (hver : t.ver = s.ver) (hmsg : t.msg = s.msg) (h : EndsBody t o) : EndsBody s o := by
  cases o with
  | err code tag idx reason =>
    obtain ⟨u, hu, herr⟩ := h
    exact ⟨u, hr.trans hu, .of_host hhost (hver ▸ herr)⟩
  | ok body =>
    obtain ⟨u, hu, hsame, hst, hres, hval, herr, hm, hb⟩ := h
    exact ⟨u, hr.trans hu, hhost.trans hsame, hst, hres, hval, herr, hm.trans hmsg, hb⟩

theorem TakesTurn.of_reaches {o : Turn} (hr : Reaches s t) (hp : SamePlace s t)
    (h : TakesTurn t o) : TakesTurn s o := by
  obtain ⟨hhost, hpc, hie, hver, hmsg⟩ := hp
  cases o with
  | ended o => exact EndsBody.of_reaches hr hhost hver hmsg h
  | advanced n body =>
    obtain ⟨u, hu, hsame, hst, h1, hn, hl, hie', hver', hmsg', hb⟩ := h
    exact ⟨u, hr.trans hu, hhost.trans hsame, hst, h1, hpc ▸ hn, hhost.buffer.bufLen ▸ hl,
      hie'.trans hie, hver'.trans hver, hmsg'.trans hmsg, hb⟩

/-- A decode error that the parser raises in one step. -/
theorem EndsBody.of_raise {e : DecodeError} (hstep : step s = .next (raise e s)) {code : ErrCode}
    {tag : Byte} {idx : Nat} {reason : Byte}
    (he : bodyErr s.ver code tag idx reason = ⟨errCodeOf e, errPhaseOf e, errVerOf e s.ver,
      errTagOf e, errReasonOf e, errOffOf e⟩) : EndsBody s (.err code tag idx reason) := by
  refine ⟨_, .of_step hstep, ?_⟩
  rw [he]
  exact (raise_errorStep e s).entry

/-! ### The fallback -/

/-- The body index of the cursor, as the functions of R130 count it. -/
abbrev idxOf (s : State) : Nat := s.pc.toNat - s.ieOff.toNat

/-- A big-endian field of the rest of the message. -/
theorem fieldAt_subBuf {a off n : Nat} (h : a + off + n ≤ s.bufLen.toNat) :
    fieldAt (subBuf s a) off n = beNat (bufBytes s (a + off) n) := by
  rw [fieldAt, subBuf_drop, subBuf_take h]

/-- A generic skip does what the fallback of R130 does with a frame of `pre` bytes and its value. -/
theorem takesTurn_skip {pre : Nat} (hpre : 3 ≤ pre)
    (hstep : step s = skipIe (fun n => pre + n) s.tag s) :
    TakesTurn s
      (if (subBuf s s.pc.toNat).length < 3 then .ended (.err .truncated s.tag (idxOf s) 0)
       else if (subBuf s s.pc.toNat).length < pre + fieldAt (subBuf s s.pc.toNat) 1 2 then
         .ended (.err .truncated s.tag (idxOf s) 0)
       else .advanced (pre + fieldAt (subBuf s s.pc.toNat) 1 2) s.body) := by
  generalize hlen : be16 (bufByte s (s.pc.toNat + 1)) (bufByte s (s.pc.toNat + 2)) = len
  rw [subBuf_length]
  split
  next h3 =>
    exact EndsBody.of_raise (hstep.trans (skipIe_short s.tag hlen.symm (.inl (by omega)))) rfl
  next h3 =>
    rw [fieldAt_subBuf (by omega), beNat_length, hlen]
    split
    next hfit =>
      exact EndsBody.of_raise (hstep.trans (skipIe_short s.tag hlen.symm (.inr (by omega)))) rfl
    next hfit =>
      have hl : s.pc.toNat + (pre + len.toNat) ≤ s.bufLen.toNat := by omega
      have hpc := advance_toNat (s := latchLength len s) hl
      refine ⟨_, .of_step (hstep.trans (skipIe_fits s.tag hlen.symm (by omega) hl)), ?_, rfl,
        by omega, hpc, hpc.trans_le hl, rfl, rfl, rfl, rfl⟩
      exact .of rfl rfl rfl rfl rfl rfl rfl rfl rfl rfl rfl rfl

/-- The step in `B_FALLBACK` is the fallback of R130. -/
theorem takesTurn_fallback (hi : s.inputs = []) (hs : s.st = .bFallback) :
    TakesTurn s (fallbackTurn s.ver (subBuf s s.pc.toNat) s.tag (idxOf s) s.body) := by
  have hstep := step_quiet hi
  unfold fallbackTurn
  by_cases hv : s.ver = 2
  · rw [if_neg (by simp [hv]), if_pos hv]
    exact takesTurn_skip (by omega) (hstep.trans (parserEdge_fallback2 hs hv))
  · by_cases ht : tlvClass s.tag = true
    · rw [if_neg (by simp [ht]), if_neg hv]
      exact takesTurn_skip (by omega) (hstep.trans (parserEdge_fallback01_tlv hs hv ht))
    · rw [if_pos ⟨hv, ht⟩]
      exact EndsBody.of_raise (hstep.trans (parserEdge_fallback01_tv hs hv ht)) rfl

/-! ### A turn -/

/-- What the functions of R130 do with a leaf decoder's answer. -/
def answerTurn (v : BitVec 3) (rest : List Byte) (t : Byte) (idx : Nat) (body : Body) :
    LeafAns → Turn
  | .matched n =>
    if 1 ≤ n ∧ n ≤ rest.length then .advanced n body
    else .ended (.err .ieDecodeError t idx Config.reasonCount)
  | .malformed x => .ended (.err .ieDecodeError t idx x)
  | .notMatched => fallbackTurn v rest t idx body

/-- A turn on a registered tag. -/
theorem bodyTurn_registered {reg : RegFn} {v : BitVec 3} {t : Byte}
    (hr : (reg v.toNat t).valid = true) (lf : LeafFn) (rest : List Byte) (idx : Nat) (body : Body) :
    bodyTurn reg lf v rest t idx body =
      answerTurn v rest t idx
        (bodyPutAll body (lf (reg v.toNat t).decId (v.setWidth 2) rest rest.length body).2)
        (leafAnsOf (lf (reg v.toNat t).decId (v.setWidth 2) rest rest.length body).1) := by
  rw [bodyTurn, if_pos hr]
  unfold answerTurn
  rfl

/-- A turn on any other tag. -/
theorem bodyTurn_unregistered {reg : RegFn} {v : BitVec 3} {t : Byte}
    (hr : (reg v.toNat t).valid = false) (lf : LeafFn) (rest : List Byte) (idx : Nat) (body : Body) :
    bodyTurn reg lf v rest t idx body = fallbackTurn v rest t idx body := by
  rw [bodyTurn, if_neg (by rw [hr]; exact Bool.false_ne_true)]

/-- The registered decoder on the rest of the message (R132). -/
theorem leafOutcome_eq_leaf (t : Byte) (s : State) :
    leafOutcome Config.params t s = leaf (regGet s s.ver.toNat t).decId (s.ver.setWidth 2)
      (subBuf s s.pc.toNat) (subBuf s s.pc.toNat).length s.body := by
  rw [subBuf_length]
  rfl

/-- The step in `B_CALL` does what R130 does with the answer. -/
theorem takesTurn_call (h : BlockInv s) (hi : s.inputs = []) (hs : s.st = .bCall) :
    TakesTurn s (answerTurn s.ver (subBuf s s.pc.toNat) s.tag (idxOf s)
      (bodyPutAll s.body (leafOutcome Config.params s.tag s).2)
      (leafAnsOf (leafOutcome Config.params s.tag s).1)) := by
  have hcursor := h.cursorInside (by simp [busy, hs])
  have hstep := (step_quiet hi).trans (parserEdge_bCall hs)
  simp only [exec, execIeCall, callLeaf] at hstep
  generalize leafOutcome Config.params s.tag s = r at hstep ⊢
  rw [answerTurn.eq_def]
  cases ha : leafAnsOf r.1 with
  | matched n =>
    rw [ha] at hstep
    dsimp only
    rw [subBuf_length]
    split
    next hn =>
      obtain ⟨h1, hle⟩ := hn
      rw [leafAnswered_matched (s := dropRequest (writeFields r.2 s)) h1 hle] at hstep
      have hl : s.pc.toNat + n ≤ s.bufLen.toNat := by omega
      have hpc := advance_toNat (s := dropRequest (writeFields r.2 s)) hl
      exact ⟨_, .of_step hstep, .of rfl rfl rfl rfl rfl rfl rfl rfl rfl rfl rfl rfl, rfl, h1, hpc,
        hpc.trans_le hl, rfl, rfl, rfl, rfl⟩
    next hn =>
      have hbad : n = 0 ∨ remBytes s < n := by
        rw [remBytes]
        omega
      rw [leafAnswered_badCount (s := dropRequest (writeFields r.2 s)) hbad,
        raise_dropRequest_writeFields] at hstep
      exact EndsBody.of_raise hstep rfl
  | malformed x =>
    rw [ha, leafAnswered, raise_dropRequest_writeFields] at hstep
    exact EndsBody.of_raise hstep rfl
  | notMatched =>
    rw [ha] at hstep
    have hsame : SamePlace s (goto .bFallback (dropRequest (writeFields r.2 s))) :=
      ⟨.of rfl rfl rfl rfl rfl rfl rfl rfl rfl rfl rfl rfl, rfl, rfl, rfl, rfl⟩
    have hfall : TakesTurn (goto .bFallback (dropRequest (writeFields r.2 s))) _ :=
      takesTurn_fallback hi rfl
    rw [hsame.host.buffer.subBuf] at hfall
    exact .of_reaches (.of_step hstep) hsame hfall

/-- One turn of the dispatch loop is one turn of R130. -/
theorem takesTurn_body (h : BlockInv s) (hi : s.inputs = []) (hs : s.st = .bFetch)
    (hl : s.pc.toNat < s.bufLen.toNat) :
    TakesTurn s (bodyTurn (regGet s) leaf s.ver (subBuf s s.pc.toNat) (bufByte s s.pc.toNat)
      (idxOf s) s.body) := by
  have hstep := (step_quiet hi).trans (parserEdge_bFetch hs hl)
  generalize ht : bufByte s s.pc.toNat = t at hstep ⊢
  cases hr : (regGet s s.ver.toNat t).valid with
  | true =>
    rw [exec_ieFetch_registered hl hr] at hstep
    have hsame : SamePlace s (goto .bCall (postRequest (leafRequest t s) (latchTag t s))) :=
      ⟨.of rfl rfl rfl rfl rfl rfl rfl rfl rfl rfl rfl rfl, rfl, rfl, rfl, rfl⟩
    have hcall := takesTurn_call (h.call hs hl ht.symm hr) hi rfl
    rw [bodyTurn_registered hr]
    refine .of_reaches (.of_step hstep) hsame ?_
    rw [leafOutcome_eq_leaf, hsame.host.buffer.subBuf] at hcall
    exact hcall
  | false =>
    rw [exec_ieFetch_unregistered hl hr] at hstep
    have hsame : SamePlace s (goto .bFallback (latchTag t s)) :=
      ⟨.of rfl rfl rfl rfl rfl rfl rfl rfl rfl rfl rfl rfl, rfl, rfl, rfl, rfl⟩
    have hfall : TakesTurn (goto .bFallback (latchTag t s)) _ := takesTurn_fallback hi rfl
    rw [hsame.host.buffer.subBuf] at hfall
    rw [bodyTurn_unregistered hr]
    exact .of_reaches (.of_step hstep) hsame hfall

/-! ### The loop -/

/-- The loop at the end of the message. -/
theorem bodyLoop_nil (reg : RegFn) (lf : LeafFn) (v : BitVec 3) (fuel idx : Nat) (body : Body) :
    bodyLoop reg lf v fuel [] idx body = .ok body := by
  cases fuel <;> rfl

/-- At the end of the message the loop ends with Success (R141). -/
theorem endsBody_end (h : BlockInv s) (hi : s.inputs = []) (hs : s.st = .bFetch)
    (hl : s.bufLen.toNat ≤ s.pc.toNat) (fuel : Nat) :
    EndsBody s (bodyLoop (regGet s) leaf s.ver fuel (subBuf s s.pc.toNat) (idxOf s) s.body) := by
  have hb : busy s = true := by simp [busy, hs]
  have hcursor := h.cursorInside hb
  obtain ⟨-, -, herr⟩ := h.busyClear hb
  have hend : s.pc = s.bufLen := BitVec.eq_of_toNat_eq (by omega)
  rw [subBuf_end hl, bodyLoop_nil]
  exact ⟨_, .of_step ((step_quiet hi).trans (parserEdge_bFetch_end hs hend)),
    .of rfl rfl rfl rfl rfl rfl rfl rfl rfl rfl rfl rfl, rfl, rfl, rfl, herr, rfl, rfl⟩

/-- The dispatch loop computes Body from every state at a tag or at the end of the message: with the fuel
of every byte left, since each turn consumes one. -/
theorem endsBody (fuel : Nat) (h : BlockInv s) (hi : s.inputs = []) (hs : s.st = .bFetch)
    (hfuel : remBytes s ≤ fuel) :
    EndsBody s (bodyLoop (regGet s) leaf s.ver fuel (subBuf s s.pc.toNat) (idxOf s) s.body) := by
  induction fuel generalizing s with
  | zero => exact endsBody_end h hi hs (Nat.le_of_sub_eq_zero (Nat.le_zero.mp hfuel)) 0
  | succ fuel ih =>
    by_cases hl : s.pc.toNat < s.bufLen.toNat
    · have hturn := takesTurn_body h hi hs hl
      rw [subBuf_cons hl] at hturn ⊢
      rw [bodyLoop]
      cases hx : bodyTurn (regGet s) leaf s.ver (bufByte s s.pc.toNat :: subBuf s (s.pc.toNat + 1))
        (bufByte s s.pc.toNat) (idxOf s) s.body with
      | ended o =>
        rw [hx] at hturn
        exact hturn
      | advanced n body =>
        rw [hx] at hturn
        obtain ⟨t, hreach, hhost, hst, h1, hpc, hle, hie, hver, hmsg, rfl⟩ := hturn
        obtain ⟨hiele, -⟩ := h.bodyPhase (by simp [inBody, hs])
        have hrest := ih (hreach.blockInv h) (hhost.bus.inputs.trans hi) hst (by
          rw [remBytes] at hfuel ⊢
          rw [hhost.buffer.bufLen]
          omega)
        have hidx : idxOf t = idxOf s + n := by
          rw [idxOf, idxOf, hie, hpc]
          omega
        have hreg : regGet t = regGet s := funext₂ hhost.registry.regGet
        dsimp only
        rw [← subBuf_cons hl, subBuf_drop, ← hpc, ← hhost.buffer.subBuf, ← hidx, ← hver, ← hreg]
        exact hrest.of_reaches hreach hhost hver hmsg
    · exact endsBody_end h hi hs (Nat.le_of_not_lt hl) _

end

/-- Settles O16: the loop from the first tag of the body, with fuel for the whole message. -/
theorem bodyStepsComputeBody : Obligations.BodyStepsComputeBody := by
  intro s h hs hpc hi
  obtain ⟨-, -, herr⟩ := h.busyClear (by simp [busy, hs])
  have hends := endsBody s.bufLen.toNat h hi hs (Nat.sub_le _ _)
  rw [idxOf, hpc, Nat.sub_self, ← hpc] at hends
  generalize bodyLoop (regGet s) leaf s.ver s.bufLen.toNat (subBuf s s.pc.toNat) 0 s.body = o
    at hends ⊢
  cases o with
  | err code tag idx reason =>
    obtain ⟨t, ⟨k, hk⟩, hentry⟩ := hends
    exact ⟨k, t, hk, hentry.st, hentry.host, hentry⟩
  | ok body =>
    obtain ⟨t, ⟨k, hk⟩, hhost, hst, hres, hval, herr', hmsg, hb⟩ := hends
    exact ⟨k, t, hk, hst, hhost, hres, hval, herr'.trans herr.symm, hmsg, hb⟩

end Sys2Proof.Machine
end

section
/-! The header steps compute HeaderDecode (R107), and a decode computes Decode (R209). -/

namespace Sys2Proof.Machine

/-- The error registers of an error that HeaderDecode reports. -/
def headerErr (code : ErrCode) (off : Nat) (ver : BitVec 3) : ErrRegs :=
  { code := code, phase := .header, ver := ver, tag := 0, reason := 0,
    off := BitVec.ofNat Config.lenW off }

/-- The header phase ends with the outcome of HeaderDecode. -/
def EndsHeader (s : State) : HeaderOut → Prop
  | .err code off ver => ∃ t, Reaches s t ∧ ErrorEntry (headerErr code off ver) s t
  | .ok m => ∃ t, Reaches s t ∧ SameHostSide s t ∧ t.st = .bFetch ∧ t.msg = m ∧ t.pc = m.ieOff ∧
      t.ieOff = m.ieOff ∧ t.ver = m.version.setWidth 3 ∧
      t.body = { emptyBody with variant := m.version }

section
variable {s t : State}

theorem EndsHeader.of_reaches {o : HeaderOut} (hr : Reaches s t) (hhost : SameHostSide s t)
    (h : EndsHeader t o) : EndsHeader s o := by
  cases o with
  | err code off ver =>
    obtain ⟨u, hu, herr⟩ := h
    exact ⟨u, hr.trans hu, .of_host hhost herr⟩
  | ok m =>
    obtain ⟨u, hu, hsame, hend⟩ := h
    exact ⟨u, hr.trans hu, hhost.trans hsame, hend⟩

/-- A decode error that the parser raises in one step. -/
theorem EndsHeader.of_raise {e : DecodeError} (hstep : step s = .next (raise e s)) {code : ErrCode}
    {off : Nat} {ver : BitVec 3}
    (he : headerErr code off ver = ⟨errCodeOf e, errPhaseOf e, errVerOf e s.ver,
      errTagOf e, errReasonOf e, errOffOf e⟩) : EndsHeader s (.err code off ver) := by
  refine ⟨_, .of_step hstep, ?_⟩
  rw [he]
  exact (raise_errorStep e s).entry

/-- The Message that HDR.END fixes from the working registers (R106). -/
def fixedMsg (s : State) : Msg :=
  { s.msg with ieOff := s.pc, version := s.ver.setWidth 2, flags := s.flags }

/-- A supported version survives the two bits of the Message. -/
theorem setWidth_version {v : BitVec 3} (h : v.toNat ≤ 2) : (v.setWidth 2).setWidth 3 = v := by
  revert v
  decide

/-- HDR.END enters the body with the Message of the working registers (R106). -/
theorem endsHeader_hEnd (h : BlockInv s) (hi : s.inputs = []) (hs : s.st = .hEnd) :
    EndsHeader s (.ok (fixedMsg s)) := by
  obtain ⟨hr, hbody, -⟩ := h.header_facts (.inr (.inr (.inr (.inr hs))))
  obtain ⟨hv, h2⟩ := hr.version
  refine ⟨_, .of_step ((step_quiet hi).trans (parserEdge_hEnd hs hv h2)),
    .of rfl rfl rfl rfl rfl rfl rfl rfl rfl rfl rfl rfl, rfl, rfl, rfl, rfl,
    (setWidth_version h2).symm, ?_⟩
  rw [goto_body, fixHeader_body, hbody]
  rfl

/-! ### The fields of the message -/

/-- The message has `buf_len` bytes. -/
theorem messageBytes_length (s : State) : (messageBytes s).length = s.bufLen.toNat :=
  subBuf_length s 0

/-- A big-endian field of the message. -/
theorem fieldAt_messageBytes {off n : Nat} (h : off + n ≤ s.bufLen.toNat) :
    fieldAt (messageBytes s) off n = beNat (bufBytes s off n) := by
  have := fieldAt_subBuf (s := s) (a := 0) (off := off) (n := n) (by omega)
  rwa [Nat.zero_add] at this

theorem ofNat_fieldAt_one {off : Nat} (h : off + 1 ≤ s.bufLen.toNat) :
    BitVec.ofNat 8 (fieldAt (messageBytes s) off 1) = bufByte s off := by
  rw [fieldAt_messageBytes h, ofNat_beNat_one]

theorem ofNat_fieldAt_two {off : Nat} (h : off + 2 ≤ s.bufLen.toNat) :
    BitVec.ofNat 16 (fieldAt (messageBytes s) off 2) =
      be16 (bufByte s off) (bufByte s (off + 1)) := by
  rw [fieldAt_messageBytes h, ofNat_beNat_two]

/-- The outcome `r` behind fields given as (offset, bytes): Truncated at the first that overruns. -/
def guardHeader (len : Nat) (fields : List (Nat × Nat)) (v : BitVec 3) (r : HeaderOut) : HeaderOut :=
  match firstOverrun len fields with
  | some off => .err .truncated off v
  | none => r

/-- A step that raises Truncated at a field, or does what `hok` says where every field fits. -/
theorem EndsHeader.of_guardFields {fields : List (Nat × Nat)} {o : Out} {v : BitVec 3} {r : HeaderOut}
    (hstep : step s = guardFields s fields o) (hv : s.ver = v)
    (hok : firstOverrun s.bufLen.toNat fields = none → step s = o → EndsHeader s r) :
    EndsHeader s (guardHeader s.bufLen.toNat fields v r) := by
  rw [guardHeader]
  cases hf : firstOverrun s.bufLen.toNat fields with
  | some off => exact .of_raise (hstep.trans (guardFields_some o hf)) (hv ▸ rfl)
  | none => exact hok hf (hstep.trans (guardFields_none o hf))

/-! ### Version 0 -/

/-- The version 0 header of a message that holds it (R62). -/
def msgV0 (p : Params) (b : List Byte) (b0 : Byte) : Msg :=
  { Msg.empty with
    version := 0, flags := b0, msgType := BitVec.ofNat 8 (fieldAt b 1 1)
    msgLen := BitVec.ofNat 16 (fieldAt b 2 2), seq := BitVec.ofNat 16 (fieldAt b 4 2)
    seqValid := true, sndcp := sndcpSet p b0
    tid := BitVec.ofNat 64 (fieldAt b (12 + sndcpBytes p b0) 8), tidValid := true
    ieOff := BitVec.ofNat Config.lenW (20 + sndcpBytes p b0) }

theorem headerDecode0_eq (p : Params) (b : List Byte) (b0 : Byte) :
    headerDecode0 p b b0 =
      guardHeader b.length (fieldsV0 (sndcpBytes p b0)) 0 (.ok (msgV0 p b b0)) := rfl

/-- HDR.V0 and HDR.END compute the version 0 header (R62, R102). -/
theorem endsHeader_h0 (h : BlockInv s) (hi : s.inputs = []) (hs : s.st = .h0)
    (hm : s.msg = Msg.empty) (hp : ptSet Config.params s.flags = true) :
    EndsHeader s (headerDecode0 Config.params (messageBytes s) s.flags) := by
  have hv := h.headerState 0 (by rw [hs, headerVersion])
  obtain ⟨hr, -, -⟩ := h.header_facts (.inl hs)
  have hstep := (step_quiet hi).trans (parserEdge_h0 hs (by rw [← hr.version.1, hv]))
  rw [headerV0_eq hp (h.fixedHeader (.inl hs)).1] at hstep
  rw [headerDecode0_eq, messageBytes_length]
  refine .of_guardFields hstep hv fun hf hnext => ?_
  have hlast := le_of_firstOverrun_none hf (f := (12 + sndcpBytes Config.params s.flags, 8))
    (by simp [fieldsV0])
  have hend := endsHeader_hEnd (h.storedV0 hs (p := Config.params) (b := s.flags) (by omega)) hi rfl
  have hmsg : fixedMsg (storedV0 Config.params s.flags s) =
      msgV0 Config.params (messageBytes s) s.flags := by
    rw [msgV0, ofNat_fieldAt_one (by omega), ofNat_fieldAt_two (by omega),
      ofNat_fieldAt_two (by omega), fieldAt_messageBytes (by omega)]
    simp only [fixedMsg, storedV0, hm, hv]
    rfl
  exact .of_reaches (.of_step hnext) (storedV0_sameHostSide _ _ s) (hmsg ▸ hend)

/-! ### Version 2 -/

/-- The version 2 header of a message that holds it (R64). -/
def msgV2 (p : Params) (b : List Byte) (b0 : Byte) : Msg :=
  { Msg.empty with
    version := 2, flags := b0, msgType := BitVec.ofNat 8 (fieldAt b 1 1)
    msgLen := BitVec.ofNat 16 (fieldAt b 2 2)
    teid := BitVec.ofNat 32 (fieldAt b (4 + teidBytes p b0) 4 / 256), teidValid := true
    ieOff := BitVec.ofNat Config.lenW (8 + teidBytes p b0) }

theorem headerDecode2_eq (p : Params) (b : List Byte) (b0 : Byte) :
    headerDecode2 p b b0 = guardHeader b.length [(1, 1), (2, 2)] 2
      (if b.length ≠ 4 + fieldAt b 2 2 then .err .lengthMismatch 4 2
       else guardHeader b.length (fieldsV2 p b0) 2 (.ok (msgV2 p b b0))) := by
  have hfields : (if teidSet p b0 then [(4, 4)] else []) ++ [(4 + teidBytes p b0, 4)] =
      fieldsV2 p b0 := by
    unfold fieldsV2 teidBytes
    split <;> rfl
  rw [← hfields]
  rfl

/-- The top 24 bits of the secondary field (R105). -/
theorem beNat_four_div (s : State) (a : Nat) :
    beNat (bufBytes s a 4) / 256 = beNat (bufBytes s a 3) := by
  rw [bufBytes_append s a 3 1, beNat, List.foldl_append]
  have := (bufByte s (a + 3)).isLt
  simp only [bufBytes, List.range_one, List.map_cons, List.map_nil, List.foldl_cons, List.foldl_nil,
    Nat.add_zero, beNat]
  omega

/-- HDR.V2 and HDR.END compute the version 2 header (R64, R105). -/
theorem endsHeader_h2 (h : BlockInv s) (hi : s.inputs = []) (hs : s.st = .h2)
    (hm : s.msg = Msg.empty) :
    EndsHeader s (headerDecode2 Config.params (messageBytes s) s.flags) := by
  have hv := h.headerState 2 (by rw [hs, headerVersion])
  obtain ⟨hr, -, -⟩ := h.header_facts (.inr (.inr (.inr (.inl hs))))
  have hstep := (step_quiet hi).trans (parserEdge_h2 hs (by rw [← hr.version.1, hv]))
  rw [headerV2_eq _ _ (h.fixedHeader (.inr (.inr hs))).1] at hstep
  rw [headerDecode2_eq, messageBytes_length]
  refine .of_guardFields hstep hv fun hf hnext => ?_
  have hlen := le_of_firstOverrun_none hf (f := (2, 2)) (by simp)
  rw [fieldAt_messageBytes hlen, beNat_length s 1]
  rw [framedV2] at hnext
  split at hnext
  next hframe =>
    rw [if_neg (not_not.mpr hframe)]
    refine .of_guardFields hnext hv fun hf hnext => ?_
    have hlast := le_of_firstOverrun_none hf (f := (4 + teidBytes Config.params s.flags, 4))
      (by cases hq : teidSet Config.params s.flags <;> simp [fieldsV2, teidBytes, hq])
    have hend := endsHeader_hEnd (h.storedV2 hs (p := Config.params) (b := s.flags) (by omega)) hi rfl
    have hmsg : fixedMsg (storedV2 Config.params s.flags s) =
        msgV2 Config.params (messageBytes s) s.flags := by
      rw [msgV2, ofNat_fieldAt_one (by omega), ofNat_fieldAt_two (by omega),
        fieldAt_messageBytes (by omega), beNat_four_div]
      simp only [fixedMsg, storedV2, hm, hv]
      rfl
    exact .of_reaches (.of_step hnext) (storedV2_sameHostSide _ _ s) (hmsg ▸ hend)
  next hframe =>
    rw [if_pos hframe]
    exact .of_raise hnext (hv ▸ rfl)

/-! ### Version 1 -/

/-- The extension walk ends, or a chained header does not fit, where `extWalk` says (R104). -/
def EndsWalk (s : State) : Except Nat Nat → Prop
  | .error off => EndsHeader s (.err .truncated off 1)
  | .ok ieOff => ∃ t, Reaches s t ∧ SameHostSide s t ∧ t.st = .hEnd ∧ t.pc.toNat = ieOff ∧
      t.msg = s.msg ∧ t.flags = s.flags ∧ t.ver = s.ver

theorem EndsWalk.of_reaches {o : Except Nat Nat} (hr : Reaches s t) (hhost : SameHostSide s t)
    (hmsg : t.msg = s.msg) (hflags : t.flags = s.flags) (hver : t.ver = s.ver) (h : EndsWalk t o) :
    EndsWalk s o := by
  cases o with
  | error off =>
    have hend : EndsHeader t (.err .truncated off 1) := h
    exact EndsHeader.of_reaches hr hhost hend
  | ok ieOff =>
    obtain ⟨u, hu, hsame, hst, hpc, hm, hf, hv⟩ := h
    exact ⟨u, hr.trans hu, hhost.trans hsame, hst, hpc, hm.trans hmsg, hf.trans hflags,
      hv.trans hver⟩

/-- The cursor as an offset of the functions. -/
theorem ofNat_toNat_pc (s : State) : BitVec.ofNat Config.lenW s.pc.toNat = s.pc :=
  (BitVec.ofNat_toNat _ _).trans (BitVec.setWidth_eq _)

/-- The marker at the cursor is the byte before it. -/
theorem fieldAt_marker {at_ : Nat} (h1 : 1 ≤ at_) (hl : at_ ≤ s.bufLen.toNat) :
    fieldAt (messageBytes s) (at_ - 1) 1 = (bufByte s (at_ - 1)).toNat := by
  rw [fieldAt_messageBytes (by omega)]
  simp [bufBytes, beNat]

/-- The turns in `H1_EXT` are the extension walk, with the fuel of every byte left (R104). -/
theorem endsWalk (fuel : Nat) (h : BlockInv s) (hi : s.inputs = []) (hs : s.st = .h1Ext)
    (h1 : 1 ≤ s.pc.toNat) (hlast : s.last = bufByte s (s.pc.toNat - 1)) (hfuel : remBytes s < fuel) :
    EndsWalk s (extWalk Config.params (messageBytes s) fuel s.pc.toNat) := by
  induction fuel generalizing s with
  | zero => omega
  | succ fuel ih =>
    have hcursor := h.cursorInside (by simp [busy, hs])
    have hv := h.headerState 1 (by rw [hs, headerVersion])
    have hstep := (step_quiet hi).trans (parserEdge_h1Ext hs)
    have hmarker : (fieldAt (messageBytes s) (s.pc.toNat - 1) 1 = Config.params.extMarker.toNat) ↔
        s.last = 0x02 := by
      rw [fieldAt_marker h1 hcursor, ← hlast, BitVec.toNat_inj]
      rfl
    rw [extWalk, messageBytes_length]
    simp only [hmarker]
    by_cases hm : s.last = 0x02
    · rw [hm] at hstep
      rw [if_pos hm]
      split
      next hshort =>
        have hoff : BitVec.ofNat Config.lenW s.pc.toNat = s.pc := ofNat_toNat_pc s
        exact EndsHeader.of_raise (hstep.trans (exec_hdrV1Ext_short hshort))
          (by rw [headerErr, hoff, ← hv]; rfl)
      next hfits =>
        have hl : s.pc.toNat + 4 ≤ s.bufLen.toNat := Nat.le_of_not_lt hfits
        have hnext := hstep.trans (exec_hdrV1Ext_fits hl)
        have hinv := h.chained hs (b := bufByte s (s.pc.toNat + 3)) hl
        have hpc := advance_toNat (s := latchLast (bufByte s (s.pc.toNat + 3)) s) hl
        have hbytes : remBytes (advance 4 (latchLast (bufByte s (s.pc.toNat + 3)) s)) + 4 =
          remBytes s := remBytes_advance hl
        have hrest := ih hinv hi rfl (by rw [goto_pc, hpc]; exact Nat.le_add_left 1 _)
          (by
            rw [goto_pc, hpc]
            rfl)
          (by
            rw [remBytes_goto]
            omega)
        rw [goto_pc, hpc] at hrest
        exact .of_reaches (.of_step hnext) (.of rfl rfl rfl rfl rfl rfl rfl rfl rfl rfl rfl rfl) rfl
          rfl rfl hrest
    · rw [if_neg hm]
      exact ⟨_, .of_step (hstep.trans (exec_hdrV1Ext_end hm s)),
        .of rfl rfl rfl rfl rfl rfl rfl rfl rfl rfl rfl rfl, rfl, rfl, rfl, rfl, rfl⟩

/-- The version 1 header of a message that holds it, with its IEs at `ieOff` (R63). -/
def msgV1 (p : Params) (b : List Byte) (b0 : Byte) (ieOff : Nat) : Msg :=
  { Msg.empty with
    version := 1, flags := b0, msgType := BitVec.ofNat 8 (fieldAt b 1 1)
    msgLen := BitVec.ofNat 16 (fieldAt b 2 2), teid := BitVec.ofNat 32 (fieldAt b 4 4)
    teidValid := true
    seq := if seqSet p b0 then BitVec.ofNat 16 (fieldAt b 8 2) else 0
    seqValid := seqSet p b0, ieOff := BitVec.ofNat Config.lenW ieOff }

/-- The version 1 header behind the extension walk. -/
def walkedV1 (p : Params) (b : List Byte) (b0 : Byte) : Except Nat Nat → HeaderOut
  | .error off => .err .truncated off 1
  | .ok ieOff => .ok (msgV1 p b b0 ieOff)

theorem headerDecode1_eq (p : Params) (b : List Byte) (b0 : Byte) :
    headerDecode1 p b b0 = guardHeader b.length (fieldsV1 p b0) 1
      (walkedV1 p b b0 (extWalk p b (b.length + 1) (10 + seqBytes p b0))) := by
  have hfields : [(1, 1), (2, 2), (4, 4)] ++ (if seqSet p b0 then [(8, 2)] else []) ++
      [(8 + seqBytes p b0, 2)] = fieldsV1 p b0 := by
    unfold fieldsV1 seqBytes
    split <;> rfl
  rw [← hfields]
  rfl

/-- HDR.V1, the extension walk and HDR.END compute the version 1 header (R63, R103, R104). -/
theorem endsHeader_h1 (h : BlockInv s) (hi : s.inputs = []) (hs : s.st = .h1)
    (hm : s.msg = Msg.empty) (hp : ptSet Config.params s.flags = true) :
    EndsHeader s (headerDecode1 Config.params (messageBytes s) s.flags) := by
  have hv := h.headerState 1 (by rw [hs, headerVersion])
  obtain ⟨hr, -, -⟩ := h.header_facts (.inr (.inl hs))
  have hstep := (step_quiet hi).trans (parserEdge_h1 hs (by rw [← hr.version.1, hv]))
  rw [headerV1_eq hp (h.fixedHeader (.inr (.inl hs))).1] at hstep
  rw [headerDecode1_eq, messageBytes_length]
  refine .of_guardFields hstep hv fun hf hnext => ?_
  have hlast := le_of_firstOverrun_none hf (f := (8 + seqBytes Config.params s.flags, 2))
    (by cases hq : seqSet Config.params s.flags <;> simp [fieldsV1, seqBytes, hq])
  have hl : 10 + seqBytes Config.params s.flags ≤ s.bufLen.toNat := by omega
  have hinv := h.storedV1 hs (p := Config.params) (b := s.flags) hl
  have hpc : (storedV1 Config.params s.flags s).pc.toNat = _ := toNat_ofNat_of_le hl
  have hhost := storedV1_sameHostSide Config.params s.flags s
  have hwalk := endsWalk (s.bufLen.toNat + 1) hinv hi rfl (by omega)
    (by
      rw [hpc, hhost.buffer.bytes]
      change bufByte s (9 + _) = _
      congr 1
      omega)
    (by
      rw [remBytes, hhost.buffer.bufLen]
      omega)
  rw [messageBytes, hhost.buffer.subBuf, ← messageBytes, hpc] at hwalk
  refine .of_reaches (.of_step hnext) hhost ?_
  cases hx : extWalk Config.params (messageBytes s) (s.bufLen.toNat + 1)
      (10 + seqBytes Config.params s.flags) with
  | error off =>
    rw [hx] at hwalk
    exact hwalk
  | ok ieOff =>
    rw [hx] at hwalk
    obtain ⟨t, hreach, hsame, hst, hpct, hmsg, hflags, hver⟩ := hwalk
    have hend := endsHeader_hEnd (hreach.blockInv hinv) (hsame.bus.inputs.trans hi) hst
    have hfixed : fixedMsg t = msgV1 Config.params (messageBytes s) s.flags ieOff := by
      have hoff : BitVec.ofNat Config.lenW ieOff = t.pc := by
        rw [← hpct]
        exact ofNat_toNat_pc t
      rw [msgV1, ofNat_fieldAt_one (by omega), ofNat_fieldAt_two (by omega),
        fieldAt_messageBytes (off := 4) (n := 4) (by omega), hoff]
      have hseq : seqSet Config.params s.flags = true → BitVec.ofNat 16
          (fieldAt (messageBytes s) 8 2) = be16 (bufByte s 8) (bufByte s 9) := fun hq => by
        rw [seqBytes, if_pos hq] at hl
        exact ofNat_fieldAt_two (by omega)
      simp only [fixedMsg, hmsg, hflags, hver, storedV1, hm, hv]
      cases hq : seqSet Config.params s.flags with
      | false => rfl
      | true =>
        rw [hseq hq]
        rfl
    rw [hfixed] at hend
    exact .of_reaches hreach hsame hend

/-! ### Byte 0 -/

/-- The functions tell the versions apart by the byte that HDR.FLAGS latches. -/
theorem headerDecode_messageBytes (hl : 0 < s.bufLen.toNat) :
    headerDecode Config.params (messageBytes s) =
      if 3 ≤ (versionBits (bufByte s 0)).toNat then
        .err .unsupportedVersion 0 (versionBits (bufByte s 0))
      else if versionBits (bufByte s 0) ≠ 2 ∧ ¬ ptSet Config.params (bufByte s 0) then
        .err .notGtp 0 (versionBits (bufByte s 0))
      else if versionBits (bufByte s 0) = 0 then
        headerDecode0 Config.params (messageBytes s) (bufByte s 0)
      else if versionBits (bufByte s 0) = 1 then
        headerDecode1 Config.params (messageBytes s) (bufByte s 0)
      else headerDecode2 Config.params (messageBytes s) (bufByte s 0) := by
  rw [messageBytes, subBuf_cons hl]
  rfl

/-- The header steps behind byte 0 compute HeaderDecode. -/
theorem endsHeader_fixed (h : BlockInv s) (hi : s.inputs = []) (hm : s.msg = Msg.empty)
    (hs : s.st = if versionBits s.flags = 0 then .h0 else if versionBits s.flags = 1 then .h1 else .h2)
    (hv : s.ver = versionBits s.flags) (hle : (versionBits s.flags).toNat ≤ 2) :
    EndsHeader s
      (if versionBits s.flags ≠ 2 ∧ ¬ ptSet Config.params s.flags then
        .err .notGtp 0 (versionBits s.flags)
      else if versionBits s.flags = 0 then
        headerDecode0 Config.params (messageBytes s) s.flags
      else if versionBits s.flags = 1 then
        headerDecode1 Config.params (messageBytes s) s.flags
      else headerDecode2 Config.params (messageBytes s) s.flags) := by
  have hstep := step_quiet hi
  by_cases h0 : versionBits s.flags = 0
  · rw [if_pos h0] at hs
    rw [parserEdge_h0 hs h0] at hstep
    by_cases hp : ptSet Config.params s.flags = true
    · rw [if_neg (fun hx => hx.2 hp), if_pos h0]
      exact endsHeader_h0 h hi hs hm hp
    · rw [if_pos ⟨by rw [h0]; decide, hp⟩]
      exact .of_raise (hstep.trans (if_neg hp)) (hv ▸ rfl)
  by_cases h1 : versionBits s.flags = 1
  · rw [if_neg h0, if_pos h1] at hs
    rw [parserEdge_h1 hs h1] at hstep
    by_cases hp : ptSet Config.params s.flags = true
    · rw [if_neg (fun hx => hx.2 hp), if_neg h0, if_pos h1]
      exact endsHeader_h1 h hi hs hm hp
    · rw [if_pos ⟨by rw [h1]; decide, hp⟩]
      exact .of_raise (hstep.trans (if_neg hp)) (hv ▸ rfl)
  · have h2 : versionBits s.flags = 2 := by
      rw [← BitVec.toNat_inj] at h0 h1 ⊢
      exact Nat.le_antisymm hle (Nat.lt_of_le_of_ne (Nat.pos_of_ne_zero h0) (Ne.symm h1))
    rw [if_neg h0, if_neg h1] at hs
    rw [if_neg (fun hx => hx.1 h2), if_neg h0, if_neg h1]
    exact endsHeader_h2 h hi hs hm

/-- The header phase computes HeaderDecode (R107). -/
theorem endsHeader (h : BlockInv s) (hi : s.inputs = []) (hs : s.st = .hFlags) :
    EndsHeader s (headerDecode Config.params (messageBytes s)) := by
  obtain ⟨hpc, hver, hm, -⟩ := h.atStart hs
  have hstep := step_quiet hi
  by_cases hl : 0 < s.bufLen.toNat
  · rw [headerDecode_messageBytes hl]
    rw [parserEdge_hFlags hs hpc hl] at hstep
    have hfits : s.pc.toNat + 1 ≤ s.bufLen.toNat := by rw [hpc]; exact Nat.succ_le_of_lt hl
    split
    next hv => exact .of_raise (hstep.trans (exec_hdrFlags_unsupported hfits hv)) rfl
    next hv =>
      have hv2 : (versionBits (bufByte s 0)).toNat ≤ 2 := by omega
      have hend := endsHeader_fixed (h.flags hs hl (b := bufByte s 0) hv2) hi hm rfl rfl hv2
      exact .of_reaches (.of_step (hstep.trans (exec_hdrFlags_supported hfits hv2)))
        (.of rfl rfl rfl rfl rfl rfl rfl rfl rfl rfl rfl rfl) hend
  · have hempty : messageBytes s = [] := subBuf_end (Nat.le_of_not_lt hl)
    rw [hempty]
    refine .of_raise (hstep.trans (parserEdge_hFlags_empty hs hpc (by omega))) ?_
    rw [hver]
    rfl

end

/-- Settles O15. -/
theorem headerStepsComputeHeaderDecode : Obligations.HeaderStepsComputeHeaderDecode := by
  intro s h hs hi
  have hend := endsHeader h hi hs
  generalize headerDecode Config.params (messageBytes s) = o at hend ⊢
  cases o with
  | err code off ver =>
    obtain ⟨t, ⟨k, hk⟩, hentry⟩ := hend
    exact ⟨k, t, hk, hentry.host, hentry⟩
  | ok m =>
    obtain ⟨t, ⟨k, hk⟩, hhost, hst, hmsg, hpc, hie, hver, hbody⟩ := hend
    exact ⟨k, t, hk, hhost, hst, hmsg, hpc, hie, hver, hbody⟩

/-! ### Decode (R209) -/

/-- What a state shows of a finished decode. -/
def shownOut (s : State) : DecodeOut :=
  { result := s.result, err := s.err, msg := s.msg, body := s.body, msgValid := s.msgValid }

/-- An error entry shows a failed decode (R231). -/
theorem shownOut_of_errorEntry {e : ErrRegs} {s t : State} (h : ErrorEntry e s t) : shownOut t =
    { result := resultOfPhase e.phase, err := e, msg := Msg.empty, body := emptyBody,
      msgValid := false } := by
  rw [shownOut, h.err, h.msg, h.body, h.msgValid, h.result]

/-- A decode reaches DONE with what Decode computes: the header phase, then the loop over the rest. -/
theorem decode_shows {s : State} (h : BlockInv s) (hi : s.inputs = []) (hs : s.st = .hFlags) :
    ∃ t, Reaches s t ∧ t.st = .done ∧ SameHostSide s t ∧
      shownOut t = decodeMessage Config.params (regGet s) leaf (messageBytes s) := by
  have hheader := endsHeader h hi hs
  rw [decodeMessage]
  cases hx : headerDecode Config.params (messageBytes s) with
  | err code off ver =>
    rw [hx] at hheader
    obtain ⟨t, hreach, hentry⟩ := hheader
    exact ⟨t, hreach, hentry.st, hentry.host, shownOut_of_errorEntry hentry⟩
  | ok m =>
    rw [hx] at hheader
    obtain ⟨t, hreach, hhost, hst, hmsg, hpc, hie, hver, hbody⟩ := hheader
    have hbodyEnds := endsBody s.bufLen.toNat (hreach.blockInv h) (hhost.bus.inputs.trans hi) hst
      (by rw [remBytes, hhost.buffer.bufLen]; exact Nat.sub_le _ _)
    have hreg : regGet t = regGet s := funext₂ hhost.registry.regGet
    have hrest : subBuf s m.ieOff.toNat = (messageBytes s).drop m.ieOff.toNat := by
      rw [messageBytes, subBuf_drop, Nat.zero_add]
    rw [idxOf, hhost.buffer.subBuf, hpc, hie, Nat.sub_self, hreg, hver, hbody, hrest,
      ← messageBytes_length s] at hbodyEnds
    dsimp only
    generalize bodyLoop (regGet s) leaf (m.version.setWidth 3) (messageBytes s).length
      ((messageBytes s).drop m.ieOff.toNat) 0 { emptyBody with variant := m.version } = o
      at hbodyEnds ⊢
    cases o with
    | err code tag idx reason =>
      obtain ⟨u, hreach', hentry⟩ := hbodyEnds
      rw [hver] at hentry
      exact ⟨u, hreach.trans hreach', hentry.st, hhost.trans hentry.host,
        shownOut_of_errorEntry hentry⟩
    | ok body =>
      obtain ⟨u, hreach', hsame, hdone, hres, hval, herr, hm, hb⟩ := hbodyEnds
      refine ⟨u, hreach.trans hreach', hdone, hhost.trans hsame, ?_⟩
      rw [shownOut, hres, hval, herr, hm, hb, hmsg]

/-- Settles O17: HeaderDecode and then Body, from the state that an accepted DECODE leaves. -/
theorem decodeComputesTheDecodeFunction : Obligations.DecodeComputesTheDecodeFunction := by
  intro s h hs hi
  obtain ⟨t, ⟨k, hk⟩, hst, hhost, hshown⟩ := decode_shows h hi hs
  exact ⟨k, t, hk, hst, hhost, hshown⟩

end Sys2Proof.Machine
end

section
/-! The cells that a parser step does not read do not matter to it (R45, R46, R209, R266 (4)). -/

namespace Sys2Proof.Machine

/-! ### Two buffers -/

/-- The state with another buffer. -/
def withBuf (m : List Host.Cell) (s : State) : State := { s with buf := m }

/-- The buffer `m` has the bytes of the state's at the places read. -/
def Agrees (m : List Host.Cell) (s₀ : State) (reads : List Nat) : Prop :=
  ∀ a ∈ reads, bufByte (withBuf m s₀) a = bufByte s₀ a

/-- An outcome that goes on does so with the other buffer, and differs in nothing else. -/
def Swaps (m : List Host.Cell) (o o' : Out) : Prop := ∀ u, o = .next u → o' = .next (withBuf m u)

section
variable {m : List Host.Cell} {s₀ s : State}

theorem Swaps.next (u : State) : Swaps m (.next u) (.next (withBuf m u)) := by
  rintro v ⟨⟩
  rfl

theorem Swaps.fault (f : Fault) (o : Out) : Swaps m (.fault f) o := by
  rintro v ⟨⟩

theorem Swaps.ite {c : Prop} [Decidable c] {o₁ o₂ o₁' o₂' : Out} (h₁ : c → Swaps m o₁ o₁')
    (h₂ : ¬ c → Swaps m o₂ o₂') : Swaps m (if c then o₁ else o₂) (if c then o₁' else o₂') := by
  split
  next h => exact h₁ h
  next h => exact h₂ h

/-- Bytes that agree where the step began agree further on in the step. -/
theorem bufBytes_withBuf {a n : Nat} (hs : SameBuffer s₀ s) (h : Agrees m s₀ (byteReads a n)) :
    bufBytes (withBuf m s) a n = bufBytes s a n := by
  refine bufBytes_of_reads fun x hx => ?_
  calc bufByte (withBuf m s) x
    _ = bufByte (withBuf m s₀) x := bufByte_congr (s := withBuf m s₀) (t := withBuf m s) rfl hs.epoch x
    _ = bufByte s₀ x := h x hx
    _ = bufByte s x := (hs.bytes x).symm

/-- A guard tests the length alone. -/
theorem Swaps.need {w : Nat} {k k' : State → Out}
    (hk : s.pc.toNat + w ≤ s.bufLen.toNat → Swaps m (k s) (k' (withBuf m s))) :
    Swaps m (need s₀ w s k) (need (withBuf m s₀) w (withBuf m s) k') :=
  .ite (fun _ => .next _) fun h => hk (Nat.le_of_not_lt h)

/-- A read sees the same bytes. -/
theorem Swaps.readBuf {a n : Nat} {k k' : Nat → Out} (hs : SameBuffer s₀ s)
    (h : Agrees m s₀ (byteReads a n))
    (hk : Swaps m (k (beNat (bufBytes s a n))) (k' (beNat (bufBytes s a n)))) :
    Swaps m (readBuf a n s k) (readBuf a n (withBuf m s) k') := by
  by_cases hl : a + n ≤ s.bufLen.toNat
  · rw [readBuf_inside k hl, readBuf_inside (s := withBuf m s) k' hl, bufBytes_withBuf hs h]
    exact hk
  · have hfault : Machine.readBuf a n s k = .fault (.undefinedRead a) := by
      simp only [Machine.readBuf, memRead, if_neg hl]
    rw [hfault]
    exact .fault _ _

/-! ### The lines of a header rule -/

/-- The buffer `m` has the bytes that the lines read from the cursor `pc`. -/
def LinesAgree (m : List Host.Cell) (s₀ : State) (pc : Nat) (ls : List HeaderLine) : Prop :=
  Agrees m s₀ (linesReads s₀.bufLen.toNat pc ls)

/-- A line that fits agrees, and so do those behind it. -/
theorem LinesAgree.cons {pc : Nat} {l : HeaderLine} {ls : List HeaderLine}
    (h : LinesAgree m s₀ pc (l :: ls)) (hl : pc + l.width ≤ s₀.bufLen.toNat) :
    Agrees m s₀ (l.reads pc) ∧ LinesAgree m s₀ (pc + l.width) ls := by
  unfold LinesAgree at h
  rw [linesReads_fits ls hl] at h
  exact ⟨fun a ha => h a (List.mem_append_left _ ha), fun a ha => h a (List.mem_append_right _ ha)⟩

/-- A field that is read, and what the rule does behind it. -/
theorem Swaps.takeField {n : Nat} {ls : List HeaderLine} {k k' : Nat → State → Out}
    (hs : SameBuffer s₀ s) (h : LinesAgree m s₀ s.pc.toNat (.field n :: ls))
    (hk : ∀ u, SameBuffer s₀ u → u.pc.toNat = s.pc.toNat + n → LinesAgree m s₀ u.pc.toNat ls →
      Swaps m (k (beNat (bufBytes s s.pc.toNat n)) u)
        (k' (beNat (bufBytes s s.pc.toNat n)) (withBuf m u))) :
    Swaps m (takeField s₀ n s k) (takeField (withBuf m s₀) n (withBuf m s) k') := by
  refine .need fun hl => ?_
  obtain ⟨hreads, hrest⟩ := h.cons (hs.bufLen ▸ hl)
  have hpc := advance_toNat hl
  exact .readBuf hs hreads (hk (advance n s) (.mk' hs.buf hs.bufLen hs.epoch) hpc (hpc ▸ hrest))

/-- A field that is consumed unread. -/
theorem Swaps.skipField {n : Nat} {ls : List HeaderLine} {k k' : State → Out}
    (hs : SameBuffer s₀ s) (h : LinesAgree m s₀ s.pc.toNat (.unread n :: ls))
    (hk : ∀ u, SameBuffer s₀ u → LinesAgree m s₀ u.pc.toNat ls →
      Swaps m (k u) (k' (withBuf m u))) :
    Swaps m (skipField s₀ n s k) (skipField (withBuf m s₀) n (withBuf m s) k') := by
  refine .need fun hl => ?_
  obtain ⟨-, hrest⟩ := h.cons (hs.bufLen ▸ hl)
  exact hk (advance n s) (.mk' hs.buf hs.bufLen hs.epoch) ((advance_toNat hl).symm ▸ hrest)

/-- HDR.V0 depends on its lines alone (R102). -/
theorem headerV0_swaps (p : Params) (flags : Byte)
    (h : LinesAgree m s s.pc.toNat (headerV0Lines p flags)) :
    Swaps m (headerV0 p flags s) (headerV0 p flags (withBuf m s)) := by
  refine .ite (fun hp => ?_) fun _ => .next _
  rw [headerV0Lines, if_pos hp] at h
  exact .takeField (.refl s) h fun _ hs _ h => .takeField (.mk' hs.buf hs.bufLen hs.epoch) h
    fun _ hs _ h => .takeField (.mk' hs.buf hs.bufLen hs.epoch) h fun _ hs _ h =>
    .skipField (.mk' hs.buf hs.bufLen hs.epoch) h fun _ hs h =>
    .skipField (.mk' hs.buf hs.bufLen hs.epoch) h fun _ hs h => .skipField hs h fun _ hs h =>
    .takeField hs h fun _ _ _ _ => .next _

/-- The pair of HDR.V1 depends on its last byte alone (R103). -/
theorem headerV1Pair_swaps (hs : SameBuffer s₀ s) (h : LinesAgree m s₀ s.pc.toNat [.lastByte 2]) :
    Swaps m (headerV1Pair s₀ s) (headerV1Pair (withBuf m s₀) (withBuf m s)) := by
  refine .need fun hl => .readBuf hs ?_ (.next _)
  exact (h.cons (hs.bufLen ▸ hl)).1

/-- HDR.V1 depends on its lines alone (R103). -/
theorem headerV1_swaps (p : Params) (flags : Byte)
    (h : LinesAgree m s s.pc.toNat (headerV1Lines p flags)) :
    Swaps m (headerV1 p flags s) (headerV1 p flags (withBuf m s)) := by
  refine .ite (fun hp => ?_) fun _ => .next _
  rw [headerV1Lines, if_pos hp] at h
  refine .takeField (.refl s) h fun _ hs _ h => .takeField (.mk' hs.buf hs.bufLen hs.epoch) h
    fun _ hs _ h => .takeField (.mk' hs.buf hs.bufLen hs.epoch) h fun _ hs _ h => ?_
  refine .ite (fun hq => ?_) fun hq => ?_
  · rw [if_pos hq] at h
    exact .takeField (.mk' hs.buf hs.bufLen hs.epoch) h fun _ hs _ h =>
      headerV1Pair_swaps (.mk' hs.buf hs.bufLen hs.epoch) h
  · rw [if_neg hq] at h
    exact headerV1Pair_swaps (.mk' hs.buf hs.bufLen hs.epoch) h

/-- HDR.V1.EXT depends on the next marker alone (R104). -/
theorem headerV1Ext_swaps (p : Params) (marker : Byte)
    (h : LinesAgree m s s.pc.toNat (headerV1ExtLines p marker)) :
    Swaps m (headerV1Ext p marker s) (headerV1Ext p marker (withBuf m s)) := by
  refine .ite (fun hm => .need fun hl => ?_) fun _ => .next _
  rw [headerV1ExtLines, if_pos hm] at h
  exact .readBuf (.refl s) (h.cons hl).1 (.next _)

theorem headerV2Secondary_swaps (hs : SameBuffer s₀ s) (h : LinesAgree m s₀ s.pc.toNat [.field 4]) :
    Swaps m (headerV2Secondary s₀ s) (headerV2Secondary (withBuf m s₀) (withBuf m s)) :=
  .takeField hs h fun _ _ _ _ => .next _

/-- Behind the framing check HDR.V2 depends on its last lines alone, where it passes (R105). -/
theorem headerV2Framed_swaps (p : Params) (flags : Byte) {l : Nat} (hs : SameBuffer s₀ s)
    (h : s.bufLen.toNat = s.pc.toNat + l → LinesAgree m s₀ s.pc.toNat
      ((if teidSet p flags then [.field 4] else []) ++ [.field 4])) :
    Swaps m (headerV2Framed p flags l s₀ s)
      (headerV2Framed p flags l (withBuf m s₀) (withBuf m s)) := by
  refine .ite (fun hf => ?_) fun _ => .next _
  have hlines := h hf
  refine .ite (fun hq => ?_) fun hq => ?_
  · rw [if_pos hq] at hlines
    exact .takeField hs hlines fun _ hs _ h =>
      headerV2Secondary_swaps (.mk' hs.buf hs.bufLen hs.epoch) h
  · rw [if_neg hq] at hlines
    exact headerV2Secondary_swaps hs hlines

/-- The framing check passes where the length field, behind the message type, says so. -/
theorem framingHolds_iff : framingHolds s = true ↔
    s.bufLen.toNat = s.pc.toNat + 3 + beNat (bufBytes s (s.pc.toNat + 1) 2) := by
  simp [framingHolds]

/-- HDR.V2 depends on its lines alone, those behind the framing check where it passes (R105). -/
theorem headerV2_swaps (p : Params) (flags : Byte)
    (h : LinesAgree m s s.pc.toNat (headerV2Lines p flags (framingHolds s))) :
    Swaps m (headerV2 p flags s) (headerV2 p flags (withBuf m s)) := by
  refine .takeField (.refl s) h fun u hu hpu h => .takeField (.mk' hu.buf hu.bufLen hu.epoch) h
    fun v hv hpv h => headerV2Framed_swaps p flags (.mk' hv.buf hv.bufLen hv.epoch) fun hf => ?_
  -- The field that was read is the length field at the start of the step.
  have hpc : v.pc.toNat = s.pc.toNat + 3 := by rw [hpv, putMsg_pc, hpu]
  have hframed : framingHolds s = true := by
    rw [framingHolds_iff, ← hpc, ← hpu, ← bufBytes_congr fun i _ _ => hu.bytes i, ← hv.bufLen]
    exact hf
  rwa [hframed, if_pos rfl] at h

/-! ### The dispatch loop -/

/-- HDR.FLAGS depends on no cell: the byte is its operand (R100). -/
theorem execHdrFlags_swaps (b : Byte) : Swaps m (execHdrFlags b s) (execHdrFlags b (withBuf m s)) := by
  refine .need fun _ => ?_
  split
  · exact .next _
  · exact .next _

/-- IE.FETCH depends on no cell: the tag is its operand (R131). -/
theorem execIeFetch_swaps (t : Byte) : Swaps m (execIeFetch t s) (execIeFetch t (withBuf m s)) :=
  .ite (fun _ => .next _) fun _ => .ite (fun _ => .fault _ _) fun _ =>
    .ite (fun _ => .next _) fun _ => .next _

/-- What the parser does with an answer depends on no cell (R133 to R135). -/
theorem leafAnswered_withBuf (t : Byte) (a : LeafAns) :
    leafAnswered t a (withBuf m s) = withBuf m (leafAnswered t a s) := by
  cases a with
  | matched n =>
    by_cases hn : n = 0 ∨ remBytes s < n
    · rw [leafAnswered_badCount (s := s) hn, leafAnswered_badCount (s := withBuf m s) hn]
      rfl
    · rw [leafAnswered_matched (s := s) (by omega) (by omega),
        leafAnswered_matched (s := withBuf m s) (by omega) (show n ≤ remBytes s by omega)]
      rfl
  | notMatched => rfl
  | malformed x => rfl

/-- IE.CALL depends on the sub-buffer alone (R132, R137 (a)). -/
theorem execIeCall_swaps (t : Byte) (h : subBuf (withBuf m s) s.pc.toNat = subBuf s s.pc.toNat) :
    Swaps m (execIeCall t s) (execIeCall t (withBuf m s)) := by
  have hanswer : leafOutcome Config.params t (withBuf m s) = leafOutcome Config.params t s := by
    rw [leafOutcome_eq_leaf, leafOutcome_eq_leaf, ← h]
    rfl
  unfold execIeCall callLeaf
  rw [hanswer]
  generalize leafOutcome Config.params t s = r
  have hswap := leafAnswered_withBuf (m := m) (s := dropRequest (writeFields r.2 s)) t (leafAnsOf r.1)
  exact (congrArg Host.Outcome.next hswap).symm ▸ .next _

/-- A generic skip depends on its length field alone (R138, R139). -/
theorem skipIe_swaps (size : Nat → Nat) (t : Byte) (h : Agrees m s (skipReads s)) :
    Swaps m (skipIe size t s) (skipIe size t (withBuf m s)) := by
  refine .ite (fun _ => .next _) fun h3 => ?_
  rw [skipReads, if_neg h3] at h
  exact .readBuf (.refl s) h (.ite (fun _ => .next _) fun _ => .next _)

/-! ### The parser's step -/

/-- A word for a unit decodes alike in both states, and its operation decides. -/
theorem runWord_swaps {c : Sel} {w : RawWord}
    (h : ∀ i, decode c w = .ok i → Swaps m (exec i s) (exec i (withBuf m s))) :
    Swaps m (runWord Config.params c w s) (runWord Config.params c w (withBuf m s)) := by
  unfold runWord
  split
  next i hd => simpa only [execWith_default] using h i hd
  next => rintro v ⟨⟩

/-- An operation with an operand that the pattern `c` admits. -/
theorem ok_of_ite {c : Prop} [Decidable c] {i j : Instr} {r : Reject}
    (h : (if c then Decoded.ok j else .reject r) = .ok i) : c ∧ i = j := by
  split at h
  next hc => exact ⟨hc, by cases h; rfl⟩
  next => cases h

/-- The byte at an offset that is read, if the message has one there, is the same. -/
theorem wordAt_withBuf {a : Nat}
    (h : Agrees m s (if a < s.bufLen.toNat then byteReads a 1 else [])) :
    wordAt (withBuf m s) a = wordAt s a := by
  unfold wordAt
  change (if a < s.bufLen.toNat then _ else _) = _
  split
  next hl =>
    rw [if_pos hl] at h
    exact h a (by simp)
  next => rfl

/-- The parser's step depends on the bytes that it reads, and at IE.CALL on the sub-buffer. -/
theorem parserEdge_swaps (h : Agrees m s (parserReads Config.params s))
    (hcall : s.st = .bCall → subBuf (withBuf m s) s.pc.toNat = subBuf s s.pc.toNat) :
    Swaps m (parserEdge Config.params s) (parserEdge Config.params (withBuf m s)) := by
  have hst : (withBuf m s).st = s.st := rfl
  unfold parserReads at h
  cases hs : s.st with
  | idle | done =>
    simp only [parserEdge, parserFetch, hst, hs]
    exact .next _
  | hFlags =>
    simp only [hs] at h
    simp only [parserEdge, parserFetch, hst, hs, wordAt_withBuf h]
    refine runWord_swaps fun i hd => ?_
    have hi : i = .hdrUnsup (versionBits (wordAt s 0)) (lowBits (wordAt s 0)) ∨
        i = .hdrFlags (wordAt s 0) := by
      simp only [decode, decodeBytes, decodeOne, decodeByte] at hd
      split at hd
      · exact .inl (by cases hd; rfl)
      · exact .inr (by cases hd; rfl)
    rcases hi with rfl | rfl
    · exact .next _
    · exact execHdrFlags_swaps _
  | h0 =>
    simp only [hs] at h
    simp only [parserEdge, parserFetch, hst, hs]
    refine runWord_swaps fun i hd => ?_
    obtain ⟨hv, rfl⟩ := ok_of_ite hd
    rw [exec, exec, execHdrV0, execHdrV0, ← hv, headerByte_split]
    exact headerV0_swaps _ _ h
  | h1 =>
    simp only [hs] at h
    simp only [parserEdge, parserFetch, hst, hs]
    refine runWord_swaps fun i hd => ?_
    obtain ⟨hv, rfl⟩ := ok_of_ite hd
    rw [exec, exec, execHdrV1, execHdrV1, ← hv, headerByte_split]
    exact headerV1_swaps _ _ h
  | h1Ext =>
    simp only [hs] at h
    simp only [parserEdge, parserFetch, hst, hs]
    refine runWord_swaps fun i hd => ?_
    cases hd
    exact headerV1Ext_swaps _ _ h
  | h2 =>
    simp only [hs] at h
    simp only [parserEdge, parserFetch, hst, hs]
    refine runWord_swaps fun i hd => ?_
    obtain ⟨hv, rfl⟩ := ok_of_ite hd
    rw [exec, exec, execHdrV2, execHdrV2, ← hv, headerByte_split]
    exact headerV2_swaps _ _ h
  | hEnd => 
    simp only [hs] at h
    simp only [parserEdge, parserFetch, hst, hs]
    refine runWord_swaps fun i hd => ?_
    obtain ⟨hv, rfl⟩ := ok_of_ite hd
    exact .next _
  | bFetch =>
    simp only [hs] at h
    have hword : wordAt (withBuf m s) (withBuf m s).pc.toNat = wordAt s s.pc.toNat := wordAt_withBuf h
    simp only [parserEdge, parserFetch, hst, hs, hword]
    refine runWord_swaps fun i hd => ?_
    cases hd
    exact execIeFetch_swaps _
  | bCall =>
    simp only [parserEdge, parserFetch, hst, hs]
    refine runWord_swaps fun i hd => ?_
    cases hd
    exact execIeCall_swaps _ (hcall hs)
  | bFallback =>
    simp only [hs] at h
    by_cases hv : s.ver = 2
    · have hv' : (withBuf m s).ver = 2 := hv
      simp only [parserEdge, parserFetch, hst, hs, if_pos hv, if_pos hv']
      refine runWord_swaps fun i hd => ?_
      cases hd
      rw [if_pos (.inl hv)] at h
      exact skipIe_swaps _ _ h
    · have hv' : (withBuf m s).ver ≠ 2 := hv
      simp only [parserEdge, parserFetch, hst, hs, if_neg hv, if_neg hv']
      refine runWord_swaps fun i hd => ?_
      simp only [decode, decodeBytes, decodeOne, decodeByte] at hd
      split at hd
      next ht =>
        cases hd
        rw [if_pos (.inr ht)] at h
        exact skipIe_swaps _ _ h
      next =>
        cases hd
        exact .next _

/-! ### The reads themselves -/

/-- Where the length field of HDR.V2 does not fit, the lines behind the framing check are not read. -/
theorem headerV2Lines_short (p : Params) (flags : Byte) (framed : Bool) {bufLen pc : Nat}
    (h : bufLen < pc + 3) : linesReads bufLen pc (headerV2Lines p flags framed) =
      linesReads bufLen pc [.field 1, .field 2] := by
  by_cases h1 : bufLen < pc + 1
  · rw [headerV2Lines, List.cons_append, linesReads_short _ h1, linesReads_short _ h1]
  · have h1' : pc + (HeaderLine.field 1).width ≤ bufLen := Nat.le_of_not_lt h1
    rw [headerV2Lines, List.cons_append, List.cons_append, linesReads_fits _ h1',
      linesReads_fits _ h1', linesReads_short _ h, linesReads_short _ h]

/-- Where it fits, HDR.V2 reads it. -/
theorem LinesAgree.framing {p : Params} {flags : Byte} {framed : Bool}
    (h : LinesAgree m s s.pc.toNat (headerV2Lines p flags framed))
    (hl : s.pc.toNat + 3 ≤ s.bufLen.toNat) : framingHolds (withBuf m s) = framingHolds s := by
  obtain ⟨-, hrest⟩ := h.cons (show s.pc.toNat + 1 ≤ s.bufLen.toNat by omega)
  obtain ⟨hfield, -⟩ := hrest.cons hl
  have hbytes : bufBytes (withBuf m s) (s.pc.toNat + 1) 2 = bufBytes s (s.pc.toNat + 1) 2 :=
    bufBytes_withBuf (.refl s) hfield
  rw [framingHolds, framingHolds, ← hbytes]
  rfl

/-- Which bytes the parser reads depends on those bytes alone. -/
theorem parserReads_withBuf (h : Agrees m s (parserReads Config.params s)) :
    parserReads Config.params (withBuf m s) = parserReads Config.params s := by
  have hst : (withBuf m s).st = s.st := rfl
  cases hs : s.st with
  | h2 =>
    simp only [parserReads, hs] at h
    simp only [parserReads, hst, hs]
    by_cases hl : s.pc.toNat + 3 ≤ s.bufLen.toNat
    · rw [LinesAgree.framing h hl]
      rfl
    · have hshort : s.bufLen.toNat < s.pc.toNat + 3 := Nat.lt_of_not_le hl
      rw [headerV2Lines_short _ _ (framingHolds s) hshort]
      exact headerV2Lines_short _ _ _ hshort
  | idle | hEnd | bCall | done => simp only [parserReads, hst, hs]
  | hFlags | h0 | h1 | h1Ext | bFetch | bFallback =>
    simp only [parserReads, hst, hs]
    rfl

/-- The bytes counted as the core's reads lie inside the message (R46). -/
theorem parserReads_inside (h : BlockInv s) {a : Nat} (ha : a ∈ parserReads Config.params s) :
    a < s.bufLen.toNat := by
  unfold parserReads at ha
  cases hs : s.st with
  | idle | hEnd | bCall | done => simp [hs] at ha
  | hFlags | bFetch =>
    simp only [hs] at ha
    split at ha
    · rw [mem_byteReads] at ha
      omega
    · simp at ha
  | h0 =>
    simp only [hs] at ha
    exact (linesReads_inside (lastByte_zero_notMem_headerV0Lines _ _) ha).2
  | h1 =>
    simp only [hs] at ha
    exact (linesReads_inside (lastByte_zero_notMem_headerV1Lines _ _) ha).2
  | h1Ext =>
    simp only [hs] at ha
    exact (linesReads_inside (lastByte_zero_notMem_headerV1ExtLines _) ha).2
  | h2 =>
    simp only [hs] at ha
    exact (linesReads_inside (lastByte_zero_notMem_headerV2Lines _ _ _) ha).2
  | bFallback =>
    have hcursor := h.cursorInside (by simp [busy, hs])
    simp only [hs] at ha
    split at ha
    · unfold skipReads remBytes at ha
      split at ha
      · simp at ha
      · rw [mem_byteReads] at ha
        omega
    · simp at ha

end

/-- Cells beyond the message are read neither by the core nor by a leaf decoder (R45, R46). -/
theorem sameReads_of_sameMessage {s t : State} (h : BlockInv s) (hi : s.inputs = [])
    (hst : sameMessage s t) : sameReads s t := by
  obtain ⟨hbuf, hbytes⟩ := hst
  refine ⟨hbuf, fun a ha => hbytes a (parserReads_inside h (coreReads_quiet hi ▸ ha)), fun hs => ?_⟩
  obtain ⟨m, rfl⟩ := hbuf
  exact bufBytes_congr fun i _ hlt => hbytes i (by
    have := h.cursorInside (by simp [busy, hs])
    dsimp only at hlt
    omega)

/-- Two states that differ in no cell that the step reads take steps that differ in the buffer alone. -/
theorem step_of_sameReads {s t u : State} (hst : sameReads s t) (hi : s.inputs = [])
    (hstep : step s = .next u) : coreReads Config.params t = coreReads Config.params s ∧
      step t = .next { u with buf := t.buf } := by
  obtain ⟨⟨m, rfl⟩, hreads, hcall⟩ := hst
  have hi' : (withBuf m s).inputs = [] := hi
  rw [coreReads_quiet hi] at hreads ⊢
  rw [step_quiet hi] at hstep
  exact ⟨(coreReads_quiet hi').trans (parserReads_withBuf hreads),
    (step_quiet hi').trans (parserEdge_swaps hreads hcall u hstep)⟩

/-- With nothing at the pins a step leaves BUF and its length. -/
theorem step_quiet_sameBuffer {s t : State} (hi : s.inputs = [])
    (hstep : step s = .next t) : SameBuffer s t := by
  rw [step_quiet hi] at hstep
  by_cases hb : busy s = true
  · exact (sameMemory_of_memorySide (parserEdge_keeps_memory hb hstep)).1
  · rw [parserEdge_quiet (by rw [busy_iff] at hb; tauto)] at hstep
    cases hstep
    exact .refl s

/-- Settles O18: the two steps run in parallel (`step_of_sameReads`), the reads lie inside the message. -/
theorem cellsBeyondTheMessageDoNotMatter : Obligations.CellsBeyondTheMessageDoNotMatter := by
  refine ⟨fun s t u hst h _ hi hstep => ?_, fun s a hinv ha => ?_, fun s t u => step_of_sameReads⟩
  · obtain ⟨-, ht⟩ := step_of_sameReads (sameReads_of_sameMessage h hi hst) hi hstep
    have hsame := step_quiet_sameBuffer hi hstep
    obtain ⟨⟨m, rfl⟩, hbytes⟩ := hst
    refine ⟨_, ht, ⟨m, rfl⟩, fun a ha => ?_⟩
    calc bufByte (withBuf m u) a
      _ = bufByte (withBuf m s) a :=
        bufByte_congr (s := withBuf m s) (t := withBuf m u) rfl hsame.epoch a
      _ = bufByte s a := hbytes a (hsame.bufLen ▸ ha)
      _ = bufByte u a := (hsame.bytes a).symm
  · unfold coreReads at ha
    split at ha
    · exact parserReads_inside hinv ha
    · simp at ha

end Sys2Proof.Machine
end

section
/-! The units that a leaf decoder calls: the field readers (R160 to R163), the frame primitives (R164 to
R171) and the byte-serial splitter (R170). -/

namespace Sys2Proof.Machine

/-! ### Field readers -/

/-- A value on the answer lines. -/
theorem setWidth_eq_ofNat {w : Nat} (v : BitVec w) : v.setWidth 64 = BitVec.ofNat 64 v.toNat :=
  (BitVec.ofNat_toNat 64 v).symm

section
variable {u : State} {q : LeafReq} {call : UnitCall} {c : Sel} {n : Nat} {l : List Byte}

/-- A call whose guard holds runs its unit on the bytes that fit. -/
theorem unitEdge_guarded_fits (hq : u.leafReq = some q) (hw : callWord q call u = guarded c n l)
    (hn : n ≤ l.length) :
    unitEdge Config.params call u = runWord Config.params c (.bytes (l.take n)) u := by
  rw [guarded, if_pos hn] at hw
  simp only [unitEdge, hq, hw]

/-- A call whose guard fails gets the bounds failure. -/
theorem unitEdge_guarded_short (hq : u.leafReq = some q) (hw : callWord q call u = guarded c n l)
    (hn : l.length < n) :
    unitEdge Config.params call u = .next (answer (.frame boundsFailure) u) := by
  rw [guarded, if_neg (Nat.not_le.mpr hn)] at hw
  simp only [unitEdge, hq, hw]

end

/-- A field reader called inside the outstanding invocation reads its bytes, or fails on the bounds. -/
theorem reader_step {s : State} {o : Off} {r : List Input} {q : LeafReq} {n : Nat} {call : UnitCall}
    {c : Sel} (hpos : 0 < n) (hi : s.inputs = .unitCall call :: r) (hq : s.leafReq = some q)
    (hw : ∀ u, callWord q call u = guarded c n (subBuf u (u.pc.toNat + o.toNat)))
    (hrun : ∀ {l : List Byte}, l.length = n → ∀ u, runWord Config.params c (.bytes l) u =
      .next (answer (.field (BitVec.ofNat 64 (beNat l))) u)) :
    (s.pc.toNat + o.toNat + n ≤ s.bufLen.toNat → ∃ t, step s = .next t ∧ OnlyAnswer
      (.field (BitVec.ofNat 64 (beNat (bufBytes s (s.pc.toNat + o.toNat) n))))
      { s with inputs := r } t) ∧
    (s.bufLen.toNat < s.pc.toNat + o.toNat + n → ∃ t, step s = .next t ∧
      OnlyAnswer (.frame (.malformed 0x01)) { s with inputs := r } t) := by
  have hstep : step s = unitEdge Config.params call { s with inputs := r } := step_input hi
  have hlen := subBuf_length s (s.pc.toNat + o.toNat)
  refine ⟨fun hl => ⟨_, ?_, answer_onlyAnswer _ _⟩, fun hl => ⟨_, ?_, answer_onlyAnswer _ _⟩⟩
  · have htake : (subBuf s (s.pc.toNat + o.toNat)).take n = _ := subBuf_take hl
    have hrunTake := hrun (l := (subBuf s (s.pc.toNat + o.toNat)).take n)
      (by rw [htake, bufBytes_length]) { s with inputs := r }
    rw [htake] at hrunTake
    have hn : n ≤ (subBuf s (s.pc.toNat + o.toNat)).length := by omega
    exact (hstep.trans (unitEdge_guarded_fits hq (hw _) hn)).trans
      (htake ▸ hrunTake)
  · have hn : (subBuf s (s.pc.toNat + o.toNat)).length < n := by omega
    exact hstep.trans (unitEdge_guarded_short hq (hw _) hn)

/-- Settles O46. -/
theorem fieldReadersDeliverBigEndianValues : Obligations.FieldReadersDeliverBigEndianValues := by
  refine ⟨fun s => ⟨fun v => ?_, fun v => ?_, fun v => ?_, fun v => ?_⟩, ?_⟩
  · exact ⟨_, rfl, setWidth_eq_ofNat v ▸ answer_onlyAnswer _ s⟩
  · exact ⟨_, rfl, setWidth_eq_ofNat v ▸ answer_onlyAnswer _ s⟩
  · exact ⟨_, rfl, setWidth_eq_ofNat v ▸ answer_onlyAnswer _ s⟩
  · exact ⟨_, rfl, by
      rw [BitVec.ofNat_toNat, BitVec.setWidth_eq]
      exact answer_onlyAnswer _ s⟩
  · rintro s s' o r q n call hcall hi hq rfl
    simp only [Prod.mk.injEq] at hcall
    rcases hcall with ⟨rfl, rfl⟩ | ⟨rfl, rfl⟩ | ⟨rfl, rfl⟩ | ⟨rfl, rfl⟩
    · exact reader_step (by decide) hi hq (fun _ => rfl) runWord_rdU8
    · exact reader_step (by decide) hi hq (fun _ => rfl) runWord_rdBe16
    · exact reader_step (by decide) hi hq (fun _ => rfl) runWord_rdBe32
    · exact reader_step (by decide) hi hq (fun _ => rfl) runWord_rdBe64

/-! ### Matching primitives -/

/-- Settles O47. -/
theorem tvSplitsTheFrame : Obligations.TvSplitsTheFrame := by
  intro sub expected n s
  refine ⟨_, _, rfl, answer_onlyAnswer _ s, ?_⟩
  cases sub with
  | nil => simp [tvFrame, boundsFailure, Config.reasonBounds]
  | cons t rest =>
    refine ⟨by simp, fun x hx hne => ?_, fun hx hl => ?_, fun hx hl => ?_⟩
    · obtain rfl : t = x := by simpa using hx
      rw [tvFrame, if_pos hne]
    · obtain rfl : t = expected := by simpa using hx
      rw [tvFrame, if_neg (by simp), if_pos hl]
      rfl
    · obtain rfl : t = expected := by simpa using hx
      rw [tvFrame, if_neg (by simp), if_neg (Nat.not_lt.mpr hl)]
      refine ⟨_, rfl, ?_, fun j hj => ?_⟩
      · rw [List.length_take]
        rw [List.length_cons] at hl
        omega
      · rw [List.getElem?_take_of_lt hj, Nat.add_comm, List.getElem?_cons_succ]

/-- A sub-buffer whose second and third bytes are given. -/
theorem exists_of_lengthBytes {sub : List Byte} {hi lo : Byte} (h1 : sub[1]? = some hi)
    (h2 : sub[2]? = some lo) : ∃ t rest, sub = t :: hi :: lo :: rest := by
  match sub, h1, h2 with
  | t :: _ :: _ :: rest, h1, h2 =>
    simp only [List.getElem?_cons_succ, List.getElem?_cons_zero, Option.some.injEq] at h1 h2
    exact ⟨t, rest, by rw [h1, h2]⟩

/-- What both forms of TLV do before their length field is known. -/
theorem tlv_short {sub : List Byte} {expected : Byte} (hl : sub.length < 3)
    (hx : sub = [] ∨ sub[0]? = some expected) :
    tlv01Frame sub expected = boundsFailure ∧ tlv2Frame sub expected = boundsFailure := by
  match sub, hl with
  | [], _ => exact ⟨rfl, rfl⟩
  | [t], _ | [t, _], _ =>
    obtain rfl : t = expected := by simpa using hx
    simp [tlv01Frame, tlv2Frame]

/-- Both forms of TLV compare the tag first (R171). -/
theorem tlv_other {sub : List Byte} {expected x : Byte} (hx : sub[0]? = some x) (hne : x ≠ expected) :
    tlv01Frame sub expected = .notMatched ∧ tlv2Frame sub expected = .notMatched := by
  match sub, hx with
  | t :: rest, hx =>
    obtain rfl : t = x := by simpa using hx
    exact ⟨if_pos hne, if_pos hne⟩

/-- Settles O48. -/
theorem tlv01SplitsTheFrame : Obligations.Tlv01SplitsTheFrame := by
  intro sub expected s
  refine ⟨_, _, rfl, answer_onlyAnswer _ s, fun hl => ?_, fun x hx hne => (tlv_other hx hne).1,
    fun hx hl => (tlv_short hl (.inr hx)).1, fun hi lo hx h1 h2 => ?_⟩
  · exact (tlv_short (by omega) (.inl (List.length_eq_zero_iff.mp hl))).1
  · obtain ⟨t, rest, rfl⟩ := exists_of_lengthBytes h1 h2
    obtain rfl : t = expected := by simpa using hx
    rw [tlv01Frame, if_neg (by simp)]
    simp only [tlv01Size, be16_toNat]
    refine ⟨fun hl => if_pos hl, fun hl => ?_⟩
    rw [if_neg (Nat.not_lt.mpr hl)]
    refine ⟨be16 hi lo, _, by rw [be16_toNat], be16_toNat hi lo, ?_, fun j hj => ?_⟩
    · rw [List.length_take, be16_toNat]
      simp only [List.length_cons] at hl
      omega
    · rw [be16_toNat] at hj
      rw [List.getElem?_take_of_lt hj, Nat.add_comm]
      rfl

/-- Settles O49. -/
theorem tlv2SplitsTheFrame : Obligations.Tlv2SplitsTheFrame := by
  intro sub expected s
  refine ⟨_, _, rfl, answer_onlyAnswer _ s, fun hl => ?_, fun x hx hne => (tlv_other hx hne).2,
    fun hx hl => (tlv_short hl (.inr hx)).2, fun hi lo hx h1 h2 => ?_⟩
  · exact (tlv_short (by omega) (.inl (List.length_eq_zero_iff.mp hl))).2
  · obtain ⟨t, rest, rfl⟩ := exists_of_lengthBytes h1 h2
    obtain rfl : t = expected := by simpa using hx
    rw [tlv2Frame, if_neg (by simp)]
    simp only [tlv2Size, be16_toNat]
    refine ⟨fun hl => if_pos hl, fun hl => ?_⟩
    rw [if_neg (Nat.not_lt.mpr hl)]
    cases rest with
    | nil => simp only [List.length_cons, List.length_nil] at hl; omega
    | cons inst value =>
      refine ⟨be16 hi lo, inst, _, by rw [be16_toNat]; rfl, be16_toNat hi lo, rfl, ?_, fun j hj => ?_⟩
      · rw [List.length_take, be16_toNat]
        simp only [List.length_cons] at hl
        simp only [List.tail_cons]
        omega
      · rw [be16_toNat] at hj
        rw [List.getElem?_take_of_lt hj, Nat.add_comm]
        rfl

/-! ### Generic skips -/

/-- What both skips do: the answer, and the length field latched for the parser. -/
theorem skip_answers {sub : List Byte} {s : State} {size : Nat} {i : Instr}
    (h : (i, size) = (.skip01 sub, 3) ∨ (i, size) = (.skip2 sub, 4)) :
    exec i s = .next (answer (.frame (skipFrame (fun n => size + n) sub)) (latchForParser sub s)) := by
  simp only [Prod.mk.injEq] at h
  rcases h with ⟨rfl, rfl⟩ | ⟨rfl, rfl⟩ <;> rfl

/-- Settles O50. -/
theorem skipPrimitivesAnswerTheFrameSize : Obligations.SkipPrimitivesAnswerTheFrameSize := by
  intro sub s size i h
  refine ⟨_, _, skip_answers h, answer_onlyAnswer _ (latchForParser sub s), fun hl => ?_,
    fun hi lo h1 h2 => ?_⟩
  · have hnone := lengthField_short hl
    refine ⟨by rw [skipFrame, hnone]; rfl, ?_⟩
    simp [latchForParser, hnone]
  · obtain ⟨t, rest, rfl⟩ := exists_of_lengthBytes h1 h2
    refine ⟨fun hq => ?_, fun hq => ?_, ?_⟩
    · simp [latchForParser, hq, lengthField, be16_toNat]
    · obtain ⟨q, hq⟩ := Option.ne_none_iff_exists'.mp hq
      rw [answer_lenfld, latchForParser_of_called hq]
    · simp only [skipFrame, lengthField, be16_toNat]
      rfl

/-- A bounds failure is no match. -/
theorem boundsFailure_ne_matched {n : Nat} {len : Option (BitVec 16)} {inst : Option Byte}
    {value : List Byte} : boundsFailure ≠ .matched n len inst value := nofun

/-- A generic skip that matches has its frame in the sub-buffer. -/
theorem le_of_skipFrame {size : Nat → Nat} (hsize : ∀ n, 1 ≤ size n) {sub : List Byte} {n : Nat}
    {len : Option (BitVec 16)} {inst : Option Byte} {value : List Byte}
    (h : skipFrame size sub = .matched n len inst value) : 1 ≤ n ∧ n ≤ sub.length := by
  unfold skipFrame at h
  split at h
  · exact absurd h boundsFailure_ne_matched
  next l hl =>
    split at h
    · exact absurd h boundsFailure_ne_matched
    next hfit =>
      cases h
      exact ⟨hsize _, Nat.le_of_not_lt hfit⟩

/-- TV that matches has its frame in the sub-buffer. -/
theorem le_of_tvFrame {sub : List Byte} {expected : Byte} {m n : Nat} {len : Option (BitVec 16)}
    {inst : Option Byte} {value : List Byte}
    (h : tvFrame sub expected m = .matched n len inst value) : 1 ≤ n ∧ n ≤ sub.length := by
  unfold tvFrame at h
  split at h
  · exact absurd h boundsFailure_ne_matched
  · split_ifs at h with ht hfit
    · exact absurd h boundsFailure_ne_matched
    · cases h
      exact ⟨Nat.le_add_right 1 m, Nat.le_of_not_lt hfit⟩

/-- TLV01 that matches has its frame in the sub-buffer. -/
theorem le_of_tlv01Frame {sub : List Byte} {expected : Byte} {n : Nat} {len : Option (BitVec 16)}
    {inst : Option Byte} {value : List Byte}
    (h : tlv01Frame sub expected = .matched n len inst value) : 1 ≤ n ∧ n ≤ sub.length := by
  unfold tlv01Frame at h
  split at h
  · exact absurd h boundsFailure_ne_matched
  · split_ifs at h with ht
    split at h
    · dsimp only at h
      split_ifs at h with hfit
      · exact absurd h boundsFailure_ne_matched
      · cases h
        exact ⟨by rw [tlv01Size]; omega, Nat.le_of_not_lt hfit⟩
    · exact absurd h boundsFailure_ne_matched

/-- TLV2 that matches has its frame in the sub-buffer. -/
theorem le_of_tlv2Frame {sub : List Byte} {expected : Byte} {n : Nat} {len : Option (BitVec 16)}
    {inst : Option Byte} {value : List Byte}
    (h : tlv2Frame sub expected = .matched n len inst value) : 1 ≤ n ∧ n ≤ sub.length := by
  unfold tlv2Frame at h
  split at h
  · exact absurd h boundsFailure_ne_matched
  · split_ifs at h with ht
    split at h
    · dsimp only at h
      split_ifs at h with hfit
      · exact absurd h boundsFailure_ne_matched
      · cases h
        exact ⟨by rw [tlv2Size]; omega, Nat.le_of_not_lt hfit⟩
    · exact absurd h boundsFailure_ne_matched

/-- Settles O51. -/
theorem matchedCountsLieInsideTheSubBuffer : Obligations.MatchedCountsLieInsideTheSubBuffer := by
  intro k sub expected n len inst value h
  cases k with
  | tv m => exact le_of_tvFrame h
  | tlv01 => exact le_of_tlv01Frame h
  | tlv2 => exact le_of_tlv2Frame h
  | skip01 => exact le_of_skipFrame (fun n => by rw [tlv01Size]; omega) h
  | skip2 => exact le_of_skipFrame (fun n => by rw [tlv2Size]; omega) h

/-! ### The byte-serial splitter -/

/-- The splitter is done with the answer `a` within `m` steps. -/
def SplitsTo (k : SplitKind) (sub : List Byte) (expected : Byte) (m : Nat) (u : Splitter)
    (a : FrameAns) : Prop :=
  ∃ m', m' ≤ m ∧ (splitRun k sub expected m' u).st = .sDone a

section
variable {k : SplitKind} {sub : List Byte} {expected : Byte} {m : Nat} {u : Splitter} {a : FrameAns}

theorem SplitsTo.done (h : u.st = .sDone a) : SplitsTo k sub expected m u a := ⟨0, Nat.zero_le _, h⟩

theorem SplitsTo.step (h : SplitsTo k sub expected m (splitStep k sub expected u) a) :
    SplitsTo k sub expected (m + 1) u a := by
  obtain ⟨m', hm, hrun⟩ := h
  exact ⟨m' + 1, Nat.succ_le_succ hm, hrun⟩

/-- One step that is done. -/
theorem SplitsTo.of_done (h : (splitStep k sub expected u).st = .sDone a) :
    SplitsTo k sub expected (m + 1) u a := .step (.done h)

theorem SplitsTo.mono {m' : Nat} (hm : m ≤ m') (h : SplitsTo k sub expected m u a) :
    SplitsTo k sub expected m' u a := by
  obtain ⟨i, hi, hrun⟩ := h
  exact ⟨i, hi.trans hm, hrun⟩

/-- The value bytes that a form delivers of those it passes. -/
def SplitKind.delivered (k : SplitKind) (l : List Byte) : List Byte := if k.matching then l else []

/-- The answer of `S_DONE`, which takes the parts of the frame alone. -/
def splitAnswerOf (k : SplitKind) (lenfld : BitVec 16) (inst : Option Byte) (value : List Byte) :
    FrameAns :=
  splitAnswer k { splitStart with lenfld := lenfld, inst := inst, value := value }

theorem splitAnswer_eq (k : SplitKind) (u : Splitter) :
    splitAnswer k u = splitAnswerOf k u.lenfld u.inst u.value := by
  cases k <;> rfl

/-- A value byte that is passed first. -/
theorem delivered_cons (k : SplitKind) (v : List Byte) (b : Byte) (l : List Byte) :
    (if k.matching then v ++ [b] else v) ++ k.delivered l = v ++ k.delivered (b :: l) := by
  unfold SplitKind.delivered
  split <;> simp

/-- `S_VALUE` passes the value and answers with it (R170). -/
theorem splitsTo_value (n : Nat) (hs : u.st = .sValue) (hn : u.vcnt.toNat = n)
    (hl : u.fpos + n ≤ sub.length) :
    SplitsTo k sub expected (n + 1) u (splitAnswerOf k u.lenfld u.inst
      (u.value ++ k.delivered ((sub.drop u.fpos).take n))) := by
  induction n generalizing u with
  | zero =>
    have hz : u.vcnt = 0 := BitVec.eq_of_toNat_eq hn
    refine .of_done ?_
    simp only [splitStep, hs, hz, if_true, List.take_zero, SplitKind.delivered, ite_self,
      List.append_nil, splitAnswer_eq]
  | succ n ih =>
    have hz : u.vcnt ≠ 0 := fun hz => by rw [hz] at hn; simp at hn
    have hlt : u.fpos < sub.length := by omega
    have hget : sub[u.fpos]? = some sub[u.fpos] := List.getElem?_eq_getElem hlt
    refine .step ?_
    simp only [splitStep, hs, if_neg hz, hget]
    have hrest := ih (u := { u with
      vcnt := u.vcnt - 1, fpos := u.fpos + 1
      value := if k.matching then u.value ++ [sub[u.fpos]] else u.value }) hs (by
        dsimp only
        rw [BitVec.toNat_sub_of_le (by rw [BitVec.le_def, hn]; simp), hn]
        simp) (by
        dsimp only
        omega)
    rw [List.drop_eq_getElem_cons hlt, List.take_succ_cons, ← delivered_cons]
    simpa only [hs] using hrest

/-! ### The frames, step by step -/

/-- The length field, byte by byte. -/
theorem be16_or (hi lo : Byte) : be16 hi 0 ||| lo.setWidth 16 = be16 hi lo := by
  have hlo := lo.isLt
  apply BitVec.eq_of_toNat_eq
  rw [BitVec.toNat_or, be16_toNat, be16_toNat, BitVec.toNat_setWidth_of_le (by decide)]
  exact (Nat.two_pow_add_eq_or_of_lt (i := 8) hlo hi.toNat).symm

/-- A tag that is not the expected one ends a matching form at once (R171). -/
theorem splitsTo_other {t : Byte} {rest : List Byte} (hk : k.matching = true) (ht : t ≠ expected) :
    SplitsTo k (t :: rest) expected 1 splitStart .notMatched := by
  refine .of_done ?_
  simp [splitStep, splitStart, hk, ht]

/-- TV, byte by byte. -/
theorem splitsTo_tv (n : BitVec 16) (sub : List Byte) (expected : Byte) :
    SplitsTo (.tv n) sub expected (sub.length + 3) splitStart (tvFrame sub expected n.toNat) := by
  cases sub with
  | nil => exact .of_done rfl
  | cons t rest =>
    rw [tvFrame]
    split_ifs with ht hl
    · exact .mono (Nat.le_add_left 1 _) (splitsTo_other rfl ht)
    · refine .of_done ?_
      rw [not_not] at ht
      simp only [List.length_cons] at hl
      simp [splitStep, splitStart, ht, hl, splitFail]
    · rw [not_not] at ht
      have hstep : splitStep (.tv n) (t :: rest) expected splitStart =
          { splitStart with st := .sValue, fpos := 1, vcnt := n } := by
        simp only [List.length_cons] at hl
        simp [splitStep, splitStart, ht, hl]
      have hvalue := splitsTo_value (k := .tv n) (sub := t :: rest) (expected := expected)
        (u := { splitStart with st := .sValue, fpos := 1, vcnt := n }) n.toNat rfl rfl
        (Nat.le_of_not_lt hl)
      refine .mono (m := n.toNat + 2) ?_ (.step (hstep ▸ hvalue))
      rw [tvSize] at hl
      omega

/-- What a TLV form answers on a frame with a length field, once its tag is accepted. -/
theorem splitReference_tlv (hk : ∀ n, k ≠ .tv n) {t hi lo : Byte} {rest : List Byte}
    (ht : k.matching = true → t = expected) :
    splitReference k (t :: hi :: lo :: rest) expected =
      if rest.length + 3 < k.prefixLen + (be16 hi lo).toNat then boundsFailure
      else splitAnswerOf k (be16 hi lo) (if k.hasInst then rest.head? else none)
        (k.delivered ((rest.drop (k.prefixLen - 3)).take (be16 hi lo).toNat)) := by
  cases k with
  | tv n => exact absurd rfl (hk n)
  | tlv01 =>
    obtain rfl := ht rfl
    simp [splitReference, tlv01Frame, splitAnswerOf, splitAnswer, SplitKind.delivered,
      SplitKind.prefixLen, SplitKind.hasInst, SplitKind.matching]
  | tlv2 =>
    obtain rfl := ht rfl
    simp [splitReference, tlv2Frame, splitAnswerOf, splitAnswer, SplitKind.delivered,
      SplitKind.prefixLen, SplitKind.hasInst, SplitKind.matching]
  | skip01 =>
    simp [splitReference, skip01Frame, skipFrame, lengthField, splitAnswerOf, splitAnswer,
      SplitKind.prefixLen, SplitKind.hasInst]
  | skip2 =>
    simp [splitReference, skip2Frame, skipFrame, lengthField, splitAnswerOf, splitAnswer,
      SplitKind.prefixLen, SplitKind.hasInst]

/-- The splitter behind the length field `len` of a TLV form. -/
def behindLength (len : BitVec 16) : Splitter :=
  { splitStart with st := .sLenLo, fpos := 3, lenfld := len }

section
variable {t hi lo : Byte} {rest : List Byte}

/-- The first three steps of a TLV form whose tag is accepted. -/
theorem splitsTo_of_behindLength (hk : ∀ n, k ≠ .tv n) (ht : k.matching = true → t = expected)
    (h : SplitsTo k (t :: hi :: lo :: rest) expected m
      (if rest.length + 3 < k.prefixLen + (be16 hi lo).toNat then splitFail (behindLength (be16 hi lo))
       else if k.hasInst then { behindLength (be16 hi lo) with st := .sInst }
       else { behindLength (be16 hi lo) with st := .sValue, vcnt := be16 hi lo }) a) :
    SplitsTo k (t :: hi :: lo :: rest) expected (m + 3) splitStart a := by
  have htag : splitStep k (t :: hi :: lo :: rest) expected splitStart =
      { splitStart with st := .sLenHi, fpos := 1 } := by
    cases k with
    | tv n => exact absurd rfl (hk n)
    | tlv01 | tlv2 => simp [splitStep, splitStart, SplitKind.matching, ht rfl]
    | skip01 | skip2 => simp [splitStep, splitStart, SplitKind.matching]
  have hlo : splitStep k (t :: hi :: lo :: rest) expected
      { splitStart with st := .sLenLo, fpos := 2, lenfld := be16 hi 0 } =
      (if rest.length + 3 < k.prefixLen + (be16 hi lo).toNat then splitFail (behindLength (be16 hi lo))
       else if k.hasInst then { behindLength (be16 hi lo) with st := .sInst }
       else { behindLength (be16 hi lo) with st := .sValue, vcnt := be16 hi lo }) := by
    rw [← be16_or hi lo]
    rfl
  refine .step ?_
  rw [htag]
  refine .step (.step ?_)
  exact hlo ▸ h

/-- A TLV form on a frame with a length field, byte by byte. -/
theorem splitsTo_tlv (hk : ∀ n, k ≠ .tv n) (ht : k.matching = true → t = expected) :
    SplitsTo k (t :: hi :: lo :: rest) expected (rest.length + 6) splitStart
      (splitReference k (t :: hi :: lo :: rest) expected) := by
  rw [splitReference_tlv hk ht]
  refine splitsTo_of_behindLength hk ht ?_
  split_ifs with hl hinst
  · exact .done rfl
  · have hprefix : k.prefixLen = 4 := if_pos hinst
    rw [hprefix] at hl ⊢
    cases rest with
    | nil => simp only [List.length_nil] at hl; omega
    | cons inst value =>
      rw [List.length_cons] at hl ⊢
      have hvalue := splitsTo_value (k := k) (sub := t :: hi :: lo :: inst :: value)
        (expected := expected) (u := { behindLength (be16 hi lo) with
          st := .sValue, fpos := 4, inst := some inst, vcnt := be16 hi lo }) (be16 hi lo).toNat rfl rfl
        (by simp only [List.length_cons]; omega)
      exact .mono (m := (be16 hi lo).toNat + 2) (by omega) (.step hvalue)
  · have hprefix : k.prefixLen = 3 := if_neg hinst
    rw [hprefix] at hl ⊢
    have hvalue := splitsTo_value (k := k) (sub := t :: hi :: lo :: rest) (expected := expected)
      (u := { behindLength (be16 hi lo) with st := .sValue, vcnt := be16 hi lo })
      (be16 hi lo).toNat rfl rfl (show 3 + _ ≤ rest.length + 3 by omega)
    exact .mono (m := (be16 hi lo).toNat + 1) (by omega) hvalue

end

/-- A form whose tag is not accepted answers NotMatched (R171). -/
theorem splitReference_other {t : Byte} {rest : List Byte} (hk : k.matching = true)
    (ht : t ≠ expected) : splitReference k (t :: rest) expected = .notMatched := by
  cases k with
  | tv n => exact if_pos ht
  | tlv01 => exact if_pos ht
  | tlv2 => exact if_pos ht
  | skip01 | skip2 => cases hk

/-- A TLV form on a frame too short for its length field, byte by byte. -/
theorem splitsTo_short (hk : ∀ n, k ≠ .tv n) (hl : sub.length < 3)
    (ht : k.matching = true → sub = [] ∨ sub[0]? = some expected) :
    SplitsTo k sub expected 1 splitStart (splitReference k sub expected) := by
  have hreference : splitReference k sub expected = boundsFailure := by
    cases k with
    | tv n => exact absurd rfl (hk n)
    | tlv01 => exact (tlv_short hl (ht rfl)).1
    | tlv2 => exact (tlv_short hl (ht rfl)).2
    | skip01 | skip2 =>
      simp only [splitReference, skip01Frame, skip2Frame, skipFrame, lengthField_short hl]
  rw [hreference]
  refine .of_done ?_
  cases sub with
  | nil => rfl
  | cons t rest =>
    have htag : k.matching = true → t = expected := fun hm => by simpa using ht hm
    rw [List.length_cons] at hl
    cases k with
    | tv n => exact absurd rfl (hk n)
    | tlv01 | tlv2 => simp [splitStep, splitStart, SplitKind.matching, htag rfl, hl, splitFail]
    | skip01 | skip2 => simp [splitStep, splitStart, SplitKind.matching, hl, splitFail]

end

/-- Settles O52: TV, a tag that is refused, a frame without a length field, and one with it. -/
theorem byteSerialSplitterGivesTheSameAnswers :
    Obligations.ByteSerialSplitterGivesTheSameAnswers := by
  intro k sub expected
  change SplitsTo k sub expected (sub.length + 3) splitStart _
  by_cases hk : ∃ n, k = .tv n
  · obtain ⟨n, rfl⟩ := hk
    exact splitsTo_tv n sub expected
  rw [not_exists] at hk
  by_cases ht : k.matching = true → sub = [] ∨ sub[0]? = some expected
  · by_cases hl : sub.length < 3
    · exact .mono (Nat.le_add_left 1 _) (splitsTo_short hk hl ht)
    · match sub, hl with
      | [], hl => exact absurd (by decide) hl
      | [_], hl | [_, _], hl => exact absurd (of_decide_eq_true rfl) hl
      | t :: hi :: lo :: rest, _ =>
        exact splitsTo_tlv hk fun hm => by simpa using ht hm
  · rw [Classical.not_imp, not_or] at ht
    obtain ⟨hm, hne, htag⟩ := ht
    match sub, hne with
    | t :: rest, _ =>
      have hother : t ≠ expected := by simpa using htag
      rw [splitReference_other hm hother]
      exact .mono (Nat.le_add_left 1 _) (splitsTo_other hm hother)

end Sys2Proof.Machine
end

section
/-! The BCD codec (R180 to R186), the composite (R184) and the reference leaf decoder (R145). -/

namespace Sys2Proof.Machine

/-! ### The digits of a byte string -/

/-- The nibbles that are digits: the last high nibble is dropped where it is the filler (R182). -/
def digitNibbles (src : List Byte) : List (BitVec 4) := (nibbles src).take (bcdCount src)

theorem digitNibbles_length (src : List Byte) : (digitNibbles src).length = bcdCount src := by
  rw [digitNibbles, List.length_take, nibbles_length]
  exact Nat.min_eq_left (bcdCount_le src)

/-- A last byte gives one digit or two. -/
theorem digitNibbles_singleton (b : Byte) : digitNibbles [b] =
    if highNibble b = 0xF then [lowNibble b] else [lowNibble b, highNibble b] := by
  simp only [digitNibbles, bcdCount, List.getLast?_singleton]
  split <;> rfl

/-- Any other byte gives two. -/
theorem digitNibbles_cons (b : Byte) {r : List Byte} (hr : r ≠ []) :
    digitNibbles (b :: r) = lowNibble b :: highNibble b :: digitNibbles r := by
  have hlast : (b :: r).getLast? = r.getLast? := List.getLast?_cons_of_ne_nil hr
  have hcount : bcdCount (b :: r) = bcdCount r + 2 := by
    have hpos := List.length_pos_iff.mpr hr
    obtain ⟨c, hc⟩ : ∃ c, r.getLast? = some c := ⟨_, List.getLast?_eq_some_getLast hr⟩
    simp only [bcdCount, hlast, hc, List.length_cons]
    split <;> omega
  rw [digitNibbles, hcount, nibbles_cons]
  rfl

/-- BcdDecode by the digits (R180, R183). -/
theorem bcdDecode_eq (p : Params) (src : List Byte) (cap : Nat) : bcdDecode p src cap =
    if src.length = 0 ∨ cap < 2 * src.length then .reject
    else match nibbleChars p (digitNibbles src) with
      | some digits => .ok src.length (bcdCount src) digits
      | none => .reject := rfl

/-- BcdDecode delivers the characters of the digits. -/
theorem bcdDecode_ok {p : Params} {src : List Byte} {cap : Nat} {ds : List Byte} (h0 : src.length ≠ 0)
    (hcap : 2 * src.length ≤ cap) (hd : nibbleChars p (digitNibbles src) = some ds) :
    bcdDecode p src cap = .ok src.length (bcdCount src) ds := by
  rw [bcdDecode_eq, if_neg (by omega), hd]

/-- BcdDecode rejects an Invalid nibble. -/
theorem bcdDecode_invalid {p : Params} {src : List Byte} {cap : Nat}
    (hd : nibbleChars p (digitNibbles src) = none) : bcdDecode p src cap = .reject := by
  rw [bcdDecode_eq, hd]
  exact ite_self _

/-- The digit nibbles stand where their nibbles stand. -/
theorem digitNibbles_get? {src : List Byte} {k : Nat} (hk : k < bcdCount src) :
    (digitNibbles src)[k]? = (nibbles src)[k]? := List.getElem?_take_of_lt hk

/-- The count of R182 in terms of the last nibble. -/
theorem bcdCount_eq (src : List Byte) : bcdCount src =
    if (nibbles src)[2 * src.length - 1]? = some 0xF then 2 * src.length - 1 else 2 * src.length := by
  by_cases h0 : src.length = 0
  · rw [List.length_eq_zero_iff.mp h0]
    rfl
  · have hhalf : (2 * src.length - 1) / 2 = src.length - 1 := by omega
    have hodd : ¬ (2 * src.length - 1) % 2 = 0 := by omega
    rw [nibbles_get?, hhalf, ← List.getLast?_eq_getElem?, bcdCount]
    simp only [if_neg hodd]
    cases hlast : src.getLast? with
    | none =>
      rw [List.getLast?_eq_none_iff] at hlast
      exact absurd (congrArg List.length hlast) h0
    | some b =>
      simp only [Option.map_some, Option.some.injEq]
      rfl

/-- Settles O53. -/
theorem bcdDecDeliversTheDigits : Obligations.BcdDecDeliversTheDigits := by
  intro src cap s nib count hnib hcount
  obtain rfl : nib = fun k => (nibbles src)[k]? := funext fun k => by rw [hnib, nibbles_get?]
  obtain rfl : count = bcdCount src := by rw [hcount, bcdCount_eq]
  have hget : ∀ k, k < bcdCount src → (digitNibbles src)[k]? = (nibbles src)[k]? := fun k hk =>
    digitNibbles_get? hk
  have hlen := digitNibbles_length src
  have hnone := nibbleChars_none Config.params (digitNibbles src)
  rw [hlen] at hnone
  refine ⟨_, _, rfl, answer_onlyAnswer _ s, fun h => if_pos h, fun ⟨k, hk, hbad⟩ => ?_,
    fun h0 hcap hall => ?_⟩
  · exact bcdDecode_invalid (hnone.mpr ⟨k, hk, by rw [hget k hk]; exact hbad⟩)
  · cases hd : nibbleChars Config.params (digitNibbles src) with
    | none =>
      obtain ⟨k, hk, hbad⟩ := hnone.mp hd
      have hsome := hall k hk
      rw [hget k hk] at hbad
      rw [hbad] at hsome
      cases hsome
    | some ds =>
      refine ⟨ds, bcdDecode_ok h0 hcap hd, (nibbleChars_length hd).trans hlen, fun k hk => ?_⟩
      rw [nibbleChars_get? hd k (hlen.symm ▸ hk), hget k hk]

/-! ### The byte-serial codec -/

/-- The digits of the next byte, the last or not (R182, R185). -/
theorem digitNibbles_step (b : Byte) (r : List Byte) : digitNibbles (b :: r) =
    (if r.isEmpty && highNibble b == 0xF then [lowNibble b] else [lowNibble b, highNibble b]) ++
      digitNibbles r := by
  cases r with
  | nil =>
    rw [digitNibbles_singleton]
    by_cases h : highNibble b = 0xF <;> simp [h, digitNibbles, nibbles]
  | cons c r =>
    rw [digitNibbles_cons b (by simp)]
    rfl

/-- The byte-serial unit holds the characters of the digits read so far (R185). -/
theorem bcdSerialRun_eq (p : Params) (src : List Byte) (n : Nat) (held : Option (List Byte)) :
    bcdSerialRun p src { bytesIn := n, held := held } =
      { bytesIn := n + src.length
        held := held.bind fun cs => (nibbleChars p (digitNibbles src)).map fun ds => cs ++ ds } := by
  induction src generalizing n held with
  | nil => cases held <;> simp [bcdSerialRun, digitNibbles, nibbles, nibbleChars]
  | cons b r ih =>
    rw [bcdSerialRun, bcdSerialStep, ih, digitNibbles_step, nibbleChars_append]
    have hbytes : n + 1 + r.length = n + (b :: r).length := by
      rw [List.length_cons]
      omega
    rw [hbytes]
    generalize nibbleChars p (digitNibbles r) = later
    generalize nibbleChars p _ = here
    cases held with
    | none => rfl
    | some cs => cases here <;> cases later <;> simp

/-- Settles O56. -/
theorem byteSerialCodecGivesTheSameAnswers : Obligations.ByteSerialCodecGivesTheSameAnswers := by
  intro p src cap
  rw [bcdSerial, bcdDecode_eq, bcdSerialRun_eq]
  split
  · rfl
  · cases hd : nibbleChars p (digitNibbles src) with
    | none => rfl
    | some ds =>
      have hlen := (nibbleChars_length hd).trans (digitNibbles_length src)
      simp [hlen]

/-! ### The round trip -/

/-- A digit character is that of its nibble, which is not the filler (R186). -/
theorem nibbleChar_nibbleOfChar {c : Byte} (h : digitChar c = true) :
    nibbleChar Config.params (nibbleOfChar c) = some c ∧ nibbleOfChar c ≠ 0xF := by
  revert c
  decide

/-- Only the empty string is encoded as the empty string. -/
theorem bcdEncode_ne_nil {d : List Byte} (h : d ≠ []) : bcdEncode d ≠ [] := by
  match d, h with
  | [_], _ => nofun
  | _ :: _ :: _, _ => nofun

/-- Two digits a byte, the last alone where their number is odd. -/
theorem bcdEncode_length (d : List Byte) : (bcdEncode d).length = (d.length + 1) / 2 := by
  induction d using bcdEncode.induct with
  | case1 => rfl
  | case2 c => exact (of_decide_eq_true rfl : 1 = (1 + 1) / 2)
  | case3 c e r ih =>
    rw [bcdEncode, List.length_cons, ih, List.length_cons, List.length_cons]
    omega

/-- The digits of an encoded string are the nibbles of its characters. -/
theorem digitNibbles_bcdEncode {d : List Byte} (h : ∀ c ∈ d, digitChar c = true) :
    digitNibbles (bcdEncode d) = d.map nibbleOfChar := by
  induction d using bcdEncode.induct with
  | case1 => rfl
  | case2 c =>
    obtain ⟨hlow, hhigh⟩ := nibbles_of_append 0xF (nibbleOfChar c)
    rw [bcdEncode, digitNibbles_singleton, hhigh, hlow]
    rfl
  | case3 c e r ih =>
    obtain ⟨hlow, hhigh⟩ := nibbles_of_append (nibbleOfChar e) (nibbleOfChar c)
    rw [bcdEncode]
    by_cases hr : r = []
    · obtain ⟨-, he⟩ := nibbleChar_nibbleOfChar (h e (by simp))
      subst hr
      rw [bcdEncode, digitNibbles_singleton, hhigh, hlow, if_neg he]
      rfl
    · have hrest := ih fun x hx => h x (by simp [hx])
      rw [digitNibbles_cons _ (bcdEncode_ne_nil hr), hhigh, hlow, hrest]
      rfl

/-- The characters of the nibbles of digit characters are those characters. -/
theorem nibbleChars_map_nibbleOfChar {d : List Byte} (h : ∀ c ∈ d, digitChar c = true) :
    nibbleChars Config.params (d.map nibbleOfChar) = some d := by
  induction d with
  | nil => rfl
  | cons c r ih =>
    obtain ⟨hc, -⟩ := nibbleChar_nibbleOfChar (h c (by simp))
    rw [List.map_cons, nibbleChars, hc, ih fun x hx => h x (by simp [hx])]

/-- Settles O55. -/
theorem bcdRoundTrip : Obligations.BcdRoundTrip := by
  intro d hne h
  have hlen : (bcdEncode d).length ≠ 0 := fun h0 =>
    bcdEncode_ne_nil hne (List.length_eq_zero_iff.mp h0)
  have hnibbles := digitNibbles_bcdEncode h
  have hcount : bcdCount (bcdEncode d) = d.length := by
    rw [← digitNibbles_length, hnibbles, List.length_map]
  have hchars : nibbleChars Config.params (digitNibbles (bcdEncode d)) = some d := by
    rw [hnibbles]
    exact nibbleChars_map_nibbleOfChar h
  rw [bcdDecode_ok hlen (Nat.le_refl _) hchars, hcount, bcdEncode_length]

/-! ### The composite -/

/-- The nibbles of the five bytes of R70. -/
theorem plmnLac_five (m1 m2 m3 f n1 n2 : BitVec 4) (l1 l2 : Byte) (rest : List Byte) :
    plmnLac Config.params ((m2 ++ m1) :: (f ++ m3) :: (n2 ++ n1) :: l1 :: l2 :: rest) =
      match nibbleChars Config.params [m1, m2, m3],
        nibbleChars Config.params ([n1, n2] ++ if f = 0xF then [] else [f]) with
      | some mcc, some mnc => .ok 5 mcc mnc (be16 l1 l2)
      | _, _ => .malformed 0x02 := by
  have h1 := nibbles_of_append m2 m1
  have h2 := nibbles_of_append f m3
  have h3 := nibbles_of_append n2 n1
  simp only [plmnLac, plmnFive, h1, h2, h3]
  rfl

/-- One Invalid nibble is enough (R183). -/
theorem nibbleChars_of_invalid {p : Params} {x : BitVec 4} {l : List (BitVec 4)} (hx : x ∈ l)
    (h : nibbleChar p x = none) : nibbleChars p l = none := by
  obtain ⟨k, hk, rfl⟩ := List.mem_iff_getElem.mp hx
  exact (nibbleChars_none p l).mpr ⟨k, hk, by rw [List.getElem?_eq_getElem hk]; exact h⟩

/-- Fewer than five bytes (D35). -/
theorem plmnLac_short {src : List Byte} (h : src.length < 5) :
    plmnLac Config.params src = .malformed 0x01 := by
  unfold plmnLac
  split
  · simp only [List.length_cons] at h
    omega
  · rfl

/-- Settles O57. -/
theorem plmnLacSplitsTheTriplet : Obligations.PlmnLacSplitsTheTriplet := by
  intro src s
  refine ⟨_, _, rfl, answer_onlyAnswer _ s, plmnLac_short, ?_⟩
  intro m1 m2 m3 f n1 n2 l1 l2 rest hsrc
  dsimp only
  rw [hsrc, plmnLac_five]
  refine ⟨fun c1 c2 c3 d1 d2 h1 h2 h3 h4 h5 => ?_, fun h => ?_⟩
  · have hmcc : nibbleChars Config.params [m1, m2, m3] = some [c1, c2, c3] := by
      simp only [nibbleChars, h1, h2, h3]
    rw [hmcc]
    refine ⟨fun hf => ?_, fun d3 hf h6 => ?_, fun hf h6 => ?_⟩
    · rw [if_pos hf]
      simp only [nibbleChars, List.append_nil, h4, h5]
    · rw [if_neg hf]
      simp only [nibbleChars, List.cons_append, List.nil_append, h4, h5, h6]
    · rw [if_neg hf]
      simp only [nibbleChars, List.cons_append, List.nil_append, h4, h5, h6]
  · have hmcc : nibbleChar Config.params m1 = none ∨ nibbleChar Config.params m2 = none ∨
        nibbleChar Config.params m3 = none → nibbleChars Config.params [m1, m2, m3] = none := by
      rintro (h | h | h) <;> exact nibbleChars_of_invalid (by simp) h
    have hmnc : nibbleChar Config.params n1 = none ∨ nibbleChar Config.params n2 = none →
        nibbleChars Config.params ([n1, n2] ++ if f = 0xF then [] else [f]) = none := by
      rintro (h | h) <;> exact nibbleChars_of_invalid (by simp) h
    by_cases hm : nibbleChars Config.params [m1, m2, m3] = none
    · rw [hm]
    · rw [hmnc (by tauto)]
      cases nibbleChars Config.params [m1, m2, m3] <;> rfl

/-! ### The reference leaf decoder -/

/-- What LEAF.IMSI does with a frame that TV matches. -/
def imsiAnswer (p : Params) (value : List Byte) : LeafRsp × List (Byte × Field) :=
  match bcdDecode p value 16 with
  | .reject => ({ kind := 2, n := 0, reason := 0x02 }, [])
  | .ok _ count digits => ({ kind := 1, n := 9, reason := 0 },
      [(0x02, { present := true, len := count, data := digits })])

section
variable {p : Params} {sub : List Byte}

/-- Another tag is NotMatched. -/
theorem leafImsi_other {x : Byte} (hx : sub[0]? = some x) (hne : x ≠ 0x02) :
    leafImsi p sub = ({ kind := 0, n := 0, reason := 0 }, []) := by
  match sub, hx with
  | t :: rest, hx =>
    obtain rfl : t = x := by simpa using hx
    have hframe : tvFrame (t :: rest) 0x02 imsiBytes = .notMatched := if_pos hne
    rw [leafImsi, tvShaped, hframe]
    rfl

/-- A frame that does not fit is Malformed(0x01). -/
theorem leafImsi_short (hx : sub[0]?.getD 0x02 = 0x02) (hl : sub.length < 9) :
    leafImsi p sub = ({ kind := 2, n := 0, reason := 0x01 }, []) := by
  have hframe : tvFrame sub 0x02 imsiBytes = boundsFailure := by
    cases sub with
    | nil => rfl
    | cons t rest =>
      obtain rfl : t = 0x02 := by simpa using hx
      rw [tvFrame, if_neg (by simp), if_pos (show _ < tvSize imsiBytes from hl)]
  rw [leafImsi, tvShaped, hframe]
  rfl

/-- A frame that fits is interpreted. -/
theorem leafImsi_fits (hx : sub[0]? = some 0x02) (hl : 9 ≤ sub.length) :
    leafImsi p sub = imsiAnswer p ((sub.drop 1).take 8) := by
  match sub, hx with
  | t :: rest, hx =>
    obtain rfl : t = 0x02 := by simpa using hx
    have hframe : tvFrame (0x02 :: rest) 0x02 imsiBytes = .matched 9 none none (rest.take 8) := by
      rw [tvFrame, if_neg (by simp), if_neg (show ¬ _ < tvSize imsiBytes from Nat.not_lt.mpr hl)]
      rfl
    rw [leafImsi, tvShaped, hframe, imsiAnswer]
    simp only [shaped, imsiValue, imsiCapacity, List.drop_succ_cons, List.drop_zero]
    cases bcdDecode p (rest.take 8) 16 <;> rfl

/-- The three frames that LEAF.IMSI can meet. -/
theorem leafImsi_cases (p : Params) (sub : List Byte) (hne : sub ≠ []) :
    (sub[0]? ≠ some 0x02 ∧ leafImsi p sub = ({ kind := 0, n := 0, reason := 0 }, [])) ∨
    (sub[0]? = some 0x02 ∧ sub.length < 9 ∧
      leafImsi p sub = ({ kind := 2, n := 0, reason := 0x01 }, [])) ∨
    (sub[0]? = some 0x02 ∧ 9 ≤ sub.length ∧
      leafImsi p sub = imsiAnswer p ((sub.drop 1).take 8)) := by
  obtain ⟨x, hx⟩ : ∃ x, sub[0]? = some x :=
    ⟨_, List.getElem?_eq_getElem (List.length_pos_iff.mpr hne)⟩
  by_cases ht : x = 0x02
  · subst ht
    by_cases hl : sub.length < 9
    · exact .inr (.inl ⟨hx, hl, leafImsi_short (by rw [hx]; rfl) hl⟩)
    · exact .inr (.inr ⟨hx, Nat.le_of_not_lt hl, leafImsi_fits hx (Nat.le_of_not_lt hl)⟩)
  · exact .inl ⟨by simpa [hx] using ht, leafImsi_other hx ht⟩

end

/-- LEAF.IMSI puts its answer on the lines and its fields into BODY. -/
theorem exec_leafImsi {sub : List Byte} {rsp : LeafRsp} {ws : List (Byte × Field)}
    (h : leafImsi Config.params sub = (rsp, ws)) (s : State) :
    exec (.leafImsi sub) s = .next (answer (.leaf rsp) (writeFields ws s)) := by
  rw [exec, execLeafImsi, runLeafImsi, h]

/-- Settles O58. -/
theorem leafImsiWritesTheDigits : Obligations.LeafImsiWritesTheDigits := by
  intro value rest s count digits hlen hwf hd
  have htake : (value ++ rest).take 8 = value := by rw [← hlen, List.take_left]
  have hleaf : leafImsi Config.params (0x02 :: value ++ rest) = ({ kind := 1, n := 9, reason := 0 },
      [(0x02, { present := true, len := count, data := digits })]) := by
    rw [leafImsi_fits rfl (by simp [hlen]), List.cons_append, List.drop_succ_cons,
      List.drop_zero, htake, imsiAnswer, hd]
  exact ⟨_, exec_leafImsi hleaf s, rfl, bodyGet_put_same hwf _ _,
    fun f hf => bodyGet_put_other _ hf, rfl, bodyWf_put hwf _ _, .mk' rfl rfl rfl, ⟨rfl, rfl⟩,
    ⟨rfl, rfl, rfl⟩, ⟨rfl, rfl, rfl, rfl, rfl, rfl, rfl, rfl, rfl, rfl⟩, rfl, rfl, rfl, rfl, rfl,
    rfl, rfl⟩

/-- Settles O59. -/
theorem leafImsiFailuresWriteNothing : Obligations.LeafImsiFailuresWriteNothing := by
  intro sub s rsp h
  have hleaf : leafImsi Config.params sub = (rsp, []) := by
    rcases h with ⟨⟨x, hx, hne⟩, rfl⟩ | ⟨hx, hl, rfl⟩ | ⟨hx, hl, hd, rfl⟩
    · exact leafImsi_other hx hne
    · exact leafImsi_short hx hl
    · rw [leafImsi_fits hx hl, imsiAnswer, hd]
  exact ⟨_, exec_leafImsi hleaf s, answer_onlyAnswer _ s⟩

section
variable {sub : List Byte} {rsp : LeafRsp} {ws : List (Byte × Field)}

theorem conformingAnswer_notMatched {rem : Nat} (h : leafAnsOf rsp = .notMatched) :
    conformingAnswer rem (rsp, []) :=
  ⟨fun _ hm => LeafAns.noConfusion (h.symm.trans hm), fun _ => rfl⟩

theorem conformingAnswer_matched {rem n : Nat} (h : leafAnsOf rsp = .matched n) (h1 : 1 ≤ n)
    (hn : n ≤ rem) : conformingAnswer rem (rsp, ws) :=
  ⟨fun _ hm => LeafAns.matched.inj (h.symm.trans hm) ▸ ⟨h1, hn⟩,
    fun hm => LeafAns.noConfusion (h.symm.trans hm)⟩

theorem conformingAnswer_malformed {rem : Nat} {x : Byte} (h : leafAnsOf rsp = .malformed x) :
    conformingAnswer rem (rsp, ws) :=
  ⟨fun _ hm => LeafAns.noConfusion (h.symm.trans hm),
    fun hm => LeafAns.noConfusion (h.symm.trans hm)⟩

end

/-- Settles O60: the three frames of `leafImsi_cases`, a frame that fits by the codec's answer. -/
theorem referenceDecoderConforms : Obligations.ReferenceDecoderConforms := by
  intro p sub _ hne
  rcases leafImsi_cases p sub hne with ⟨hx, h⟩ | ⟨hx, hl, h⟩ | ⟨hx, hl, h⟩
  · rw [h]
    exact ⟨conformingAnswer_notMatched rfl, ⟨fun _ => hx, fun _ => rfl⟩, nofun, nofun⟩
  · rw [h]
    refine ⟨conformingAnswer_malformed rfl, ⟨nofun, fun hn => absurd hx hn⟩, fun x hm => ?_, nofun⟩
    cases hm
    exact .inl ⟨rfl, hl⟩
  · rw [h, imsiAnswer]
    cases hd : bcdDecode p ((sub.drop 1).take 8) 16 with
    | reject =>
      refine ⟨conformingAnswer_malformed rfl, ⟨nofun, fun hn => absurd hx hn⟩, fun x hm => ?_, nofun⟩
      cases hm
      exact .inr ⟨rfl, hl, rfl⟩
    | ok n count digits =>
      refine ⟨conformingAnswer_matched (n := 9) rfl (by decide) hl,
        ⟨nofun, fun hn => absurd hx hn⟩, nofun, fun w hw => ?_⟩
      rw [List.mem_singleton] at hw
      rw [hw]

end Sys2Proof.Machine
end
